-- ==== Sys2Proof/Word.lean ====
section
/-! DEFINITION. The block's data types: channel byte, channel name, pixel, pixel store and image (rules R9 to R11, R40, R41). -/

namespace Sys2Proof

/-- One channel value, an unsigned 8-bit integer (R10). -/
abbrev Byte := BitVec 8

/-- The four channels in the order R, G, B, A (R10). -/
inductive Chan where
  | r
  | g
  | b
  | a
deriving DecidableEq, Repr

/-- A pixel: "four 8-bit unsigned channel values (R, G, B, A)" (R10). -/
structure Pixel where
  r : Byte
  g : Byte
  b : Byte
  a : Byte
deriving DecidableEq, Repr, Inhabited

/-- A pixel store (R40): channel bytes by channel address, addresses strictly rising.
An address that is not listed holds NO VALUE (R15, 93_implementation_defined.md U3). -/
abbrev Memory := List Host.Cell

/-- An image (R11): width, height, and its pixels laid out in a pixel store at the channel
addresses of R41. Dimensions are counts, so they are naturals; that they stay below 2^DIM_BITS
is part of the invariant (Safety.lean). -/
structure Image where
  w : Nat
  h : Nat
  px : Memory
deriving DecidableEq, Repr

end Sys2Proof
end

