-- ==== Sys2Proof/Config.lean ====
section
/-! DEFINITION. What an implementation fixes (R6, R33) and the values the spec leaves free (U1, U2, U4): constants without a body, so that no proof can see what they are. -/

namespace Sys2Proof.Config

/-- DIM_BITS less one. A register is at least one bit wide, and nothing else is known (log entry 1). -/
opaque dimBitsLessOne : Nat

/-- DIM_BITS, the width of a dimension: an OPEN parameter (R6, D3, U8; log entry 1). -/
def dimBits : Nat :=
  dimBitsLessOne + 1

/-- The resampling routine, an OPEN parameter (R101, D20, U1; log entry 2): a total function of the
source image and the target size that returns exactly `tw * th` pixels, row-major. Nothing else is
assumed of it (R107). -/
opaque resample (src : Image) (tw th : Nat) : Vector Pixel (tw * th)

/-- What an unspecified value that the host reads may depend on (log entry 3): when it is read, told by how many
writes and resets there have been (`moment`) and by the sequencer's position, and what is read, told by its
register number (R53) and, for a pixel, by its coordinates. A read moves none of these, so a read that is
repeated returns the same value as long as no write intervenes (R54). -/
structure FreeKey where
  moment : Nat
  phase : Nat
  x : Nat
  y : Nat
  number : Nat
  px : Nat
  py : Nat
deriving DecidableEq, Repr

/-- The unspecified dimension a host read returns (U2, U4; log entry 3). It is DIM_BITS wide. -/
opaque freeDim : FreeKey → BitVec dimBits

/-- The unspecified pixel a host read returns (U2; log entry 3). -/
opaque freePixel : FreeKey → Pixel

/-- The unspecified VALID bit a host read returns (U2; log entry 3). -/
opaque freeBit : FreeKey → Bool

/-- The unspecified value read from a register number that does not exist (U2; log entry 3).
The spec gives such a read no width, so it is any natural number. -/
opaque freeWord : FreeKey → Nat

end Sys2Proof.Config
end

