-- ==== Sys2Proof/Syntax.lean ====
section
/-! DEFINITION. The commands of the block: one constructor per row of spec/opcode_table.json (R2, R61). -/

namespace Sys2Proof

/-- The four commands. Format C has no operand fields (R60): each command takes its operands from
fixed registers (R63), so no constructor has an argument. -/
inductive Instr where
  /-- CMD = 0x01 (R81). -/
  | dither
  /-- CMD = 0x02 (R102). -/
  | resize
  /-- CMD = 0x03 (R111). -/
  | encode
  /-- CMD = 0x04 (R126). -/
  | decode
deriving DecidableEq, Repr

end Sys2Proof
end

