-- ==== Sys2Proof/Machine/State.lean ====
section
/-! DEFINITION. The state of the block as plain data: the registers of 10_state.md, the host's pending transactions (R8, R71), the reset state (R32) and the reasons a step can stop. -/

namespace Sys2Proof.Machine

/-- STATUS (R21). -/
inductive Status where
  | idle
  | busy
  | done
  | error
deriving DecidableEq, Repr

/-- ERR (R22, R135). -/
inductive ErrCode where
  | none
  | invalidImage
  | invalidInput
  | illegalCommand
deriving DecidableEq, Repr

/-- PHASE, the first part of the sequencer position (R23). -/
inductive Phase where
  | none
  | dscan
  | rsz
  | mux
  | ext
  | fin
deriving DecidableEq, Repr

/-- OP, the command being executed or last executed (R25). -/
inductive Op where
  | none
  | dither
  | resize
  | encode
  | decode
deriving DecidableEq, Repr

/-- E, the three signed 9-bit quantisation-error latches (R26). -/
structure ErrLatch where
  r : BitVec 9
  g : BitVec 9
  b : BitVec 9
deriving DecidableEq, Repr

/-- The names of the five image registers x[0] … x[4] (R14). -/
inductive ImgName where
  | ia
  | ib
  | dw
  | rc
  | io
deriving DecidableEq, Repr

/-- An image register (R14, R15, R28): its VALID bit and what it holds. With VALID = 0 its
dimensions and pixels have no value a command or the host can read. -/
structure ImgReg where
  valid : Bool
  img : Image
deriving DecidableEq, Repr

/-- The host registers of the register map (R53). -/
inductive HostReg where
  | cmd
  | status
  | err
  | tw
  | th
  | valid (r : ImgName)
  | width (r : ImgName)
  | height (r : ImgName)
  | pix (r : ImgName)
deriving DecidableEq, Repr

/-- The host's transactions (R8), and the same accesses made by register number (R53). -/
inductive HostTx where
  | load (r : ImgName) (w h : Nat) (px : List Pixel)
  | invalidate (r : ImgName)
  | put (r : ImgName) (x y : Nat) (p : Pixel)
  | get (r : ImgName) (x y : Nat)
  | dims (r : ImgName)
  | writeTw (v : Nat)
  | writeTh (v : Nat)
  | writeCmd (v : Byte)
  | readStatus
  | readErr
  | readTw
  | readTh
  | readCmd
  /-- Read register number `n`; `x` and `y` address the window of a PIX register and are not used by the others. -/
  | readNum (n x y : Nat)
  /-- Write `v` to register number `n`; a PIX register takes `v` as a pixel word (R66). -/
  | writeNum (n x y v : Nat)
deriving DecidableEq, Repr

/-- The lines of a host script (R71, R72), and the three moves that are not transactions. -/
inductive ScriptLine where
  | tx (t : HostTx)
  /-- `WAIT`: repeat HostRead(STATUS) until the value is not BUSY (R71). -/
  | wait
  /-- The host makes no transaction for one step: the sequencer's turn (log entry 4). -/
  | seq
  /-- The platform asserts reset (R160). -/
  | reset
  /-- `MOVE r, src` (R72). -/
  | move (r src : ImgName)
deriving DecidableEq, Repr

/-- What the last host transaction returned (log entry 5). -/
inductive Reply where
  | none
  | word (v : Nat)
  | dims (valid : Bool) (w h : Nat)
  | pixel (p : Pixel)
deriving DecidableEq, Repr

/-- How the last host transaction ended (log entry 5). -/
inductive TxMark where
  /-- It took effect. -/
  | done
  /-- It was issued while STATUS = BUSY and ignored (R50). -/
  | ignored
  /-- It did not meet its needs and was refused (R46). -/
  | refused
  /-- The script layer rejected it: it reached the block as nothing (R71). -/
  | rejected
deriving DecidableEq, Repr

/-- The state. The first fifteen fields are the spec's; the last four are the model's own
(log entries 3, 4 and 5). -/
structure State where
  /-- Operand A, x[0] (R14, R16). -/
  ia : ImgReg
  /-- Operand B, x[1] (R14, R16). -/
  ib : ImgReg
  /-- Dither working buffer, x[2] (R17). -/
  dw : ImgReg
  /-- Resampler result, x[3] (R18). -/
  rc : ImgReg
  /-- Result image, x[4] (R19). -/
  io : ImgReg
  /-- STATUS (R21). -/
  status : Status
  /-- ERR (R22). -/
  err : ErrCode
  /-- PHASE of pc = (PHASE, X, Y) (R23). -/
  phase : Phase
  /-- X of pc (R23, R24). -/
  x : Nat
  /-- Y of pc (R23, R24). -/
  y : Nat
  /-- OP (R25). -/
  op : Op
  /-- E (R26). -/
  e : ErrLatch
  /-- TW (R27). -/
  tw : Nat
  /-- TH (R27). -/
  th : Nat
  /-- The host's and the platform's pending moves, first one next (R8, R71; log entry 4). -/
  script : List ScriptLine
  /-- What the last transaction returned (log entry 5). -/
  reply : Reply
  /-- How the last transaction ended (log entry 5). -/
  mark : TxMark
  /-- How many writes and resets there have been: the moment of a free value (log entry 3). -/
  freeCtr : Nat
deriving DecidableEq, Repr

/-- Why the machine stops. Both are safe (the model stops, nothing is claimed to go on), and both are
raised only in states that no run reaches (Safety.lean: the invariant rules them out). -/
inductive Fault where
  /-- In a scan phase the sequencer addressed a pixel that does not exist: outside [0, W) × [0, H) or
  holding no value (R9, R15, R44). Raised by the three scan phases. Safe. -/
  | absentPixel (p : Phase)
  /-- PHASE is one that OP never enters, for which the spec gives no step (R23). Raised by the sequencer. Safe. -/
  | strayPhase (p : Phase) (o : Op)
deriving DecidableEq, Repr

/-- Why an instruction has no meaning. Safe: no run goes on from a refusal. -/
inductive Refusal where
  /-- An instruction the model gives no meaning; raised by exec only. No command of the table is refused. -/
  | notModelled (mnemonic : String)
deriving DecidableEq, Repr

/-- An image register that holds no image. Its dimensions and pixels have no value (R15); the zeros
that stand here are never read by the block or shown to the host (log entry 6). -/
def ImgReg.empty : ImgReg :=
  { valid := false, img := { w := 0, h := 0, px := [] } }

/-- The machine right after reset (R32, R160): no image anywhere, IDLE, no error, sequencer idle,
and no host transaction pending (R161). -/
def State.reset : State :=
  { ia := ImgReg.empty, ib := ImgReg.empty, dw := ImgReg.empty, rc := ImgReg.empty, io := ImgReg.empty,
    status := .idle, err := .none, phase := .none, x := 0, y := 0, op := .none,
    e := { r := 0, g := 0, b := 0 }, tw := 0, th := 0,
    script := [], reply := .none, mark := .done, freeCtr := 0 }

end Sys2Proof.Machine
end

