-- ==== Sys2Proof/Machine/Ops.lean ====
section
/-! DEFINITION. The shared operations: pixel stores by channel address and by (x, y, c) (R41 to R45), the image registers, row-major scans (R24), a command's acceptance (R62), taking an error (R141) and publishing a result. -/

namespace Sys2Proof

/-- The channel index of R41. -/
def Chan.idx : Chan → Nat
  | .r => 0
  | .g => 1
  | .b => 2
  | .a => 3

/-- The channel address of channel `c` of pixel (x, y) in a store of width `w` (R41). -/
def chanAddr (w x y : Nat) (c : Chan) : Nat :=
  4 * (y * w + x) + c.idx

/-- One channel of a pixel. -/
def Pixel.chan (p : Pixel) : Chan → Byte
  | .r => p.r
  | .g => p.g
  | .b => p.b
  | .a => p.a

/-- A pixel's four channels in address order (R41). -/
def Pixel.bytes (p : Pixel) : List Byte :=
  [p.r, p.g, p.b, p.a]

/-- The pixel word of R66: R in bits 7:0, G in 15:8, B in 23:16, A in 31:24. -/
def Pixel.toWord (p : Pixel) : BitVec 32 :=
  p.a ++ p.b ++ p.g ++ p.r

/-- The pixel a pixel word stands for (R66). -/
def Pixel.ofWord (v : BitVec 32) : Pixel :=
  { r := v.extractLsb' 0 8, g := v.extractLsb' 8 8, b := v.extractLsb' 16 8, a := v.extractLsb' 24 8 }

namespace Memory

/-- The canonical form: addresses strictly rising. An unlisted address holds no value, so no entry
can equal what an unlisted address reads as. -/
abbrev wf (m : Memory) : Prop :=
  (m.map Prod.fst).Pairwise (· < ·)

/-- MemRead(r:a, 1) (R9): the byte at a channel address; none where the store holds no value (R15). -/
def read : Memory → Nat → Option Byte
  | [], _ => none
  | (k, b) :: rest, a => if k = a then some b else read rest a

/-- MemWrite(r:a, 1, v) (R9): every other address keeps what it holds. -/
def write : Memory → Nat → Byte → Memory
  | [], a, v => [(a, v)]
  | (k, b) :: rest, a, v =>
    if a < k then (a, v) :: (k, b) :: rest
    else if a = k then (a, v) :: rest
    else (k, b) :: write rest a v

/-- The store that holds the given bytes at the addresses from `a` up. -/
def ofBytes : Nat → List Byte → Memory
  | _, [] => []
  | a, v :: rest => (a, v) :: ofBytes (a + 1) rest

/-- MemRead(r:a, 4) read as (R, G, B, A) (R9, R42): the pixel access, four channel accesses at once. -/
def readPixel (m : Memory) (a : Nat) : Option Pixel := do
  let r ← m.read a
  let g ← m.read (a + 1)
  let b ← m.read (a + 2)
  let al ← m.read (a + 3)
  return { r := r, g := g, b := b, a := al }

/-- MemWrite(r:a, 4, p) (R9, R42). -/
def writePixel (m : Memory) (a : Nat) (p : Pixel) : Memory :=
  (((m.write a p.r).write (a + 1) p.g).write (a + 2) p.b).write (a + 3) p.a

/-- Every alpha byte set to 255, every other byte kept: the A channel is the address that is 3 mod 4 (R41). -/
def alphaTo255 (m : Memory) : Memory :=
  m.map fun (a, v) => if a % 4 = 3 then (a, 255) else (a, v)

end Memory

namespace Image

/-- area(r) = r.W · r.H (R9). -/
def area (img : Image) : Nat :=
  img.w * img.h

/-- The image of w × h whose pixels are the given ones in row-major order (R11). -/
def ofPixels (w h : Nat) (px : List Pixel) : Image :=
  { w := w, h := h, px := Memory.ofBytes 0 (px.flatMap Pixel.bytes) }

/-- The image of those dimensions in which no pixel has been written yet (R113, R126). -/
def blank (w h : Nat) : Image :=
  { w := w, h := h, px := [] }

/-- The bounds check of R44: (x, y) is in [0, W) × [0, H). -/
abbrev inside (img : Image) (x y : Nat) : Prop :=
  x < img.w ∧ y < img.h

/-- r.px[x, y].c (R9): none outside the image, where no access exists (R44), or where there is no value. -/
def readChan (img : Image) (x y : Nat) (c : Chan) : Option Byte :=
  if img.inside x y then img.px.read (chanAddr img.w x y c) else none

/-- r.px[x, y].c <- v (R9): none outside the image, where no access exists (R44). -/
def writeChan (img : Image) (x y : Nat) (c : Chan) (v : Byte) : Option Image :=
  if img.inside x y then some { img with px := img.px.write (chanAddr img.w x y c) v } else none

/-- r.px[x, y] as a pixel access (R42). -/
def readPixel (img : Image) (x y : Nat) : Option Pixel :=
  if img.inside x y then img.px.readPixel (chanAddr img.w x y .r) else none

/-- r.px[x, y] <- p as a pixel access (R42). -/
def writePixel (img : Image) (x y : Nat) (p : Pixel) : Option Image :=
  if img.inside x y then some { img with px := img.px.writePixel (chanAddr img.w x y .r) p } else none

/-- The coordinates of a w × h image in row-major order: y outer, x inner (R24). -/
def rowMajor (w h : Nat) : List (Nat × Nat) :=
  (List.range h).flatMap fun y => (List.range w).map fun x => (x, y)

/-- All pixels of an image in row-major order. -/
def pixels (img : Image) : Option (List Pixel) :=
  (rowMajor img.w img.h).mapM fun p => img.readPixel p.1 p.2

end Image

namespace Machine

/-- Read the whole image register of that name (R9, R14). -/
def State.reg (s : State) : ImgName → ImgReg
  | .ia => s.ia
  | .ib => s.ib
  | .dw => s.dw
  | .rc => s.rc
  | .io => s.io

/-- Write the whole image register of that name (R9, R14). -/
def State.setReg (s : State) (r : ImgName) (v : ImgReg) : State :=
  match r with
  | .ia => { s with ia := v }
  | .ib => { s with ib := v }
  | .dw => { s with dw := v }
  | .rc => { s with rc := v }
  | .io => { s with io := v }

/-- pc <- (P, x, y) (R9, R23). -/
def State.setPc (s : State) (p : Phase) (x y : Nat) : State :=
  { s with phase := p, x := x, y := y }

/-- Record how a host transaction ended and what it returned (log entry 5). -/
def State.noted (s : State) (m : TxMark) (r : Reply) : State :=
  { s with mark := m, reply := r }

/-- VALID <- 0 for DW, RC and IO (R62, R141): they hold no image afterwards (R15). -/
def State.dropResults (s : State) : State :=
  { s with dw := ImgReg.empty, rc := ImgReg.empty, io := ImgReg.empty }

/-- TAKING AN ERROR, `raise` (R141): DW, RC, IO invalid, ERR <- code, pc <- (P_NONE, 0, 0),
STATUS <- ERROR, and nothing else changes. -/
def State.raise (s : State) (e : ErrCode) : State :=
  { s.dropResults.setPc .none 0 0 with err := e, status := .error }

/-- What every CMD write taken while STATUS ≠ BUSY does before it looks at the command (R62). It is
also the way out of an error, for which there is no return instruction (R143): ERR <- NONE. -/
def State.beginCommand (s : State) (o : Op) : State :=
  { s.dropResults with err := .none, x := 0, y := 0, e := { r := 0, g := 0, b := 0 }, op := o }

/-- pc <- (P, 0, 0); STATUS <- BUSY: how an accept step ends (R81, R102, R111, R126). -/
def State.start (s : State) (p : Phase) : State :=
  { s.setPc p 0 0 with status := .busy }

/-- COMMAND ACCEPTANCE, one atomic step (R62): ignored while BUSY (R50); otherwise the common part,
then the command's check, which raises (R141) before any pixel is written, or the command's start. -/
def acceptCommand (o : Op) (check : State → Option ErrCode) (go : State → State) (s : State) :
    Host.Outcome State Fault Refusal :=
  if s.status = .busy then .next (s.noted .ignored .none)
  else
    match check (s.beginCommand o) with
    | some e => .next ((s.beginCommand o).raise e)
    | none => .next (go (s.beginCommand o))

/-- A CMD write of a byte that is no opcode (R62, R65, R139): OP <- NONE, raise ILLEGAL_COMMAND. -/
def illegalCommand (s : State) : Host.Outcome State Fault Refusal :=
  acceptCommand .none (fun _ => some .illegalCommand) id s

/-- IO.VALID <- 1; pc <- (P_NONE, 0, 0); STATUS <- DONE: how every finish step ends (R91, R105, R117, R129). -/
def State.publish (s : State) (img : Image) : State :=
  { s.setPc .none 0 0 with io := { valid := true, img := img }, status := .done }

/-- The scan of a w × h image is done (R24). -/
abbrev scanDone (w h y : Nat) : Prop :=
  w = 0 ∨ y = h

/-- Advance the scan past the processed pixel (R24). -/
def State.advance (s : State) (w : Nat) : State :=
  if s.x + 1 = w then { s with x := 0, y := s.y + 1 } else { s with x := s.x + 1 }

/-- A whole scan as one function: process every pixel in row-major order, threading the value (R24, R92). -/
def scanAll {α : Type} (w h : Nat) (f : Nat → Nat → α → Option α) (init : α) : Option α :=
  (Image.rowMajor w h).foldlM (fun acc p => f p.1 p.2 acc) init

end Machine

end Sys2Proof
end

