-- ==== Sys2Proof/Machine/Flags.lean ====
section
/-! DEFINITION. The encodings of STATUS, ERR, PHASE and OP (R21 to R23, R25, R70) and the acceptance checks that decide STATUS and ERR (R136, R142). STATUS is the block's only flag register (R21). -/

namespace Sys2Proof.Machine

/-- STATUS, 2 bits (R21). -/
def Status.code : Status → BitVec 2
  | .idle => 0
  | .busy => 1
  | .done => 2
  | .error => 3

/-- ERR, 8 bits (R22, R135). -/
def ErrCode.code : ErrCode → BitVec 8
  | .none => 0
  | .invalidImage => 1
  | .invalidInput => 2
  | .illegalCommand => 3

/-- PHASE, 3 bits (R23). -/
def Phase.code : Phase → BitVec 3
  | .none => 0
  | .dscan => 1
  | .rsz => 2
  | .mux => 3
  | .ext => 4
  | .fin => 5

/-- OP, 3 bits (R25). -/
def Op.code : Op → BitVec 3
  | .none => 0
  | .dither => 1
  | .resize => 2
  | .encode => 3
  | .decode => 4

/-- The OP value of a command (R61). -/
def Op.ofInstr : Instr → Op
  | .dither => .dither
  | .resize => .resize
  | .encode => .encode
  | .decode => .decode

/-- DITHER: IA must hold an image; a zero-area one is accepted (R81, R136, R137). -/
def checkDither (s : State) : Option ErrCode :=
  if s.ia.valid = false then some .invalidImage else none

/-- RESIZE: IA must hold an image, of non-zero area unless the target is empty (R102, R104, R136). -/
def checkResize (s : State) : Option ErrCode :=
  if s.ia.valid = false then some .invalidImage
  else if s.ia.img.area = 0 ∧ s.tw * s.th ≠ 0 then some .invalidImage
  else none

/-- ENCODE: IA, then IB must hold an image; an empty carrier needs an empty secret (R111, R121, R136, R142). -/
def checkEncode (s : State) : Option ErrCode :=
  if s.ia.valid = false then some .invalidImage
  else if s.ib.valid = false then some .invalidImage
  else if s.ib.img.area = 0 ∧ s.ia.img.area ≠ 0 then some .invalidImage
  else none

/-- DECODE: IA must hold an image; a zero-area one is accepted (R126, R136, R137). -/
def checkDecode (s : State) : Option ErrCode :=
  if s.ia.valid = false then some .invalidImage else none

end Sys2Proof.Machine
end

