-- ==== Sys2Proof/Machine/Operands.lean ====
section
/-! DEFINITION. Operand forms: the implicit operand registers of a command (R63), the neighbour table (R69), the register numbers (R53) and what the script layer lets through (R64, R71). -/

namespace Sys2Proof.Machine

/-- The registers the host may write: IA and IB (R14, R16). -/
def ImgName.hostOwned : ImgName → Bool
  | .ia => true
  | .ib => true
  | .dw => false
  | .rc => false
  | .io => false

/-- The number i of x[i] (R14). -/
def ImgName.index : ImgName → Nat
  | .ia => 0
  | .ib => 1
  | .dw => 2
  | .rc => 3
  | .io => 4

/-- x[i] by number (R14). -/
def ImgName.ofIndex : Nat → Option ImgName
  | 0 => some .ia
  | 1 => some .ib
  | 2 => some .dw
  | 3 => some .rc
  | 4 => some .io
  | _ => none

/-- The register number of a host register (R53). -/
def HostReg.number : HostReg → Nat
  | .cmd => 0x00
  | .status => 0x01
  | .err => 0x02
  | .tw => 0x03
  | .th => 0x04
  | .valid r => 0x10 + 4 * r.index
  | .width r => 0x11 + 4 * r.index
  | .height r => 0x12 + 4 * r.index
  | .pix r => 0x13 + 4 * r.index

/-- The host register of a number; numbers not in the table of R53 do not exist. -/
def HostReg.ofNumber (n : Nat) : Option HostReg :=
  match n with
  | 0x00 => some .cmd
  | 0x01 => some .status
  | 0x02 => some .err
  | 0x03 => some .tw
  | 0x04 => some .th
  | _ =>
    if n < 0x10 then none
    else
      (ImgName.ofIndex ((n - 0x10) / 4)).map fun r =>
        match (n - 0x10) % 4 with
        | 0 => .valid r
        | 1 => .width r
        | 2 => .height r
        | _ => .pix r

/-- The image the resampler step samples and the size it samples to (R63, R103, R113): IA to TW × TH
for RESIZE, IB to DW's dimensions for ENCODE. No other command has a resampler step. -/
def resizeOperands (s : State) : Option (Image × Nat × Nat) :=
  match s.op with
  | .resize => some (s.ia.img, s.tw, s.th)
  | .encode => some (s.ib.img, s.dw.img.w, s.dw.img.h)
  | .none => none
  | .dither => none
  | .decode => none

/-- A row of the neighbour table: signed offset and weight numerator over 16 (R69). -/
structure Neighbour where
  dx : Int
  dy : Int
  weight : Nat
deriving DecidableEq, Repr

/-- The wired neighbour table of the ditherer, in its order (R69). -/
def neighbours : List Neighbour :=
  [ { dx := 1, dy := 0, weight := 7 },
    { dx := -1, dy := 1, weight := 3 },
    { dx := 0, dy := 1, weight := 5 },
    { dx := 1, dy := 1, weight := 1 } ]

/-- The neighbour of (x, y) at that offset, none when it falls outside [0, W) × [0, H); the
comparison is on signed coordinates (R44, R85). -/
def neighbourAt (w h x y : Nat) (n : Neighbour) : Option (Nat × Nat) :=
  if 0 ≤ (x : Int) + n.dx ∧ (x : Int) + n.dx < w ∧ 0 ≤ (y : Int) + n.dy ∧ (y : Int) + n.dy < h then
    some (((x : Int) + n.dx).toNat, ((y : Int) + n.dy).toNat)
  else none

/-- A value fits a dimension register (R64, D27). -/
abbrev fitsDim (v : Nat) : Prop :=
  v < 2 ^ Config.dimBits

/-- The width of a host register in bits (R53, R66). -/
def HostReg.bits : HostReg → Nat
  | .cmd => 8
  | .status => 2
  | .err => 8
  | .tw => Config.dimBits
  | .th => Config.dimBits
  | .valid _ => 1
  | .width _ => Config.dimBits
  | .height _ => Config.dimBits
  | .pix _ => 32

/-- The coordinates of a pixel fit DIM_BITS, the width of x and y (R6, D27). -/
def coordsFit (x y : Nat) : Bool :=
  decide (fitsDim x) && decide (fitsDim y)

/-- The coordinates given with a register number fit: only a PIX window is addressed by (x, y) (R53). -/
def HostReg.coordsOk : HostReg → Nat → Nat → Bool
  | .pix _, x, y => coordsFit x y
  | .cmd, _, _ => true
  | .status, _, _ => true
  | .err, _, _ => true
  | .tw, _, _ => true
  | .th, _, _ => true
  | .valid _, _, _ => true
  | .width _, _, _ => true
  | .height _, _, _ => true

/-- What the script layer checks before a transaction reaches the block (R64, R71): LOAD and INVAL name IA or IB,
LOAD needs exactly W·H pixels and dimensions below 2^DIM_BITS, SETW and SETH a value below 2^DIM_BITS, PUT and
GET coordinates below 2^DIM_BITS (log entry 19). By number (log entries 9 and 19) a value written must fit the
register it names, and the coordinates of a PIX window DIM_BITS. -/
def HostTx.argsOk : HostTx → Bool
  | .load r w h px => px.length == w * h && decide (fitsDim w) && decide (fitsDim h) && r.hostOwned
  | .invalidate r => r.hostOwned
  | .put _ x y _ => coordsFit x y
  | .get _ x y => coordsFit x y
  | .writeTw v => decide (fitsDim v)
  | .writeTh v => decide (fitsDim v)
  | .writeNum n x y v =>
    match HostReg.ofNumber n with
    | some f => decide (v < 2 ^ f.bits) && f.coordsOk x y
    | none => true
  | .readNum n x y =>
    match HostReg.ofNumber n with
    | some f => f.coordsOk x y
    | none => true
  | .dims _ => true
  | .writeCmd _ => true
  | .readStatus => true
  | .readErr => true
  | .readTw => true
  | .readTh => true
  | .readCmd => true

/-- The transactions that are reads (R8, R53, R54). -/
def HostTx.isRead : HostTx → Bool
  | .get _ _ _ => true
  | .dims _ => true
  | .readStatus => true
  | .readErr => true
  | .readTw => true
  | .readTh => true
  | .readCmd => true
  | .readNum _ _ _ => true
  | .load _ _ _ _ => false
  | .invalidate _ => false
  | .put _ _ _ _ => false
  | .writeTw _ => false
  | .writeTh _ => false
  | .writeCmd _ => false
  | .writeNum _ _ _ _ => false

end Sys2Proof.Machine
end

