-- ==== Sys2Proof/Machine/Channel.lean ====
section
/-! DEFINITION. The per-channel arithmetic: threshold and quantisation error (R82, R84), the neighbour update in its integer form and in its exact form (R86, R87), MUXNIB (R114) and EXTNIB (R127). -/

namespace Sys2Proof.Machine

/-- "output = 255 if current value > 127, else 0" (R82): unsigned and strict. -/
def threshold (cur : Byte) : Byte :=
  if 127 < cur.toNat then 255 else 0

/-- E.c <- cur − out, over the integers, in 9 bits two's complement (R26, R84). -/
def quantError (cur out : Byte) : BitVec 9 :=
  BitVec.ofInt 9 ((cur.toNat : Int) - (out.toNat : Int))

/-- t = 16·v + w·E.c, a signed integer (R87). -/
def diffuseSum (v : Byte) (w : Nat) (e : BitVec 9) : Int :=
  16 * (v.toNat : Int) + (w : Int) * e.toInt

/-- The value a neighbour update stores: 0 if t < 0, 255 if t ≥ 4080, else t >> 4 (R87). -/
def diffuse (v : Byte) (w : Nat) (e : BitVec 9) : Byte :=
  let t := diffuseSum v w e
  if t < 0 then 0
  else if 4080 ≤ t then 255
  else BitVec.ofInt 8 (t >>> (4 : Nat))

/-- clamp(q, lo, hi) on rationals (R9). -/
def clampRat (q lo hi : Rat) : Rat :=
  if q < lo then lo else if hi < q then hi else q

/-- trunc(q): q rounded toward zero (R9). -/
def truncRat (q : Rat) : Int :=
  if q < 0 then q.ceil else q.floor

/-- The value a neighbour update stores, in the exact rational form: trunc(clamp(v + (E.c · w)/16, 0, 255)) (R86). -/
def diffuseExact (v : Byte) (w : Nat) (e : BitVec 9) : Int :=
  truncRat (clampRat ((v.toNat : Rat) + (e.toInt : Rat) * (w : Rat) / 16) 0 255)

/-- MUXNIB(rc, d) = (rc & 0xF0) | ((d & 0xF0) >> 4) (R114). -/
def muxNib (rc d : Byte) : Byte :=
  (rc &&& 0xF0) ||| ((d &&& 0xF0) >>> 4)

/-- EXTNIB(v) = (v & 0x0F) << 4 (R127). -/
def extNib (v : Byte) : Byte :=
  (v &&& 0x0F) <<< 4

end Sys2Proof.Machine
end

