-- ==== Sys2Proof/Machine/Dither.lean ====
section
/-! DEFINITION. The DITHER command (R81), the visit of one pixel (R82 to R90) and phase P_DSCAN (R89). -/

namespace Sys2Proof.Machine

/-- The latch of one of the three processed channels; alpha has none (R26). -/
def ErrLatch.get (e : ErrLatch) : Chan → Option (BitVec 9)
  | .r => some e.r
  | .g => some e.g
  | .b => some e.b
  | .a => none

/-- Write the latch of a channel; alpha has none (R26). -/
def ErrLatch.set (e : ErrLatch) (c : Chan) (v : BitVec 9) : ErrLatch :=
  match c with
  | .r => { e with r := v }
  | .g => { e with g := v }
  | .b => { e with b := v }
  | .a => e

/-- The three channels a visit processes, in their order (R88, D11). -/
def colours : List Chan :=
  [.r, .g, .b]

/-- The threshold part of a visit for one channel: read the current value, latch the error, write
the output (R82, R83, R84). -/
def thresholdChan (x y : Nat) (st : Image × ErrLatch) (c : Chan) : Option (Image × ErrLatch) := do
  let cur ← st.1.readChan x y c
  let img ← st.1.writeChan x y c (threshold cur)
  return (img, st.2.set c (quantError cur (threshold cur)))

/-- One neighbour update of one channel, a read-modify-write written back at once (R45, R86, R87). -/
def diffuseChan (nx ny w : Nat) (e : ErrLatch) (img : Image) (c : Chan) : Option Image := do
  let v ← img.readChan nx ny c
  let ec ← e.get c
  img.writeChan nx ny c (diffuse v w ec)

/-- The updates of one neighbour; one that is not inside is neither read nor written (R85). -/
def diffuseNeighbour (x y : Nat) (e : ErrLatch) (img : Image) (n : Neighbour) : Option Image :=
  match neighbourAt img.w img.h x y n with
  | some (nx, ny) => colours.foldlM (diffuseChan nx ny n.weight e) img
  | none => some img

/-- The visit of pixel (x, y) (R88): three thresholds, the alpha write (R90), the four neighbours. -/
def visit (x y : Nat) (st : Image × ErrLatch) : Option (Image × ErrLatch) := do
  let (img, e) ← colours.foldlM (thresholdChan x y) st
  let img ← img.writeChan x y .a 255
  let img ← neighbours.foldlM (diffuseNeighbour x y e) img
  return (img, e)

/-- DITHER (R81): IA is the operand; DW <- IA, then the scan. -/
def execDither (s : State) : Host.Outcome State Fault Refusal :=
  acceptCommand .dither checkDither (fun s => { s with dw := s.ia }.start .dscan) s

/-- One step of phase P_DSCAN (R89), which DITHER and ENCODE share (R112). -/
def stepDscan (s : State) : Host.Outcome State Fault Refusal :=
  if scanDone s.dw.img.w s.dw.img.h s.y then
    match s.op with
    | .dither => .next (s.setPc .fin 0 0)
    | .encode => .next (s.setPc .rsz 0 0)
    | .none => .fault (.strayPhase .dscan .none)
    | .resize => .fault (.strayPhase .dscan .resize)
    | .decode => .fault (.strayPhase .dscan .decode)
  else
    match visit s.x s.y (s.dw.img, s.e) with
    | some (img, e) => .next ({ s with dw := { s.dw with img := img }, e := e }.advance s.dw.img.w)
    | none => .fault (.absentPixel .dscan)

/-- The finish step of DITHER (R91): IO <- DW. -/
def finishDither (s : State) : State :=
  s.publish s.dw.img

end Sys2Proof.Machine
end

