-- ==== Sys2Proof/Machine/Encode.lean ====
section
/-! DEFINITION. The ENCODE command (R111), the packing of one pixel (R114 to R116), phase P_MUX (R115) and the finish step (R117). -/

namespace Sys2Proof.Machine

/-- ENCODE (R111): IA is the secret, IB the carrier; DW <- IA, then the dither scan. -/
def execEncode (s : State) : Host.Outcome State Fault Refusal :=
  acceptCommand .encode checkEncode (fun s => { s with dw := s.ia }.start .dscan) s

/-- One colour channel of the combined image at (x, y) (R115). -/
def packChan (d rc : Image) (x y : Nat) (out : Image) (c : Chan) : Option Image := do
  let vr ← rc.readChan x y c
  let vd ← d.readChan x y c
  out.writeChan x y c (muxNib vr vd)

/-- One pixel of the combined image: three muxed channels and alpha 255 (R115, R116). -/
def packPixel (d rc : Image) (x y : Nat) (out : Image) : Option Image := do
  let img ← colours.foldlM (packChan d rc x y) out
  img.writeChan x y .a 255

/-- One step of phase P_MUX (R115). -/
def stepMux (s : State) : Host.Outcome State Fault Refusal :=
  if scanDone s.io.img.w s.io.img.h s.y then .next (s.setPc .fin 0 0)
  else
    match packPixel s.dw.img s.rc.img s.x s.y s.io.img with
    | some img => .next ({ s with io := { s.io with img := img } }.advance s.io.img.w)
    | none => .fault (.absentPixel .mux)

/-- The finish step of ENCODE (R117). -/
def finishEncode (s : State) : State :=
  s.publish s.io.img

end Sys2Proof.Machine
end

