-- ==== Sys2Proof/Machine/Extract.lean ====
section
/-! DEFINITION. The DECODE command (R126), the extraction of one pixel (R127, R128), phase P_EXT (R128) and the finish step (R129). -/

namespace Sys2Proof.Machine

/-- DECODE (R126): IA is the operand; IO takes its dimensions and stays invalid. -/
def execDecode (s : State) : Host.Outcome State Fault Refusal :=
  acceptCommand .decode checkDecode
    (fun s => { s with io := { valid := false, img := Image.blank s.ia.img.w s.ia.img.h } }.start .ext) s

/-- One colour channel of the reconstructed image at (x, y) (R128). -/
def extractChan (src : Image) (x y : Nat) (out : Image) (c : Chan) : Option Image := do
  let v ← src.readChan x y c
  out.writeChan x y c (extNib v)

/-- One pixel of the reconstructed image: three extracted channels and alpha 255 (R128). -/
def extractPixel (src : Image) (x y : Nat) (out : Image) : Option Image := do
  let img ← colours.foldlM (extractChan src x y) out
  img.writeChan x y .a 255

/-- One step of phase P_EXT (R128). -/
def stepExt (s : State) : Host.Outcome State Fault Refusal :=
  if scanDone s.io.img.w s.io.img.h s.y then .next (s.setPc .fin 0 0)
  else
    match extractPixel s.ia.img s.x s.y s.io.img with
    | some img => .next ({ s with io := { s.io with img := img } }.advance s.io.img.w)
    | none => .fault (.absentPixel .ext)

/-- The finish step of DECODE (R129). -/
def finishDecode (s : State) : State :=
  s.publish s.io.img

end Sys2Proof.Machine
end

