-- ==== Sys2Proof/Machine/Resize.lean ====
section
/-! DEFINITION. The RESIZE command (R102), the resampler step of phase P_RSZ, shared with ENCODE (R103, R113), and the finish step of RESIZE (R105). -/

namespace Sys2Proof.Machine

/-- RESIZE (R102): IA, TW and TH are the operands. -/
def execResize (s : State) : Host.Outcome State Fault Refusal :=
  acceptCommand .resize checkResize (fun s => s.start .rsz) s

/-- The pixels the resampler step writes: none for an empty target, else the resampler's (R103). -/
def resampled (src : Image) (tw th : Nat) : List Pixel :=
  if tw * th = 0 then [] else (Config.resample src tw th).toList

/-- The image the resampler step leaves in RC (R103). -/
def resampledImage (src : Image) (tw th : Nat) : Image :=
  Image.ofPixels tw th (resampled src tw th)

/-- ENCODE's part of the resampler step, after RC has been written (R113): refuse a carrier whose
dimensions are not DW's (R120, R138), else give IO its dimensions; IO.VALID stays 0. -/
def encodeAfterResize (s : State) : State :=
  if s.rc.img.w ≠ s.dw.img.w ∨ s.rc.img.h ≠ s.dw.img.h then s.raise .invalidInput
  else
    { s with io := { valid := false, img := Image.blank s.dw.img.w s.dw.img.h } }.setPc .mux 0 0

/-- One step of phase P_RSZ (R103, R113). -/
def stepRsz (s : State) : Host.Outcome State Fault Refusal :=
  match resizeOperands s with
  | none => .fault (.strayPhase .rsz s.op)
  | some (src, tw, th) =>
    let s' := { s with rc := { valid := true, img := resampledImage src tw th } }
    if s.op = .encode then .next (encodeAfterResize s') else .next (s'.setPc .fin 0 0)

/-- The finish step of RESIZE (R105): IO is RC with every alpha forced to 255; RC keeps its own. -/
def finishResize (s : State) : State :=
  s.publish { s.rc.img with px := s.rc.img.px.alphaTo255 }

end Sys2Proof.Machine
end

