-- ==== Sys2Proof/Machine/Sequencer.lean ====
section
/-! DEFINITION. The sequencer: one step of the running command by PHASE (R23), and what the block does by itself when it is or is not BUSY (R149, R172). -/

namespace Sys2Proof.Machine

/-- One step of phase P_FIN: the finish step of the command in OP (R91, R105, R117, R129). -/
def stepFin (s : State) : Host.Outcome State Fault Refusal :=
  match s.op with
  | .dither => .next (finishDither s)
  | .resize => .next (finishResize s)
  | .encode => .next (finishEncode s)
  | .decode => .next (finishDecode s)
  | .none => .fault (.strayPhase .fin .none)

/-- One sequencer step of the running command (R23). BUSY with P_NONE is a state no run reaches. -/
def stepPhase (s : State) : Host.Outcome State Fault Refusal :=
  match s.phase with
  | .none => .fault (.strayPhase .none s.op)
  | .dscan => stepDscan s
  | .rsz => stepRsz s
  | .mux => stepMux s
  | .ext => stepExt s
  | .fin => stepFin s

/-- What the block does by itself: the sequencer's next step while BUSY, and otherwise nothing, all
state kept until the next host transaction or reset (R149). -/
def runBlock (s : State) : Host.Outcome State Fault Refusal :=
  if s.status = .busy then stepPhase s else .next s

end Sys2Proof.Machine
end

