-- ==== Sys2Proof/Decode.lean ====
section
/-! DEFINITION. The command word: the opcode table (R60, R61, R73), the decoder, total on any bytes and rejecting by name (R65), and after it the encoder. -/

namespace Sys2Proof

/-- One row of the opcode table: a command byte `v` is this command when `v &&& mask = pattern` (R73). -/
structure OpcodeRow where
  mask : Byte
  pattern : Byte
  instr : Instr
deriving DecidableEq, Repr

/-- The opcode map of R61, which is complete. -/
def opcodeTable : List OpcodeRow :=
  [ { mask := 0xFF, pattern := 0x01, instr := .dither },
    { mask := 0xFF, pattern := 0x02, instr := .resize },
    { mask := 0xFF, pattern := 0x03, instr := .encode },
    { mask := 0xFF, pattern := 0x04, instr := .decode } ]

/-- Why bytes are no command. -/
inductive DecodeError where
  /-- There is no byte to read. -/
  | noByte
  /-- The byte is 0x00 or 0x05 … 0xFF (R65). -/
  | illegalCommand (v : Byte)
deriving DecidableEq, Repr

/-- The command a CMD byte selects, by the match and mask of R73; none when no row matches (R65). -/
def decodeByte (v : Byte) : Option Instr :=
  (opcodeTable.find? fun row => v &&& row.mask == row.pattern).map (·.instr)

/-- Decode the first command of a list of bytes: exactly one byte is read per command (R60). -/
def decode : List Byte → Except DecodeError (Instr × List Byte)
  | [] => .error .noByte
  | v :: rest =>
    match decodeByte v with
    | some i => .ok (i, rest)
    | none => .error (.illegalCommand v)

/-- The CMD byte of a command (R61). -/
def encodeByte : Instr → Byte
  | .dither => 0x01
  | .resize => 0x02
  | .encode => 0x03
  | .decode => 0x04

/-- The words of a command: one byte (R60). -/
def encode (i : Instr) : List Byte :=
  [encodeByte i]

/-- The bytes of an instruction whose bits spec/opcode_table.json numbers as `w`: byte k is bits
8k+7 … 8k, the first byte is the least significant. -/
def tableBytes (nbits w : Nat) : List Byte :=
  (List.range (nbits / 8)).map fun k => BitVec.ofNat 8 (w >>> (8 * k))

/-- What the decoder reads from an instruction given as the opcode table numbers its bits: the one
command the bytes hold, none where the decoder refuses or bytes are left over. -/
def decodeTableWord (nbits w : Nat) : Option Instr :=
  match decode (tableBytes nbits w) with
  | .ok (i, []) => some i
  | _ => none

end Sys2Proof
end

