-- ==== Sys2Proof/Machine/Transactions.lean ====
section
/-! DEFINITION. The host transactions (R8, R46, R50, R53, R54): each is atomic, is ignored while BUSY where R50 says so, and is refused without any change when its needs are not met (R46). A read whose value is unspecified returns a free value (U2, U4). -/

namespace Sys2Proof.Machine

/-- A write that is ignored while BUSY (R50): it changes no state. -/
def ignored (s : State) : Host.Outcome State Fault Refusal :=
  .next (s.noted .ignored .none)

/-- A write that is refused (R46): it changes no state. -/
def refusedTx (s : State) : Host.Outcome State Fault Refusal :=
  .next (s.noted .refused .none)

/-- A read that returns a specified value; reads have no side effect (R54). -/
def answered (r : Reply) (s : State) : Host.Outcome State Fault Refusal :=
  .next (s.noted .done r)

/-- A read whose value is unspecified (U2, U4), with the mark it ends by; it has no side effect either (R54). -/
def answeredFree (m : TxMark) (r : Reply) (s : State) : Host.Outcome State Fault Refusal :=
  .next (s.noted m r)

/-- What an unspecified value read now from register number `n`, at (x, y) of a PIX window, may depend on (log
entry 3). -/
def State.freeKey (s : State) (n x y : Nat) : Config.FreeKey :=
  { moment := s.freeCtr, phase := s.phase.code.toNat, x := s.x, y := s.y, number := n, px := x, py := y }

/-- The unspecified pixel (x, y) of an image register. -/
def State.freePixel (s : State) (r : ImgName) (x y : Nat) : Pixel :=
  Config.freePixel (s.freeKey (HostReg.pix r).number x y)

/-- The unspecified value of a W or H register, the same by HostDims and by number (R54; log entry 20). -/
def State.freeDim (s : State) (f : HostReg) : Nat :=
  (Config.freeDim (s.freeKey f.number 0 0)).toNat

/-- The unspecified VALID bit of an image register. -/
def State.freeBit (s : State) (r : ImgName) : Bool :=
  Config.freeBit (s.freeKey (HostReg.valid r).number 0 0)

/-- Unspecified dimensions with the VALID bit given (R28, U4). -/
def State.freeDims (s : State) (valid : Bool) (r : ImgName) : Reply :=
  .dims valid (s.freeDim (.width r)) (s.freeDim (.height r))

/-- `HostLoad(r, w, h, px)` (R8): r <- the image, r.VALID <- 1. -/
def hostLoad (r : ImgName) (w h : Nat) (px : List Pixel) (s : State) : Host.Outcome State Fault Refusal :=
  if s.status = .busy then ignored s
  else if r.hostOwned then
    .next ((s.setReg r { valid := true, img := Image.ofPixels w h px }).noted .done .none)
  else refusedTx s

/-- `HostInvalidate(r)` (R8): r.VALID <- 0; the register holds no image afterwards (R15). -/
def hostInvalidate (r : ImgName) (s : State) : Host.Outcome State Fault Refusal :=
  if s.status = .busy then ignored s
  else if r.hostOwned then .next ((s.setReg r ImgReg.empty).noted .done .none)
  else refusedTx s

/-- `HostPut(r, x, y, p)` (R8): needs r.VALID = 1, x < r.W, y < r.H. -/
def hostPut (r : ImgName) (x y : Nat) (p : Pixel) (s : State) : Host.Outcome State Fault Refusal :=
  if s.status = .busy then ignored s
  else if r.hostOwned ∧ (s.reg r).valid then
    match (s.reg r).img.writePixel x y p with
    | some img => .next ((s.setReg r { valid := true, img := img }).noted .done .none)
    | none => refusedTx s
  else refusedTx s

/-- `HostGet(r, x, y)` (R8): needs r.VALID = 1, x < r.W, y < r.H; `out` is the form the pixel is returned in. -/
def hostGetAs (out : Pixel → Reply) (r : ImgName) (x y : Nat) (s : State) : Host.Outcome State Fault Refusal :=
  if s.status = .busy then answeredFree .ignored (out (s.freePixel r x y)) s
  else if (s.reg r).valid then
    match (s.reg r).img.readPixel x y with
    | some p => answered (out p) s
    | none => answeredFree .refused (out (s.freePixel r x y)) s
  else answeredFree .refused (out (s.freePixel r x y)) s

/-- `HostGet(r, x, y)` (R8). -/
def hostGet (r : ImgName) (x y : Nat) (s : State) : Host.Outcome State Fault Refusal :=
  hostGetAs .pixel r x y s

/-- `HostDims(r)` (R8, R28): VALID, W and H; W and H are unspecified when VALID = 0 (U4). -/
def hostDims (r : ImgName) (s : State) : Host.Outcome State Fault Refusal :=
  if s.status = .busy then answeredFree .ignored (s.freeDims (s.freeBit r) r) s
  else if (s.reg r).valid then answered (.dims true (s.reg r).img.w (s.reg r).img.h) s
  else answeredFree .done (s.freeDims false r) s

/-- `HostWrite(TW, v)` (R8, R27). -/
def hostWriteTw (v : Nat) (s : State) : Host.Outcome State Fault Refusal :=
  if s.status = .busy then ignored s else .next ({ s with tw := v }.noted .done .none)

/-- `HostWrite(TH, v)` (R8, R27). -/
def hostWriteTh (v : Nat) (s : State) : Host.Outcome State Fault Refusal :=
  if s.status = .busy then ignored s else .next ({ s with th := v }.noted .done .none)

/-- `HostWrite(CMD, v)` (R62): the byte is decoded and the command's acceptance step, or that of an
illegal word, is taken; each of them ignores the write while BUSY (R50). -/
def hostWriteCmd (v : Byte) (s : State) : Host.Outcome State Fault Refusal :=
  match decodeByte v with
  | some i => exec i (s.noted .done .none)
  | none => illegalCommand (s.noted .done .none)

/-- `HostRead(STATUS)`, always allowed (R8). -/
def hostReadStatus (s : State) : Host.Outcome State Fault Refusal :=
  answered (.word s.status.code.toNat) s

/-- `HostRead(ERR)`, always allowed (R8). -/
def hostReadErr (s : State) : Host.Outcome State Fault Refusal :=
  answered (.word s.err.code.toNat) s

/-- `HostRead(TW)`, always allowed (R8). -/
def hostReadTw (s : State) : Host.Outcome State Fault Refusal :=
  answered (.word s.tw) s

/-- `HostRead(TH)`, always allowed (R8). -/
def hostReadTh (s : State) : Host.Outcome State Fault Refusal :=
  answered (.word s.th) s

/-- `HostRead(CMD)`, always allowed: CMD holds no value and reads 0 (R20). -/
def hostReadCmd (s : State) : Host.Outcome State Fault Refusal :=
  answered (.word 0) s

/-- VALID read by number (R53): as HostDims, ignored while BUSY (R50). -/
def hostReadValid (r : ImgName) (s : State) : Host.Outcome State Fault Refusal :=
  if s.status = .busy then answeredFree .ignored (.word (s.freeBit r).toNat) s
  else answered (.word (s.reg r).valid.toNat) s

/-- The W or H register `f` of an image register read by number (R53): as HostDims, ignored while BUSY (R50) and
unspecified when VALID = 0 (U4). -/
def hostReadDim (f : HostReg) (field : Image → Nat) (r : ImgName) (s : State) : Host.Outcome State Fault Refusal :=
  if s.status = .busy then answeredFree .ignored (.word (s.freeDim f)) s
  else if (s.reg r).valid then answered (.word (field (s.reg r).img)) s
  else answeredFree .done (.word (s.freeDim f)) s

/-- A read of a number that does not exist (R53): ignored while BUSY (R50), else refused (R46). -/
def hostReadNowhere (n : Nat) (s : State) : Host.Outcome State Fault Refusal :=
  if s.status = .busy then answeredFree .ignored (.word (Config.freeWord (s.freeKey n 0 0))) s
  else answeredFree .refused (.word (Config.freeWord (s.freeKey n 0 0))) s

/-- A read of a register number (R53); numbers that do not exist are refused (R46). -/
def hostReadNum (n x y : Nat) (s : State) : Host.Outcome State Fault Refusal :=
  match HostReg.ofNumber n with
  | some .cmd => hostReadCmd s
  | some .status => hostReadStatus s
  | some .err => hostReadErr s
  | some .tw => hostReadTw s
  | some .th => hostReadTh s
  | some (.valid r) => hostReadValid r s
  | some (.width r) => hostReadDim (.width r) (fun img => img.w) r s
  | some (.height r) => hostReadDim (.height r) (fun img => img.h) r s
  | some (.pix r) => hostGetAs (fun p => .word p.toWord.toNat) r x y s
  | none => hostReadNowhere n s

/-- A write to a register the host may only read, or to a number that does not exist (R46, R53). -/
def hostWriteRefused (s : State) : Host.Outcome State Fault Refusal :=
  if s.status = .busy then ignored s else refusedTx s

/-- A write to a register number (R53): CMD, TW, TH and the PIX windows take the value; writing 0 to
VALID of IA or IB is HostInvalidate; every other write is refused (R46; log entry 9). -/
def hostWriteNum (n x y v : Nat) (s : State) : Host.Outcome State Fault Refusal :=
  match HostReg.ofNumber n with
  | some .cmd => hostWriteCmd (BitVec.ofNat 8 v) s
  | some .tw => hostWriteTw v s
  | some .th => hostWriteTh v s
  | some (.valid r) => if v = 0 then hostInvalidate r s else hostWriteRefused s
  | some (.pix r) => hostPut r x y (Pixel.ofWord (BitVec.ofNat 32 v)) s
  | some .status => hostWriteRefused s
  | some .err => hostWriteRefused s
  | some (.width _) => hostWriteRefused s
  | some (.height _) => hostWriteRefused s
  | none => hostWriteRefused s

/-- One host transaction (R8). -/
def hostTx (t : HostTx) (s : State) : Host.Outcome State Fault Refusal :=
  match t with
  | .load r w h px => hostLoad r w h px s
  | .invalidate r => hostInvalidate r s
  | .put r x y p => hostPut r x y p s
  | .get r x y => hostGet r x y s
  | .dims r => hostDims r s
  | .writeTw v => hostWriteTw v s
  | .writeTh v => hostWriteTh v s
  | .writeCmd v => hostWriteCmd v s
  | .readStatus => hostReadStatus s
  | .readErr => hostReadErr s
  | .readTw => hostReadTw s
  | .readTh => hostReadTh s
  | .readCmd => hostReadCmd s
  | .readNum n x y => hostReadNum n x y s
  | .writeNum n x y v => hostWriteNum n x y v s

end Sys2Proof.Machine
end

