-- ==== Sys2Proof/Machine/Script.lean ====
section
/-! DEFINITION. The host script as the machine's input (R8, R71, R72): which agent moves next is data in State, and each step takes the script's first line or, with none left, the block's own step (log entry 4). -/

namespace Sys2Proof.Machine

/-- `RUN c` (R72): the command's CMD write, then WAIT. -/
def scriptRun (i : Instr) : List ScriptLine :=
  [.tx (.writeCmd (encodeByte i)), .wait]

/-- `RESIZE tw, th` (R72): SETW, SETH, then the RESIZE command's CMD write. DESIGN CHOICE (log entry 18): the
pseudo-instruction is its three lines, so a tw or th that does not fit DIM_BITS rejects its own line alone
(R71) and the RESIZE after it runs with the TW or TH that was there. -/
def scriptResize (tw th : Nat) : List ScriptLine :=
  [.tx (.writeTw tw), .tx (.writeTh th), .tx (.writeCmd (encodeByte .resize))]

/-- `MOVE r, src` (R72) where it may be used: DIMS src, GET of every pixel in row-major order, then
LOAD r with those pixels. None while BUSY or when src holds no image. -/
def expandMove (r src : ImgName) (s : State) : Option (List ScriptLine) :=
  if s.status = .busy ∨ (s.reg src).valid = false then none
  else
    (s.reg src).img.pixels.map fun px =>
      .tx (.dims src)
        :: (Image.rowMajor (s.reg src).img.w (s.reg src).img.h).map (fun p => .tx (.get src p.1 p.2))
        ++ [.tx (.load r (s.reg src).img.w (s.reg src).img.h px)]

/-- `WAIT` (R71): one HostRead(STATUS); while BUSY the sequencer takes its next step and the line stays. -/
def scriptWait (rest : List ScriptLine) (s : State) : Host.Outcome State Fault Refusal :=
  if s.status = .busy then runBlock (s.noted .done (.word s.status.code.toNat))
  else hostReadStatus { s with script := rest }

/-- Reset (R32, R160). What the host still means to do is not the block's state, and what is unspecified may
read otherwise after a reset (log entries 3 and 14). -/
def resetBlock (s : State) : State :=
  { State.reset with script := s.script, freeCtr := s.freeCtr + 1 }

/-- The moment of free values moves on with every transaction that is no read (R54; log entry 3). -/
def State.counted (s : State) (t : HostTx) : State :=
  { s with freeCtr := if t.isRead then s.freeCtr else s.freeCtr + 1 }

/-- A script line; `s` already has it taken off its script, `line :: s.script` is the script before. -/
def scriptLine (line : ScriptLine) (s : State) : Host.Outcome State Fault Refusal :=
  match line with
  | .tx t => if t.argsOk then hostTx t (s.counted t) else .next (s.noted .rejected .none)
  | .wait => scriptWait s.script { s with script := .wait :: s.script }
  | .seq => runBlock s
  | .reset => .next (resetBlock s)
  | .move r src =>
    if r.hostOwned then
      match expandMove r src s with
      | some lines => .next { s with script := lines ++ s.script }
      | none => refusedTx s
    else .next (s.noted .rejected .none)

/-- One step of the whole: the script's first line, or the block's own step when the host has none. -/
def advanceScript (s : State) : Host.Outcome State Fault Refusal :=
  match s.script with
  | [] => runBlock s
  | line :: rest => scriptLine line { s with script := rest }

/-- The block takes no CMD write while BUSY (R50), so a state in which it is to take one is not BUSY:
the running command is put aside. Acceptance overwrites everything else the command left (R62). -/
def readyForCommand (s : State) : State :=
  if s.status = .busy then { s with status := .idle, phase := .none } else s

/-- The byte of a command whose bits the opcode table numbers as `w`. -/
def tableByte (w : Nat) : Byte :=
  BitVec.ofNat 8 w

/-- `s` with the host's next move being the CMD write of that byte (R52, R62). -/
def offerCommand (s : State) (v : Byte) : State :=
  { readyForCommand s with script := .tx (.writeCmd v) :: s.script }

end Sys2Proof.Machine
end

