-- ==== Sys2Proof/Machine/Step.lean ====
section
/-! DEFINITION. The step function, and how an instruction is put where the next step takes it. -/

namespace Sys2Proof.Machine

/-- One step: the host's next script line, or the sequencer's next step (Machine/Script.lean). -/
def step (s : State) : Host.Outcome State Fault Refusal :=
  advanceScript s

/-- `s` with the instruction of those bits where the next step takes its instruction: the block fetches
nothing (R52), so it is the host's next transaction, a write of the command byte to CMD (R62). -/
def State.withFetchWord (s : State) (_nbits w : Nat) : State :=
  offerCommand s (tableByte w)

end Sys2Proof.Machine
end

