-- ==== Sys2Proof/Machine/Stages.lean ====
section
/-! DEFINITION. The stage functions: the pure functions on images that the four commands compute (R92, R106, R118, R130), and the single-channel dither (R98). `none` means that an operand lacks one of its own pixels, which no valid image does. -/

namespace Sys2Proof.Machine

/-- The zero error latches (R32, R62). -/
def ErrLatch.zero : ErrLatch :=
  { r := 0, g := 0, b := 0 }

/-- dither(img) (R92): every visit in row-major order on one buffer that starts as a copy of the image. -/
def ditherImage (img : Image) : Option Image :=
  (scanAll img.w img.h visit (img, ErrLatch.zero)).map Prod.fst

/-- resize(img, tw, th) (R106). -/
def resizeImage (img : Image) (tw th : Nat) : Except ErrCode Image :=
  if img.area = 0 ∧ tw * th ≠ 0 then .error .invalidImage
  else .ok (Image.ofPixels tw th ((resampled img tw th).map fun p => { p with a := 255 }))

/-- pack(d, rc) (R118): INVALID_INPUT for images of different dimensions (R120), else every pixel muxed. -/
def packImages (d rc : Image) : Option (Except ErrCode Image) :=
  if d.w ≠ rc.w ∨ d.h ≠ rc.h then some (.error .invalidInput)
  else (scanAll d.w d.h (packPixel d rc) (Image.blank d.w d.h)).map .ok

/-- encode(secret, carrier) (R118). -/
def encodeImages (secret carrier : Image) : Option (Except ErrCode Image) :=
  if carrier.area = 0 ∧ secret.area ≠ 0 then some (.error .invalidImage)
  else
    match ditherImage secret with
    | none => none
    | some d =>
      match resizeImage carrier d.w d.h with
      | .error e => some (.error e)
      | .ok rc => packImages d rc

/-- decode(img) = unpack(img) (R130). -/
def decodeImage (img : Image) : Option Image :=
  scanAll img.w img.h (extractPixel img) (Image.blank img.w img.h)

/-- A single channel of an image as a table of bytes by (x, y), for the single-channel dither of R98. -/
abbrev Plane := Nat → Nat → Byte

/-- A plane with one value replaced. -/
def Plane.set (p : Plane) (x y : Nat) (v : Byte) : Plane :=
  fun x' y' => if x' = x ∧ y' = y then v else p x' y'

/-- The update of one neighbour in one lane (R85, R87). -/
def planeDiffuse (w h x y : Nat) (e : BitVec 9) (p : Plane) (n : Neighbour) : Plane :=
  match neighbourAt w h x y n with
  | some (nx, ny) => p.set nx ny (diffuse (p nx ny) n.weight e)
  | none => p

/-- One lane of the visit of pixel (x, y) (R98): threshold, then the four neighbours. -/
def planeVisit (w h x y : Nat) (p : Plane) : Plane :=
  neighbours.foldl (planeDiffuse w h x y (quantError (p x y) (threshold (p x y))))
    (p.set x y (threshold (p x y)))

/-- The single-channel dither of a plane (R98). -/
def ditherPlane (w h : Nat) (p : Plane) : Plane :=
  (Image.rowMajor w h).foldl (fun acc q => planeVisit w h q.1 q.2 acc) p

end Sys2Proof.Machine
end

