-- ==== Sys2Proof/Safety.lean ====
section
/-! DEFINITION. What the spec promises of images and of the running machine: the image predicates of R31, and the invariant that every step keeps, under which the machine never stops with a fault. -/

namespace Sys2Proof

namespace Image

/-- The store holds exactly the bytes of the first `n` pixels in row-major order. -/
def filledTo (img : Image) (n : Nat) : Prop :=
  img.px.map Prod.fst = List.range (4 * n)

/-- The store holds exactly the image's W·H pixels (R11, R15). -/
def full (img : Image) : Prop :=
  img.filledTo img.area

/-- Both dimensions are below 2^DIM_BITS (R11). -/
def fits (img : Image) : Prop :=
  Machine.fitsDim img.w ∧ Machine.fitsDim img.h

/-- The two images have the same dimensions. -/
def sameDims (img other : Image) : Prop :=
  img.w = other.w ∧ img.h = other.h

/-- Every pixel has A = 255 (R13). -/
def opaqueAlpha (img : Image) : Prop :=
  ∀ x y, img.inside x y → img.readChan x y .a = some 255

/-- Each colour channel of pixel (x, y) is 0 or 255 and its alpha is 255. -/
def ditheredAt (img : Image) (x y : Nat) : Prop :=
  (∀ c ∈ Machine.colours, img.readChan x y c = some 0 ∨ img.readChan x y c = some 255) ∧
    img.readChan x y .a = some 255

/-- `Dithered(img)` (R31). -/
def Dithered (img : Image) : Prop :=
  ∀ x y, img.inside x y → img.ditheredAt x y

/-- `Combined(img, d, rc)` (R31). -/
def Combined (img d rc : Image) : Prop :=
  img.sameDims d ∧ img.sameDims rc ∧ img.opaqueAlpha ∧
    ∀ x y, img.inside x y → ∀ c ∈ Machine.colours, ∃ v vd vrc : Byte,
      img.readChan x y c = some v ∧ d.readChan x y c = some vd ∧ rc.readChan x y c = some vrc ∧
        v.extractLsb' 4 4 = vrc.extractLsb' 4 4 ∧ v.extractLsb' 0 4 = vd.extractLsb' 4 4

/-- `Reconstructed(img)` (R31). -/
def Reconstructed (img : Image) : Prop :=
  img.opaqueAlpha ∧
    ∀ x y, img.inside x y → ∀ c ∈ Machine.colours,
      img.readChan x y c = some 0 ∨ img.readChan x y c = some 240

/-- Every pixel of the image is (r, g, b, a). -/
def Uniform (img : Image) (p : Pixel) : Prop :=
  ∀ x y, img.inside x y → ∀ c, img.readChan x y c = some (p.chan c)

end Image

namespace Machine

/-- The position of a scan of w × h (R24): inside the image, or at its end. -/
def scanAt (w h x y : Nat) : Prop :=
  (x < w ∧ y < h) ∨ (x = 0 ∧ (y = h ∨ w = 0 ∧ y = 0))

/-- The phases each command passes through (R23). -/
def phaseOf : Phase → Op → Bool
  | .none, _ => true
  | .dscan, .dither => true
  | .dscan, .encode => true
  | .rsz, .resize => true
  | .rsz, .encode => true
  | .mux, .encode => true
  | .ext, .decode => true
  | .fin, .dither => true
  | .fin, .resize => true
  | .fin, .encode => true
  | .fin, .decode => true
  | .dscan, .none => false
  | .dscan, .resize => false
  | .dscan, .decode => false
  | .rsz, .none => false
  | .rsz, .dither => false
  | .rsz, .decode => false
  | .mux, .none => false
  | .mux, .dither => false
  | .mux, .resize => false
  | .mux, .decode => false
  | .ext, .none => false
  | .ext, .dither => false
  | .ext, .resize => false
  | .ext, .encode => false
  | .fin, .none => false

/-- The resampler is never asked to make pixels out of none (R104, R121). -/
def canSample (src : Image) (tw th : Nat) : Prop :=
  src.area = 0 → tw * th = 0

/-- What the running command has done so far, by phase. -/
def workDone (s : State) : Prop :=
  match s.phase with
  | .none => s.x = 0 ∧ s.y = 0
  | .dscan =>
    s.ia.valid = true ∧ s.dw.valid = true ∧ s.dw.img.sameDims s.ia.img ∧
      scanAt s.dw.img.w s.dw.img.h s.x s.y ∧
      (∀ x y, s.dw.img.inside x y → y * s.dw.img.w + x < s.y * s.dw.img.w + s.x → s.dw.img.ditheredAt x y) ∧
      (s.op = .encode → s.ib.valid = true ∧ canSample s.ib.img s.dw.img.w s.dw.img.h)
  | .rsz =>
    s.x = 0 ∧ s.y = 0 ∧
      (s.op = .resize → s.ia.valid = true ∧ canSample s.ia.img s.tw s.th) ∧
      (s.op = .encode →
        s.ia.valid = true ∧ s.ib.valid = true ∧ s.dw.valid = true ∧ s.dw.img.sameDims s.ia.img ∧
          s.dw.img.Dithered ∧ canSample s.ib.img s.dw.img.w s.dw.img.h)
  | .mux =>
    s.dw.valid = true ∧ s.rc.valid = true ∧ s.dw.img.Dithered ∧ s.dw.img.sameDims s.ia.img ∧
      s.rc.img.sameDims s.dw.img ∧ s.io.img.sameDims s.dw.img ∧
      scanAt s.io.img.w s.io.img.h s.x s.y ∧ s.io.img.filledTo (s.y * s.io.img.w + s.x) ∧
      ∀ x y, s.io.img.inside x y → y * s.io.img.w + x < s.y * s.io.img.w + s.x → s.io.img.readChan x y .a = some 255
  | .ext =>
    s.ia.valid = true ∧ s.io.img.sameDims s.ia.img ∧
      scanAt s.io.img.w s.io.img.h s.x s.y ∧ s.io.img.filledTo (s.y * s.io.img.w + s.x) ∧
      ∀ x y, s.io.img.inside x y → y * s.io.img.w + x < s.y * s.io.img.w + s.x → s.io.img.readChan x y .a = some 255
  | .fin =>
    s.x = 0 ∧ s.y = 0 ∧
      (s.op = .dither → s.dw.valid = true ∧ s.dw.img.Dithered) ∧
      (s.op = .resize → s.rc.valid = true) ∧
      (s.op = .encode ∨ s.op = .decode → s.io.img.full ∧ s.io.img.fits ∧ s.io.img.opaqueAlpha)

/-- THE INVARIANT. It holds at reset and every step keeps it. -/
structure BlockInv (s : State) : Prop where
  /-- Every pixel store is in canonical form. -/
  stores : ∀ r, (s.reg r).img.px.wf
  /-- A valid image register holds exactly its W·H pixels, and its dimensions fit (R11, R15). -/
  images : ∀ r, (s.reg r).valid = true → (s.reg r).img.full ∧ (s.reg r).img.fits
  /-- TW and TH fit DIM_BITS (R27). -/
  target : fitsDim s.tw ∧ fitsDim s.th
  /-- IO.VALID = 1 if and only if STATUS = DONE (R19). -/
  ioValid : s.io.valid = true ↔ s.status = .done
  /-- ERR ≠ NONE if and only if STATUS = ERROR (R22). -/
  errCode : s.err ≠ .none ↔ s.status = .error
  /-- PHASE ≠ P_NONE if and only if STATUS = BUSY (R23). -/
  running : s.phase ≠ .none ↔ s.status = .busy
  /-- PHASE is one of the phases of OP (R23). -/
  order : phaseOf s.phase s.op = true
  /-- Every pixel of IO has A = 255 whenever IO.VALID = 1 (R13). -/
  alpha : s.io.valid = true → s.io.img.opaqueAlpha
  /-- What the running command has done so far. -/
  work : workDone s

/-- The transactions that are allowed at any time: the reads of STATUS, ERR, TW, TH and CMD (R8, R50),
by name or by number (R53). -/
def HostTx.alwaysAllowed : HostTx → Bool
  | .readStatus => true
  | .readErr => true
  | .readTw => true
  | .readTh => true
  | .readCmd => true
  | .readNum n _ _ => n < 5
  | .load _ _ _ _ => false
  | .invalidate _ => false
  | .put _ _ _ _ => false
  | .get _ _ _ => false
  | .dims _ => false
  | .writeTw _ => false
  | .writeTh _ => false
  | .writeCmd _ => false
  | .writeNum _ _ _ _ => false

/-- The image register a transaction is a write of, by name or by number (R8, R53). -/
def HostTx.writesImage : HostTx → Option ImgName
  | .load r _ _ _ => some r
  | .invalidate r => some r
  | .put r _ _ _ => some r
  | .writeNum n _ _ _ =>
    match HostReg.ofNumber n with
    | some (.valid r) => some r
    | some (.pix r) => some r
    | _ => none
  | .get _ _ _ => none
  | .dims _ => none
  | .writeTw _ => none
  | .writeTh _ => none
  | .writeCmd _ => none
  | .readStatus => none
  | .readErr => none
  | .readTw => none
  | .readTh => none
  | .readCmd => none
  | .readNum _ _ _ => none

/-- A transaction is a write of CMD, by name or by number (R53, R62). -/
def HostTx.writesCmd : HostTx → Bool
  | .writeCmd _ => true
  | .writeNum n _ _ _ => n == 0
  | .load _ _ _ _ => false
  | .invalidate _ => false
  | .put _ _ _ _ => false
  | .get _ _ _ => false
  | .dims _ => false
  | .writeTw _ => false
  | .writeTh _ => false
  | .readStatus => false
  | .readErr => false
  | .readTw => false
  | .readTh => false
  | .readCmd => false
  | .readNum _ _ _ => false

/-- Nothing differs between the two states but what the host was told (log entry 5). -/
def sameBlock (s u : State) : Prop :=
  u = { s with mark := u.mark, reply := u.reply }

/-- A safe step: it goes on, with no fault and no refusal. -/
def goesOn (s : State) : Prop :=
  ∃ t, step s = .next t

end Machine

end Sys2Proof
end

