-- ==== Sys2Proof/WellFormed.lean ====
section
/-! DEFINITION. Well-formed terms: commands (R60) and the lines of a host script (R64, R71). -/

namespace Sys2Proof

/-- Every command is well formed: format C has no register, immediate or mode field to check (R60). -/
def Instr.wf (_ : Instr) : Bool :=
  true

/-- A script line is well formed when the script layer lets it through (R71). `MOVE` loads IA or IB only (R72). -/
def Machine.ScriptLine.wf : Machine.ScriptLine → Bool
  | .tx t => t.argsOk
  | .wait => true
  | .seq => true
  | .reset => true
  | .move r _ => r.hostOwned

end Sys2Proof
end

