-- ==== Sys2Proof/Certificates/Slice0/Obligations.lean ====
section
/-! DEFINITION. What is stated of the model, for the provers. Each docstring names the rules of spec/ it rests on.
Throughout: `ImgReg.empty` is the model's record of a register with VALID = 0 (log entries 6 and 7); script, reply, mark
and freeCtr are the model's fields, and `script = []` says that no host move is pending (log entries 3, 4, 5); exec is
the acceptance step (log entry 15); X, Y, E and OP of a block that is not BUSY are unobservable (log entry 17). -/

open Sys2Proof Sys2Proof.Machine

/-! ## The command word -/

/-- R61, R65: the four opcodes, written out bit by bit, decode to their commands, and no other byte decodes. -/
def Obligations.OpcodeMap : Prop :=
  decode [0b00000001#8] = .ok (.dither, []) ∧
  decode [0b00000010#8] = .ok (.resize, []) ∧
  decode [0b00000011#8] = .ok (.encode, []) ∧
  decode [0b00000100#8] = .ok (.decode, []) ∧
  ∀ v : Byte, v ∉ [0x01#8, 0x02#8, 0x03#8, 0x04#8] → decode [v] = .error (.illegalCommand v)

/-- R60, R61: decode and encode agree in both directions, whatever bytes follow. -/
def Obligations.DecodeAndEncodeAgree : Prop :=
  (∀ (i : Instr) (rest : List Byte), i.wf = true → decode (encode i ++ rest) = .ok (i, rest)) ∧
  ∀ (bytes rest : List Byte) (i : Instr), decode bytes = .ok (i, rest) → bytes = encode i ++ rest

/-- R52, R62 (withFetchWord is the model's, log entry 4): a command's table word decodes to the command,
and with that word offered the very next step runs it, from every state (freeCtr counts the write, log entry 3). -/
def Obligations.OfferedCommandRunsNext : Prop :=
  ∀ (i : Instr) (s : State),
    decodeTableWord 8 (encodeByte i).toNat = some i ∧
    step (s.withFetchWord 8 (encodeByte i).toNat)
      = exec i { readyForCommand s with mark := .done, reply := .none, freeCtr := s.freeCtr + 1 }

/-- R8, R52, R62: the step is the host's next transaction, for every transaction with well-formed arguments, on
the state with the move taken off the script and, unless it is a read, counted in freeCtr. When it writes a byte to CMD that decodes to a well-formed
command, that is the command's exec; a byte that does not decode is the illegal command's acceptance. What
the step adds (script, mark, reply, freeCtr) is the model's host interface (log entries 3, 4 and 5). -/
def Obligations.StepRunsDecodedCommand : Prop :=
  (∀ (s : State) (tx : HostTx) (rest : List ScriptLine), s.script = .tx tx :: rest → tx.argsOk = true →
    step s = hostTx tx { s with script := rest, freeCtr := if tx.isRead then s.freeCtr else s.freeCtr + 1 }) ∧
  ∀ (s : State) (v : Byte) (rest : List ScriptLine), s.script = .tx (.writeCmd v) :: rest →
    (∀ i : Instr, i.wf = true → decode [v] = .ok (i, []) →
      step s = exec i { s with script := rest, mark := .done, reply := .none, freeCtr := s.freeCtr + 1 }) ∧
    (∀ e, decode [v] = .error e →
      step s = illegalCommand { s with script := rest, mark := .done, reply := .none, freeCtr := s.freeCtr + 1 })

/-- R20, R62, R149: a write to CMD, by name or by number, is the only step that turns a block that is not BUSY
into one that is; and a block that is not BUSY keeps all state while the host makes no move. -/
def Obligations.OnlyCmdWriteStartsCommand : Prop :=
  (∀ s t : State, s.status ≠ .busy → step s = .next t → t.status = .busy →
    ∃ tx rest, s.script = .tx tx :: rest ∧ tx.writesCmd = true) ∧
  ∀ s : State, s.script = [] → s.status ≠ .busy → step s = .next s

/-! ## Acceptance of a command -/

/-- R62, R81, R136: DITHER accepted or refused for want of an image. -/
def Obligations.DitherAcceptance : Prop :=
  ∀ s : State, s.status ≠ .busy →
    (s.ia.valid = true →
      exec .dither s = .next { s with
        dw := s.ia, rc := ImgReg.empty, io := ImgReg.empty, status := .busy, err := .none,
        phase := .dscan, x := 0, y := 0, op := .dither, e := ErrLatch.zero }) ∧
    (s.ia.valid = false →
      exec .dither s = .next { s with
        dw := ImgReg.empty, rc := ImgReg.empty, io := ImgReg.empty, status := .error, err := .invalidImage,
        phase := .none, x := 0, y := 0, op := .dither, e := ErrLatch.zero })

/-- R62, R102, R104, R136: RESIZE accepted, or refused for want of an image or of source pixels. -/
def Obligations.ResizeAcceptance : Prop :=
  ∀ s : State, s.status ≠ .busy →
    (s.ia.valid = true ∧ (s.ia.img.area = 0 → s.tw * s.th = 0) →
      exec .resize s = .next { s with
        dw := ImgReg.empty, rc := ImgReg.empty, io := ImgReg.empty, status := .busy, err := .none,
        phase := .rsz, x := 0, y := 0, op := .resize, e := ErrLatch.zero }) ∧
    (s.ia.valid = false ∨ (s.ia.img.area = 0 ∧ s.tw * s.th ≠ 0) →
      exec .resize s = .next { s with
        dw := ImgReg.empty, rc := ImgReg.empty, io := ImgReg.empty, status := .error, err := .invalidImage,
        phase := .none, x := 0, y := 0, op := .resize, e := ErrLatch.zero })

/-- R62, R111, R121, R136: ENCODE accepted, or refused for want of a secret, a carrier or carrier pixels. -/
def Obligations.EncodeAcceptance : Prop :=
  ∀ s : State, s.status ≠ .busy →
    (s.ia.valid = true ∧ s.ib.valid = true ∧ (s.ib.img.area = 0 → s.ia.img.area = 0) →
      exec .encode s = .next { s with
        dw := s.ia, rc := ImgReg.empty, io := ImgReg.empty, status := .busy, err := .none,
        phase := .dscan, x := 0, y := 0, op := .encode, e := ErrLatch.zero }) ∧
    (s.ia.valid = false ∨ s.ib.valid = false ∨ (s.ib.img.area = 0 ∧ s.ia.img.area ≠ 0) →
      exec .encode s = .next { s with
        dw := ImgReg.empty, rc := ImgReg.empty, io := ImgReg.empty, status := .error, err := .invalidImage,
        phase := .none, x := 0, y := 0, op := .encode, e := ErrLatch.zero })

/-- R62, R126, R136: DECODE accepted (IO takes IA's dimensions, holds no pixel and stays invalid) or refused. -/
def Obligations.DecodeAcceptance : Prop :=
  ∀ s : State, s.status ≠ .busy →
    (s.ia.valid = true →
      exec .decode s = .next { s with
        dw := ImgReg.empty, rc := ImgReg.empty,
        io := { valid := false, img := { w := s.ia.img.w, h := s.ia.img.h, px := [] } },
        status := .busy, err := .none, phase := .ext, x := 0, y := 0, op := .decode, e := ErrLatch.zero }) ∧
    (s.ia.valid = false →
      exec .decode s = .next { s with
        dw := ImgReg.empty, rc := ImgReg.empty, io := ImgReg.empty, status := .error, err := .invalidImage,
        phase := .none, x := 0, y := 0, op := .decode, e := ErrLatch.zero })

/-- R65, R139, R142: a CMD write of any byte that is no opcode, while not BUSY, raises ILLEGAL_COMMAND,
whatever the operands hold; OP is NONE and IA, IB, TW, TH are kept. -/
def Obligations.IllegalCommandRaises : Prop :=
  ∀ (s : State) (v : Byte), s.status ≠ .busy → v ∉ [0x01#8, 0x02#8, 0x03#8, 0x04#8] →
    hostTx (.writeCmd v) s = .next { s with
      dw := ImgReg.empty, rc := ImgReg.empty, io := ImgReg.empty, status := .error, err := .illegalCommand,
      phase := .none, x := 0, y := 0, op := .none, e := ErrLatch.zero, mark := .done, reply := .none }

/-- R50: a CMD write while BUSY is ignored, whatever the byte. -/
def Obligations.CmdWriteIgnoredWhileBusy : Prop :=
  ∀ s : State, s.status = .busy →
    (∀ i : Instr, exec i s = .next { s with mark := .ignored, reply := .none }) ∧
    ∀ v : Byte, hostTx (.writeCmd v) s = .next { s with mark := .ignored, reply := .none }

/-- FRAME of the four commands' acceptance (R16, R62, R141): the operand registers with every byte of their
stores, TW, TH and the host's side are kept. Of the block's own stores, RC is empty afterwards; DW holds
at every address what IA holds there when DITHER or ENCODE started, and is empty otherwise; IO holds no
byte at all. ERR is NONE when the command started. -/
def Obligations.AcceptanceFrame : Prop :=
  ∀ (i : Instr) (s t : State), s.status ≠ .busy → exec i s = .next t →
    t.ia = s.ia ∧ t.ib = s.ib ∧ t.tw = s.tw ∧ t.th = s.th ∧
    t.script = s.script ∧ t.reply = s.reply ∧ t.mark = s.mark ∧ t.freeCtr = s.freeCtr ∧
    t.op = Op.ofInstr i ∧ t.x = 0 ∧ t.y = 0 ∧ t.e = ErrLatch.zero ∧
    (∀ a, t.ia.img.px.read a = s.ia.img.px.read a) ∧ (∀ a, t.ib.img.px.read a = s.ib.img.px.read a) ∧
    (∀ a, t.rc.img.px.read a = none) ∧ (∀ a, t.io.img.px.read a = none) ∧
    (∀ a, t.dw.img.px.read a
      = if t.status = .busy ∧ (i = .dither ∨ i = .encode) then s.ia.img.px.read a else none) ∧
    (t.status = .busy → t.err = .none)

/-- R29, R30, R170: what a command does depends on IA, IB, TW and TH and on nothing else the block holds;
from two states that agree on those (and on the host's side) its acceptance answers the same state. -/
def Obligations.CommandReadsOnlyItsOperands : Prop :=
  ∀ (i : Instr) (s s' : State), s.status ≠ .busy → s'.status ≠ .busy →
    s.ia = s'.ia → s.ib = s'.ib → s.tw = s'.tw → s.th = s'.th →
    s.script = s'.script → s.reply = s'.reply → s.mark = s'.mark → s.freeCtr = s'.freeCtr →
    exec i s = exec i s'

/-- R141: error entry, field by field. -/
def Obligations.ErrorEntry : Prop :=
  ∀ (s : State) (code : ErrCode),
    s.raise code = { s with
      dw := ImgReg.empty, rc := ImgReg.empty, io := ImgReg.empty, err := code,
      phase := .none, x := 0, y := 0, status := .error }

/-! ## Channel arithmetic -/

/-- R82, R84: threshold and quantisation error of every current value. -/
def Obligations.ThresholdAndError : Prop :=
  ∀ cur : Byte,
    (cur.toNat ≤ 127 → threshold cur = 0) ∧ (128 ≤ cur.toNat → threshold cur = 255) ∧
    (quantError cur (threshold cur)).toInt = (cur.toNat : Int) - ((threshold cur).toNat : Int) ∧
    -127 ≤ (quantError cur (threshold cur)).toInt ∧ (quantError cur (threshold cur)).toInt ≤ 127 ∧
    ((quantError cur (threshold cur)).toInt = 0 ↔ cur = 0 ∨ cur = 255)

/-- R87: the integer form gives what the exact rational form gives, for every v, w and E.c; and for the
table's weights and the errors that occur the sum lies in −889 … 4969. -/
def Obligations.IntegerUpdateIsExact : Prop :=
  ∀ (v : Byte) (w : Nat) (e : BitVec 9),
    (diffuseSum v w e < 0 → diffuse v w e = 0) ∧
    (4080 ≤ diffuseSum v w e → diffuse v w e = 255) ∧
    (0 ≤ diffuseSum v w e → diffuseSum v w e < 4080 →
      ((diffuse v w e).toNat : Int) = diffuseSum v w e / 16) ∧
    ((diffuse v w e).toNat : Int) = diffuseExact v w e ∧
    (w ≤ 7 → -127 ≤ e.toInt → e.toInt ≤ 127 → -889 ≤ diffuseSum v w e ∧ diffuseSum v w e ≤ 4969)

/-- R114: MUXNIB by bits, by number and on dithered channels. -/
def Obligations.MuxNibble : Prop :=
  ∀ rc d : Byte,
    muxNib rc d = (rc &&& 0xF0#8) ||| ((d &&& 0xF0#8) >>> 4) ∧
    (muxNib rc d).extractLsb' 4 4 = rc.extractLsb' 4 4 ∧
    (muxNib rc d).extractLsb' 0 4 = d.extractLsb' 4 4 ∧
    (muxNib rc d).toNat = 16 * (rc.toNat / 16) + d.toNat / 16 ∧
    muxNib rc 0 = rc &&& 0xF0#8 ∧ muxNib rc 255 = (rc &&& 0xF0#8) ||| 0x0F#8

/-- R127: EXTNIB by bits, by number and on the two nibbles an encoder writes. -/
def Obligations.ExtractNibble : Prop :=
  ∀ v : Byte,
    extNib v = (v &&& 0x0F#8) <<< 4 ∧
    (extNib v).extractLsb' 4 4 = v.extractLsb' 0 4 ∧
    (extNib v).extractLsb' 0 4 = 0 ∧
    (extNib v).toNat = 16 * (v.toNat % 16) ∧
    (v.extractLsb' 0 4 = 0x0#4 → extNib v = 0) ∧ (v.extractLsb' 0 4 = 0xF#4 → extNib v = 240)

/-! ## One pixel -/

/-- R69, R85: the four neighbours of a pixel, with the edges, and their weights. -/
def Obligations.NeighbourTable : Prop :=
  neighbours.map (fun n => (n.dx, n.dy, n.weight)) = [(1, 0, 7), (-1, 1, 3), (0, 1, 5), (1, 1, 1)] ∧
  ∀ w h x y : Nat, x < w → y < h →
    neighbours.map (neighbourAt w h x y) =
      [ if x + 1 < w then some (x + 1, y) else none,
        if 0 < x ∧ y + 1 < h then some (x - 1, y + 1) else none,
        if y + 1 < h then some (x, y + 1) else none,
        if x + 1 < w ∧ y + 1 < h then some (x + 1, y + 1) else none ]

/-- R82 to R88, R90: what a visit does, and its frame. On a full image and a pixel inside it the visit
completes; each colour channel of the pixel is thresholded from its current value, E holds the errors,
alpha is 255; each inside neighbour's colour channels are updated with their own channel's error; every
other channel of every pixel, the neighbours' alphas among them, is as before. -/
def Obligations.VisitPixel : Prop :=
  ∀ (img : Image) (e : ErrLatch) (x y : Nat), img.full → img.inside x y →
    ∃ img' e', visit x y (img, e) = some (img', e') ∧ img'.full ∧ img'.sameDims img ∧
      (∀ c ∈ colours, ∃ cur, img.readChan x y c = some cur ∧ img'.readChan x y c = some (threshold cur) ∧
        e'.get c = some (quantError cur (threshold cur))) ∧
      img'.readChan x y .a = some 255 ∧
      (∀ n ∈ neighbours, ∀ nx ny, neighbourAt img.w img.h x y n = some (nx, ny) → ∀ c ∈ colours,
        ∃ v ec, img.readChan nx ny c = some v ∧ e'.get c = some ec ∧
          img'.readChan nx ny c = some (diffuse v n.weight ec)) ∧
      ∀ x' y' c, (x', y') ≠ (x, y) →
        (c = .a ∨ ∀ n ∈ neighbours, neighbourAt img.w img.h x y n ≠ some (x', y')) →
        img'.readChan x' y' c = img.readChan x' y' c

/-- R93: inside one visit the order of the neighbours does not matter. -/
def Obligations.NeighbourOrderIrrelevant : Prop :=
  ∀ (img : Image) (e : ErrLatch) (x y : Nat) (ns : List Neighbour), img.full → img.inside x y →
    ns.Perm neighbours →
    ns.foldlM (diffuseNeighbour x y e) img = neighbours.foldlM (diffuseNeighbour x y e) img

/-! ## The sequencer -/

/-- R89, with R24's advance: one step of phase P_DSCAN, when no host move is pending. -/
def Obligations.DitherScanStep : Prop :=
  ∀ s : State, s.script = [] → s.status = .busy → s.phase = .dscan →
    (s.dw.img.w = 0 ∨ s.y = s.dw.img.h →
      (s.op = .dither → step s = .next { s with phase := .fin, x := 0, y := 0 }) ∧
      (s.op = .encode → step s = .next { s with phase := .rsz, x := 0, y := 0 })) ∧
    (¬ (s.dw.img.w = 0 ∨ s.y = s.dw.img.h) → ∀ img e, visit s.x s.y (s.dw.img, s.e) = some (img, e) →
      step s = .next { s with
        dw := { s.dw with img := img }, e := e,
        x := if s.x + 1 = s.dw.img.w then 0 else s.x + 1,
        y := if s.x + 1 = s.dw.img.w then s.y + 1 else s.y })

/-- R103, R113: the resampler step of RESIZE and of ENCODE, when no host move is pending. RC takes the
target's dimensions and the resampler's pixels, none for an empty target; ENCODE goes on to P_MUX with
IO of DW's dimensions and still invalid. -/
def Obligations.ResamplerStep : Prop :=
  (∀ (src : Image) (tw th : Nat), (tw * th = 0 → resampledImage src tw th = { w := tw, h := th, px := [] }) ∧
    (tw * th ≠ 0 → resampledImage src tw th = Image.ofPixels tw th (Config.resample src tw th).toList)) ∧
  ∀ s : State, s.script = [] → s.status = .busy → s.phase = .rsz →
    (s.op = .resize →
      step s = .next { s with
        rc := { valid := true, img := resampledImage s.ia.img s.tw s.th }, phase := .fin, x := 0, y := 0 }) ∧
    (s.op = .encode →
      step s = .next { s with
        rc := { valid := true, img := resampledImage s.ib.img s.dw.img.w s.dw.img.h },
        io := { valid := false, img := { w := s.dw.img.w, h := s.dw.img.h, px := [] } },
        phase := .mux, x := 0, y := 0 })

/-- R24, R115, R128: one step of phase P_MUX and of phase P_EXT, when no host move is pending. With the scan done it
leads to P_FIN at (0, 0). Otherwise, on full operands, pixel (X, Y) of IO, which holds the pixels before it, gets
its three channels and alpha 255, and no other byte of IO changes. -/
def Obligations.PackAndExtractStep : Prop :=
  (∀ s : State, s.script = [] → s.status = .busy → s.io.img.w = 0 ∨ s.y = s.io.img.h →
    s.phase = .mux ∨ s.phase = .ext → step s = .next { s with phase := .fin, x := 0, y := 0 }) ∧
  ∀ s : State, s.script = [] → s.status = .busy →
    s.io.img.filledTo (s.y * s.io.img.w + s.x) → s.x < s.io.img.w → s.y < s.io.img.h →
    (s.phase = .mux → s.dw.img.full → s.rc.img.full → s.io.img.sameDims s.dw.img → s.io.img.sameDims s.rc.img →
      ∃ img, step s = .next { s with
          io := { s.io with img := img },
          x := if s.x + 1 = s.io.img.w then 0 else s.x + 1,
          y := if s.x + 1 = s.io.img.w then s.y + 1 else s.y } ∧
        img.sameDims s.io.img ∧ img.filledTo (s.y * s.io.img.w + s.x + 1) ∧
        img.readChan s.x s.y .a = some 255 ∧
        (∀ c ∈ colours, ∃ vr vd, s.rc.img.readChan s.x s.y c = some vr ∧ s.dw.img.readChan s.x s.y c = some vd ∧
          img.readChan s.x s.y c = some (muxNib vr vd)) ∧
        ∀ x y c, (x, y) ≠ (s.x, s.y) → img.readChan x y c = s.io.img.readChan x y c) ∧
    (s.phase = .ext → s.ia.img.full → s.io.img.sameDims s.ia.img →
      ∃ img, step s = .next { s with
          io := { s.io with img := img },
          x := if s.x + 1 = s.io.img.w then 0 else s.x + 1,
          y := if s.x + 1 = s.io.img.w then s.y + 1 else s.y } ∧
        img.sameDims s.io.img ∧ img.filledTo (s.y * s.io.img.w + s.x + 1) ∧
        img.readChan s.x s.y .a = some 255 ∧
        (∀ c ∈ colours, ∃ v, s.ia.img.readChan s.x s.y c = some v ∧
          img.readChan s.x s.y c = some (extNib v)) ∧
        ∀ x y c, (x, y) ≠ (s.x, s.y) → img.readChan x y c = s.io.img.readChan x y c)

/-- R91, R105, R117, R129: the finish steps of the four commands, when no host move is pending. RESIZE publishes RC
with every alpha 255, and RC keeps its own. -/
def Obligations.FinishStep : Prop :=
  ∀ s : State, s.script = [] → s.status = .busy → s.phase = .fin →
    (s.op = .dither →
      step s = .next { s with io := { valid := true, img := s.dw.img }, phase := .none, x := 0, y := 0, status := .done }) ∧
    (s.op = .encode →
      step s = .next { s with io := { valid := true, img := s.io.img }, phase := .none, x := 0, y := 0, status := .done }) ∧
    (s.op = .decode →
      step s = .next { s with io := { valid := true, img := s.io.img }, phase := .none, x := 0, y := 0, status := .done }) ∧
    (s.op = .resize →
      ∃ img, step s = .next { s with
          io := { valid := true, img := img }, phase := .none, x := 0, y := 0, status := .done } ∧
        img.sameDims s.rc.img ∧
        (∀ x y, ∀ c ∈ colours, img.readChan x y c = s.rc.img.readChan x y c) ∧
        ∀ x y, img.readChan x y .a = (s.rc.img.readChan x y .a).map fun _ => 255)

/-- R120, R138: no step raises INVALID_INPUT, because RC is always built with DW's dimensions. -/
def Obligations.InvalidInputNeverRaised : Prop :=
  ∀ s t : State, step s = .next t → s.err ≠ .invalidInput → t.err ≠ .invalidInput

/-- R21: the moves of STATUS with their causes; no others. To BUSY or to ERROR from a block that is not BUSY only
a CMD write leads, by name or by number; from BUSY to DONE the step of P_FIN; from BUSY to ERROR only
INVALID_INPUT in the resampler step of ENCODE (which InvalidInputNeverRaised shows is never raised); to
IDLE only reset. -/
def Obligations.StatusMoves : Prop :=
  ∀ s t : State, step s = .next t →
    t.status = s.status ∨
    (s.status ≠ .busy ∧ (t.status = .busy ∨ t.status = .error) ∧
      ∃ tx rest, s.script = .tx tx :: rest ∧ tx.writesCmd = true) ∨
    (s.status = .busy ∧ t.status = .done ∧ s.phase = .fin ∧ t.phase = .none ∧ t.io.valid = true) ∨
    (s.status = .busy ∧ t.status = .error ∧ s.phase = .rsz ∧ s.op = .encode ∧ t.err = .invalidInput) ∨
    (t.status = .idle ∧ ∃ rest, s.script = .reset :: rest)

/-- R16: a step that changes IA or IB is a host write of that very register taken while not BUSY, or reset. -/
def Obligations.OperandsAreTheHosts : Prop :=
  ∀ s t : State, step s = .next t →
    (∀ r, r.hostOwned = true → t.reg r ≠ s.reg r →
      (∃ rest, s.script = .reset :: rest) ∨
      (s.status ≠ .busy ∧ ∃ tx rest, s.script = .tx tx :: rest ∧ tx.writesImage = some r))

/-! ## Whole commands -/

/-- R81, R91, R92, R144: DITHER COMPLETES. With an image in IA and no host move pending, the accepted DITHER ends
DONE after area(IA) + 2 sequencer steps with IO = DW = dither(IA), RC invalid, ERR NONE, and IA, IB, TW, TH
and the host's side as they were. -/
def Obligations.DitherCompletes : Prop :=
  ∀ s : State, s.status ≠ .busy → s.script = [] → s.ia.valid = true → s.ia.img.full →
    ∃ t out e', exec .dither s = .next t ∧ ditherImage s.ia.img = some out ∧
      core.run (s.ia.img.area + 2) t = .next { s with
        dw := { valid := true, img := out }, rc := ImgReg.empty, io := { valid := true, img := out },
        status := .done, err := .none, phase := .none, x := 0, y := 0, op := .dither, e := e' }

/-- R102, R103, R105, R106, R144: RESIZE COMPLETES in 2 sequencer steps with IO = resize(IA, TW, TH), of exactly TW × TH
pixels, RC the raw resampler result and DW invalid, whatever image IA holds that is not empty when the
target is not. -/
def Obligations.ResizeCompletes : Prop :=
  ∀ s : State, s.status ≠ .busy → s.script = [] → s.ia.valid = true →
    (s.ia.img.area = 0 → s.tw * s.th = 0) →
    ∃ t out, exec .resize s = .next t ∧ resizeImage s.ia.img s.tw s.th = .ok out ∧
      out.w = s.tw ∧ out.h = s.th ∧ out.full ∧ out.opaqueAlpha ∧
      core.run 2 t = .next { s with
        dw := ImgReg.empty,
        rc := { valid := true, img := resampledImage s.ia.img s.tw s.th },
        io := { valid := true, img := out },
        status := .done, err := .none, phase := .none, x := 0, y := 0, op := .resize, e := ErrLatch.zero }

/-- R111, R117, R118, R144: ENCODE COMPLETES in 2·area(IA) + 4 sequencer steps with IO = encode(IA, IB), DW = dither(IA) and RC
the raw resampled carrier of IA's dimensions. -/
def Obligations.EncodeCompletes : Prop :=
  ∀ s : State, s.status ≠ .busy → s.script = [] → s.ia.valid = true → s.ib.valid = true → s.ia.img.full →
    (s.ib.img.area = 0 → s.ia.img.area = 0) →
    ∃ t d out e', exec .encode s = .next t ∧ ditherImage s.ia.img = some d ∧
      encodeImages s.ia.img s.ib.img = some (.ok out) ∧
      core.run (2 * s.ia.img.area + 4) t = .next { s with
        dw := { valid := true, img := d },
        rc := { valid := true, img := resampledImage s.ib.img s.ia.img.w s.ia.img.h },
        io := { valid := true, img := out },
        status := .done, err := .none, phase := .none, x := 0, y := 0, op := .encode, e := e' }

/-- R126, R129, R130, R144: DECODE COMPLETES in area(IA) + 2 sequencer steps with IO = decode(IA), DW and RC invalid, for
every image, an ENCODE output or not. -/
def Obligations.DecodeCompletes : Prop :=
  ∀ s : State, s.status ≠ .busy → s.script = [] → s.ia.valid = true → s.ia.img.full →
    ∃ t out, exec .decode s = .next t ∧ decodeImage s.ia.img = some out ∧
      core.run (s.ia.img.area + 2) t = .next { s with
        dw := ImgReg.empty, rc := ImgReg.empty, io := { valid := true, img := out },
        status := .done, err := .none, phase := .none, x := 0, y := 0, op := .decode, e := ErrLatch.zero }

/-- R144, R172: a running command always ends DONE, never with an error, within 2·area(IA) + 4 steps of the
sequencer, when no host move is pending (that the sequencer then steps at once is log entry 16). -/
def Obligations.RunningCommandEnds : Prop :=
  ∀ s : State, BlockInv s → s.status = .busy → s.script = [] →
    ∃ k t, k ≤ 2 * s.ia.img.area + 4 ∧ core.run k s = .next t ∧ t.status = .done ∧ t.err = .none ∧
      t.ia = s.ia ∧ t.ib = s.ib ∧ t.tw = s.tw ∧ t.th = s.th

/-- R71, R72: the script `RUN c` always ends, with the command DONE or in ERROR and its STATUS the last
value the host has read. How the host and the sequencer take turns is the model's: the script's order (log
entry 4), and a WAIT that pairs one read of STATUS with one sequencer step (log entry 11). -/
def Obligations.RunScriptEnds : Prop :=
  ∀ (i : Instr) (s : State), BlockInv s → s.status ≠ .busy → s.script = scriptRun i →
    ∃ k t, core.run k s = .next t ∧ t.script = [] ∧ (t.status = .done ∨ t.status = .error) ∧
      t.op = Op.ofInstr i ∧ t.reply = .word t.status.code.toNat

/-! ## The stage functions -/

/-- R92, R95: dither is total on full images, keeps the dimensions, and its result is Dithered. -/
def Obligations.DitherResultIsDithered : Prop :=
  ∀ img : Image, img.full →
    ∃ out, ditherImage img = some out ∧ out.full ∧ out.sameDims img ∧ out.Dithered

/-- R94: the no-op threshold law. 0 and 255 threshold to themselves with no error, no error changes no
neighbour, an image of 0s and 255s dithers to itself with alpha 255, and dither is idempotent. -/
def Obligations.DitherIsIdempotent : Prop :=
  (∀ cur : Byte, cur = 0 ∨ cur = 255 → threshold cur = cur ∧ quantError cur (threshold cur) = 0) ∧
  (∀ (v : Byte) (w : Nat), diffuseSum v w 0 = 16 * (v.toNat : Int) ∧ diffuse v w 0 = v) ∧
  (∀ img : Image, img.full →
    (∀ x y, img.inside x y → ∀ c ∈ colours, img.readChan x y c = some 0 ∨ img.readChan x y c = some 255) →
    ∃ out, ditherImage img = some out ∧ out.sameDims img ∧ out.opaqueAlpha ∧
      ∀ x y, img.inside x y → ∀ c ∈ colours, out.readChan x y c = img.readChan x y c) ∧
  ∀ img out : Image, img.full → ditherImage img = some out → ditherImage out = some out

/-- R98: each colour plane of dither(img) is the single-channel dither of that plane of img. -/
def Obligations.DitherIsThreeLanes : Prop :=
  ∀ (img out : Image) (c : Chan) (p : Plane), img.full → ditherImage img = some out → c ∈ colours →
    (∀ x y, img.inside x y → img.readChan x y c = some (p x y)) →
    ∀ x y, img.inside x y → out.readChan x y c = some (ditherPlane img.w img.h p x y)

/-- R106, R107: resize raises exactly for an empty source and a non-empty target; else its result is full, of
exactly the target's dimensions, with alpha 255, whatever the resampler answers. -/
def Obligations.ResizeContract : Prop :=
  ∀ (img : Image) (tw th : Nat),
    (img.area = 0 ∧ tw * th ≠ 0 → resizeImage img tw th = .error .invalidImage) ∧
    (¬ (img.area = 0 ∧ tw * th ≠ 0) →
      ∃ out, resizeImage img tw th = .ok out ∧ out.w = tw ∧ out.h = th ∧ out.full ∧ out.opaqueAlpha)

/-- R118, R120: pack of two full images of the same dimensions is Combined; of different dimensions it raises
INVALID_INPUT. -/
def Obligations.PackIsCombined : Prop :=
  ∀ d rc : Image,
    (d.w ≠ rc.w ∨ d.h ≠ rc.h → packImages d rc = some (.error .invalidInput)) ∧
    (d.full → rc.full → d.sameDims rc →
      ∃ out, packImages d rc = some (.ok out) ∧ out.full ∧ out.Combined d rc)

/-- R119: the properties of encode for every secret and carrier for which it does not raise, whatever the
resampler answers: the secret's dimensions, the resized carrier's high nibbles, a low nibble of 0x0 where
the dithered secret has 0 and 0xF where it has 255, alpha 255. -/
def Obligations.EncodeKeepsNibbles : Prop :=
  ∀ secret carrier : Image, secret.full → (carrier.area = 0 → secret.area = 0) →
    ∃ d out, ditherImage secret = some d ∧ encodeImages secret carrier = some (.ok out) ∧
      out.full ∧ out.sameDims secret ∧ out.opaqueAlpha ∧
      ∀ x y, out.inside x y → ∀ c ∈ colours, ∃ v vr vd,
        out.readChan x y c = some v ∧ d.readChan x y c = some vd ∧
        (resampledImage carrier secret.w secret.h).readChan x y c = some vr ∧
        v &&& 0xF0#8 = vr &&& 0xF0#8 ∧
        (vd = 0 ∧ v &&& 0x0F#8 = 0x00#8 ∨ vd = 255 ∧ v &&& 0x0F#8 = 0x0F#8)

/-- R130: THE ROUND TRIP. decode(encode(S, C)) gives back the dithered pattern of S, 255 as 240 and 0 as 0,
whatever the carrier and the resampler. -/
def Obligations.RoundTrip : Prop :=
  ∀ secret carrier : Image, secret.full → (carrier.area = 0 → secret.area = 0) →
    ∃ d out rec, ditherImage secret = some d ∧ encodeImages secret carrier = some (.ok out) ∧
      decodeImage out = some rec ∧ rec.full ∧ rec.sameDims secret ∧ rec.Reconstructed ∧
      ∀ x y, rec.inside x y → ∀ c ∈ colours, ∃ vd,
        d.readChan x y c = some vd ∧ rec.readChan x y c = some (vd &&& 0xF0#8) ∧
        (vd = 0 ∧ rec.readChan x y c = some 0 ∨ vd = 255 ∧ rec.readChan x y c = some 240)

/-- R130: the result of decode(encode(S, C)) does not depend on the carrier. -/
def Obligations.CarrierLeavesNoTrace : Prop :=
  ∀ secret c1 c2 out1 out2 : Image, secret.full →
    encodeImages secret c1 = some (.ok out1) → encodeImages secret c2 = some (.ok out2) →
    decodeImage out1 = decodeImage out2

/-- R130 with R94 (the source's two uniform round trips): a uniform white secret comes back as uniform
(240, 240, 240, 255), a uniform black one as uniform (0, 0, 0, 255), for every size and carrier. -/
def Obligations.UniformRoundTrips : Prop :=
  ∀ secret carrier : Image, secret.full → (carrier.area = 0 → secret.area = 0) →
    ∃ out rec, encodeImages secret carrier = some (.ok out) ∧ decodeImage out = some rec ∧
      (secret.Uniform ⟨255, 255, 255, 255⟩ → rec.Uniform ⟨240, 240, 240, 255⟩) ∧
      (secret.Uniform ⟨0, 0, 0, 255⟩ → rec.Uniform ⟨0, 0, 0, 255⟩)

/-- R125, R130, R131: decode of any full image: every colour channel is 16·(v mod 16), alpha is 255, and
decoding twice gives black. -/
def Obligations.DecodeOfAnyImage : Prop :=
  ∀ img : Image, img.full →
    ∃ out, decodeImage img = some out ∧ out.full ∧ out.sameDims img ∧ out.opaqueAlpha ∧
      (∀ x y, img.inside x y → ∀ c ∈ colours, ∃ v v', img.readChan x y c = some v ∧
        out.readChan x y c = some v' ∧ v'.toNat = 16 * (v.toNat % 16)) ∧
      ∃ out2, decodeImage out = some out2 ∧ out2.sameDims img ∧ out2.Uniform ⟨0, 0, 0, 255⟩

/-- R97, R104, R121, R131, R137: zero-area images. Dither and decode give them back, an empty target gives the
empty image whatever the source, and an empty secret gives the empty image whatever the carrier. -/
def Obligations.ZeroAreaImages : Prop :=
  (∀ img : Image, img.full → img.area = 0 → ditherImage img = some img ∧ decodeImage img = some img) ∧
  (∀ (img : Image) (tw th : Nat), tw * th = 0 → resizeImage img tw th = .ok { w := tw, h := th, px := [] }) ∧
  ∀ secret carrier : Image, secret.full → secret.area = 0 →
    encodeImages secret carrier = some (.ok { w := secret.w, h := secret.h, px := [] })

/-! ## The invariant -/

/-- R32: the reset state meets the invariant. -/
def Obligations.ResetMeetsInvariant : Prop :=
  BlockInv State.reset

/-- R11, R13, R15, R19, R21 to R24, R27: EVERY STEP KEEPS THE INVARIANT, the host's moves, the sequencer's and reset alike. -/
def Obligations.StepKeepsInvariant : Prop :=
  ∀ s t : State, BlockInv s → step s = .next t → BlockInv t

/-- R15, R44, R144: under the invariant no step stops: no pixel outside an image is ever addressed, no phase is
without its step (the faults are the model's, log entry 12), nothing is refused. -/
def Obligations.InvariantStepGoesOn : Prop :=
  ∀ s : State, BlockInv s → ∃ t, step s = .next t ∧ BlockInv t

/-! ## Reset, host transactions and scripts -/

/-- R32, R160, R161: reset from any state, BUSY included; and a command right after reset, before any load, is
an INVALID_IMAGE error. That reset is a line of the script, keeps the script and counts in freeCtr is the model's
(log entries 3, 4 and 14). -/
def Obligations.ResetAndAfter : Prop :=
  (∀ (s : State) (rest : List ScriptLine), s.script = .reset :: rest →
    step s = .next { State.reset with script := rest, freeCtr := s.freeCtr + 1 }) ∧
  (∀ r, (State.reset.reg r).valid = false) ∧
  State.reset.status = .idle ∧ State.reset.err = .none ∧ State.reset.phase = .none ∧ State.reset.op = .none ∧
  State.reset.x = 0 ∧ State.reset.y = 0 ∧ State.reset.e = { r := 0, g := 0, b := 0 } ∧
  State.reset.tw = 0 ∧ State.reset.th = 0 ∧
  ∀ i : Instr, exec i State.reset = .next { State.reset with
    status := .error, err := .invalidImage, op := Op.ofInstr i }

/-- R8, R20, R50, R53: the reads that are always allowed, BUSY or not, by name and by number, with the values of
STATUS (R21) and of ERR (R22, R135) that they answer. -/
def Obligations.AlwaysAllowedReads : Prop :=
  (Status.idle.code.toNat = 0 ∧ Status.busy.code.toNat = 1 ∧ Status.done.code.toNat = 2 ∧ Status.error.code.toNat = 3) ∧
  (ErrCode.none.code.toNat = 0 ∧ ErrCode.invalidImage.code.toNat = 1 ∧ ErrCode.invalidInput.code.toNat = 2 ∧
    ErrCode.illegalCommand.code.toNat = 3) ∧
  ∀ s : State,
    hostTx .readStatus s = .next { s with mark := .done, reply := .word s.status.code.toNat } ∧
    hostTx .readErr s = .next { s with mark := .done, reply := .word s.err.code.toNat } ∧
    hostTx .readTw s = .next { s with mark := .done, reply := .word s.tw } ∧
    hostTx .readTh s = .next { s with mark := .done, reply := .word s.th } ∧
    hostTx .readCmd s = .next { s with mark := .done, reply := .word 0 } ∧
    ∀ x y, hostTx (.readNum 0x00 x y) s = hostTx .readCmd s ∧ hostTx (.readNum 0x01 x y) s = hostTx .readStatus s ∧
      hostTx (.readNum 0x02 x y) s = hostTx .readErr s ∧ hostTx (.readNum 0x03 x y) s = hostTx .readTw s ∧
      hostTx (.readNum 0x04 x y) s = hostTx .readTh s

/-- R54: READS HAVE NO SIDE EFFECT AND ARE IDEMPOTENT. A read, by name or by number (log entry 13), changes nothing,
and its answer does not depend on what the host was told before or still means to do, so the same read
answers the same however many reads come between. Unspecified values (U2, U4) are no exception: they are free,
and the same until a write, a reset or a sequencer step intervenes (log entries 3 and, for refused and ignored
reads, 20). -/
def Obligations.ReadsHaveNoSideEffect : Prop :=
  ∀ (tx : HostTx) (s : State), tx.isRead = true →
    (∃ u, hostTx tx s = .next u ∧ sameBlock s u ∧ hostTx tx u = .next u) ∧
    ∃ m r, ∀ script m' r', hostTx tx { s with script := script, mark := m', reply := r' }
      = .next { s with script := script, mark := m, reply := r }

/-- R50: while BUSY every transaction but the always-allowed reads is ignored: nothing of the block changes. That a
transaction which also lacks its needs, or names a number that does not exist (R53), is marked ignored and
not refused is the model's reading (DEDUCED, log entry 8), and so is it for the reads of VALID, W, H and PIX by
number (DEDUCED, log entry 13). -/
def Obligations.BusyIgnoresHost : Prop :=
  ∀ (tx : HostTx) (s : State), s.status = .busy → tx.alwaysAllowed = false →
    ∃ u, hostTx tx s = .next u ∧ sameBlock s u ∧ u.mark = .ignored

/-- R46, R53: accesses without their needs are refused and change nothing: a pixel outside the image or of a
register that holds none, a write of DW, RC or IO, a register number that does not exist. The last clause is
the model's reading (DEDUCED, unsafe, log entry 9): the writes by number that R53 does not list, to STATUS, ERR,
W and H of any register, VALID of DW, RC and IO, and VALID of IA or IB with a value other than 0, are
refused as well; and PIX of DW, RC and IO is refused as a put. So are the get and the put by number through
a PIX window, which follow HostGet and HostPut (DEDUCED, log entries 9 and 13). All of this is of the block, for
whatever reaches it: the script layer keeps malformed lines from it (R71, MalformedLinesReachNothing). -/
def Obligations.UnmetNeedsAreRefused : Prop :=
  ∀ s : State, s.status ≠ .busy →
    (∀ r x y, (s.reg r).valid = false ∨ ¬ (s.reg r).img.inside x y →
      (∃ u, hostTx (.get r x y) s = .next u ∧ sameBlock s u ∧ u.mark = .refused) ∧
      (∀ p, ∃ u, hostTx (.put r x y p) s = .next u ∧ sameBlock s u ∧ u.mark = .refused) ∧
      (∃ u, hostTx (.readNum (HostReg.pix r).number x y) s = .next u ∧ sameBlock s u ∧ u.mark = .refused) ∧
      ∀ v, ∃ u, hostTx (.writeNum (HostReg.pix r).number x y v) s = .next u ∧ sameBlock s u ∧ u.mark = .refused) ∧
    (∀ r, r.hostOwned = false →
      (∀ w h px, ∃ u, hostTx (.load r w h px) s = .next u ∧ sameBlock s u ∧ u.mark = .refused) ∧
      (∀ x y p, ∃ u, hostTx (.put r x y p) s = .next u ∧ sameBlock s u ∧ u.mark = .refused) ∧
      ∃ u, hostTx (.invalidate r) s = .next u ∧ sameBlock s u ∧ u.mark = .refused) ∧
    (∀ n x y, HostReg.ofNumber n = none →
      (∃ u, hostTx (.readNum n x y) s = .next u ∧ sameBlock s u ∧ u.mark = .refused) ∧
      ∀ v, ∃ u, hostTx (.writeNum n x y v) s = .next u ∧ sameBlock s u ∧ u.mark = .refused) ∧
    ∀ n x y v,
      (n = HostReg.status.number ∨ n = HostReg.err.number ∨
        ∃ r : ImgName, n = (HostReg.width r).number ∨ n = (HostReg.height r).number ∨
          (n = (HostReg.valid r).number ∧ (r.hostOwned = false ∨ v ≠ 0)) ∨
          (n = (HostReg.pix r).number ∧ r.hostOwned = false)) →
      ∃ u, hostTx (.writeNum n x y v) s = .next u ∧ sameBlock s u ∧ u.mark = .refused

/-- R8, R11: a loaded image reads back: its dimensions by HostDims, each pixel by HostGet; the load changes nothing
of the block but that register. The register numbers are R53's and the pixel word is R66's; that the reads of
VALID, W, H and PIX by number answer as HostDims and HostGet do, PIX with the pixel word, is the model's
reading (DEDUCED, log entry 13). -/
def Obligations.LoadThenGet : Prop :=
  ∀ (s : State) (r : ImgName) (w h : Nat) (px : List Pixel), s.status ≠ .busy → r.hostOwned = true →
    px.length = w * h →
    ∃ u, hostTx (.load r w h px) s = .next u ∧ (u.reg r).valid = true ∧ (u.reg r).img.full ∧
      (∀ r', r' ≠ r → u.reg r' = s.reg r') ∧
      u = { s.setReg r (u.reg r) with mark := .done, reply := .none } ∧
      hostTx (.dims r) u = .next { u with mark := .done, reply := .dims true w h } ∧
      (∀ x y, hostTx (.readNum (0x10 + 4 * r.index) x y) u = .next { u with mark := .done, reply := .word 1 } ∧
        hostTx (.readNum (0x11 + 4 * r.index) x y) u = .next { u with mark := .done, reply := .word w } ∧
        hostTx (.readNum (0x12 + 4 * r.index) x y) u = .next { u with mark := .done, reply := .word h }) ∧
      ∀ x y p, x < w → y < h → px[y * w + x]? = some p →
        hostTx (.get r x y) u = .next { u with mark := .done, reply := .pixel p } ∧
        hostTx (.readNum (0x13 + 4 * r.index) x y) u = .next { u with mark := .done, reply := .word p.toWord.toNat }

/-- R8, R42: HostPut writes the pixel it names and no other pixel, dimension or register, and nothing else of the
block: the next state is the one before with that image register replaced. -/
def Obligations.PutThenGet : Prop :=
  ∀ (s : State) (r : ImgName) (x y : Nat) (p : Pixel), s.status ≠ .busy → r.hostOwned = true →
    (s.reg r).valid = true → (s.reg r).img.full → (s.reg r).img.inside x y →
    ∃ u, hostTx (.put r x y p) s = .next u ∧ (u.reg r).valid = true ∧ (u.reg r).img.full ∧
      (u.reg r).img.sameDims (s.reg r).img ∧
      hostTx (.get r x y) u = .next { u with mark := .done, reply := .pixel p } ∧
      (∀ x' y' c, (x', y') ≠ (x, y) → (u.reg r).img.readChan x' y' c = (s.reg r).img.readChan x' y' c) ∧
      (∀ r', r' ≠ r → u.reg r' = s.reg r') ∧
      u = { s.setReg r (u.reg r) with mark := .done, reply := .none }

/-- R8, R15, R27, R53: the other host writes: TW, TH and HostInvalidate, by name and by number. That a PIX write by
number carries the pixel word of R66 and is HostPut is the model's reading (DEDUCED, log entry 9). A value that
does not fit its register never reaches hostTx (R64, R71: MalformedLinesReachNothing); for such a value the
clauses by number speak of the model's function alone and of nothing the block does. -/
def Obligations.HostWrites : Prop :=
  ∀ s : State, s.status ≠ .busy →
    (∀ v, hostTx (.writeTw v) s = .next { s with tw := v, mark := .done, reply := .none } ∧
      hostTx (.writeTh v) s = .next { s with th := v, mark := .done, reply := .none }) ∧
    hostTx (.invalidate .ia) s = .next { s with ia := ImgReg.empty, mark := .done, reply := .none } ∧
    hostTx (.invalidate .ib) s = .next { s with ib := ImgReg.empty, mark := .done, reply := .none } ∧
    ∀ x y v,
      hostTx (.writeNum 0x03 x y v) s = hostTx (.writeTw v) s ∧
      hostTx (.writeNum 0x04 x y v) s = hostTx (.writeTh v) s ∧
      hostTx (.writeNum 0x10 x y 0) s = hostTx (.invalidate .ia) s ∧
      hostTx (.writeNum 0x14 x y 0) s = hostTx (.invalidate .ib) s ∧
      hostTx (.writeNum 0x00 x y v) s = hostTx (.writeCmd (BitVec.ofNat 8 v)) s ∧
      hostTx (.writeNum 0x13 x y v) s = hostTx (.put .ia x y (Pixel.ofWord (BitVec.ofNat 32 v))) s ∧
      hostTx (.writeNum 0x17 x y v) s = hostTx (.put .ib x y (Pixel.ofWord (BitVec.ofNat 32 v))) s

/-- R53: a register's number names that register, and a number names at most one register; the numbers, with 0
for IA to 4 for IO; and what the reads by number answer while not BUSY: VALID, W, H and the pixel word of a
register that holds an image, and VALID = 0 of one that holds none. That they answer as HostDims and HostGet
do (R8, R28), PIX with the pixel word (R66), is the model's reading (DEDUCED, log entry 13). W and H of a register
that holds no image are free values of DIM_BITS bits, marked done (U4, log entries 3 and 13). -/
def Obligations.RegisterNumbers : Prop :=
  (∀ r : HostReg, HostReg.ofNumber r.number = some r) ∧
  (∀ (n : Nat) (r : HostReg), HostReg.ofNumber n = some r → r.number = n) ∧
  (HostReg.cmd.number = 0x00 ∧ HostReg.status.number = 0x01 ∧ HostReg.err.number = 0x02 ∧
    HostReg.tw.number = 0x03 ∧ HostReg.th.number = 0x04) ∧
  (ImgName.ia.index = 0 ∧ ImgName.ib.index = 1 ∧ ImgName.dw.index = 2 ∧ ImgName.rc.index = 3 ∧ ImgName.io.index = 4) ∧
  (∀ r : ImgName, (HostReg.valid r).number = 0x10 + 4 * r.index ∧ (HostReg.width r).number = 0x11 + 4 * r.index ∧
    (HostReg.height r).number = 0x12 + 4 * r.index ∧ (HostReg.pix r).number = 0x13 + 4 * r.index) ∧
  ∀ (s : State) (r : ImgName) (x y : Nat), s.status ≠ .busy →
    ((s.reg r).valid = true →
      hostTx (.dims r) s
        = .next { s with mark := .done, reply := .dims true (s.reg r).img.w (s.reg r).img.h } ∧
      hostTx (.readNum (HostReg.valid r).number x y) s = .next { s with mark := .done, reply := .word 1 } ∧
      hostTx (.readNum (HostReg.width r).number x y) s
        = .next { s with mark := .done, reply := .word (s.reg r).img.w } ∧
      hostTx (.readNum (HostReg.height r).number x y) s
        = .next { s with mark := .done, reply := .word (s.reg r).img.h } ∧
      ∀ p, (s.reg r).img.readPixel x y = some p →
        hostTx (.get r x y) s = .next { s with mark := .done, reply := .pixel p } ∧
        hostTx (.readNum (HostReg.pix r).number x y) s
          = .next { s with mark := .done, reply := .word p.toWord.toNat }) ∧
    ((s.reg r).valid = false →
      hostTx (.readNum (HostReg.valid r).number x y) s = .next { s with mark := .done, reply := .word 0 } ∧
      (∃ u w h, hostTx (.dims r) s = .next u ∧ sameBlock s u ∧ u.mark = .done ∧ u.reply = .dims false w h ∧
        fitsDim w ∧ fitsDim h) ∧
      ∀ n, n = (HostReg.width r).number ∨ n = (HostReg.height r).number →
        ∃ u v, hostTx (.readNum n x y) s = .next u ∧ sameBlock s u ∧ u.mark = .done ∧ u.reply = .word v ∧ fitsDim v)

/-- R41, R66: the pixel word and the channel addresses: each channel's bits, the word and the pixel determine
each other; the channel address is 4·(y·W + x) + idx(c), and two channels of an image have the same address
only when they are the same channel. -/
def Obligations.PixelLayout : Prop :=
  (∀ p : Pixel, p.toWord.extractLsb' 0 8 = p.r ∧ p.toWord.extractLsb' 8 8 = p.g ∧
    p.toWord.extractLsb' 16 8 = p.b ∧ p.toWord.extractLsb' 24 8 = p.a ∧ Pixel.ofWord p.toWord = p) ∧
  (∀ v : BitVec 32, (Pixel.ofWord v).toWord = v) ∧
  (∀ w x y, chanAddr w x y .r = 4 * (y * w + x) ∧ chanAddr w x y .g = 4 * (y * w + x) + 1 ∧
    chanAddr w x y .b = 4 * (y * w + x) + 2 ∧ chanAddr w x y .a = 4 * (y * w + x) + 3) ∧
  ∀ w x y x' y' c c', x < w → x' < w →
    (chanAddr w x y c = chanAddr w x' y' c' ↔ x = x' ∧ y = y' ∧ c = c')

/-- R64, R71: a transaction with malformed arguments is rejected by the script layer and reaches the block as
nothing. Malformed are a LOAD with the wrong number of pixels, a LOAD or INVAL of another register than IA or
IB, and a TW, TH, dimension or coordinate of PUT and GET that does not fit DIM_BITS (for coordinates log entry
19, DEDUCED); a coordinate that fits is let through, inside the image or not. By number (DEDUCED, log entries 9
and 19) malformed are a value that does not fit the register it names and a coordinate of a PIX window that does
not fit. -/
def Obligations.MalformedLinesReachNothing : Prop :=
  (∀ (s : State) (tx : HostTx) (rest : List ScriptLine), s.script = .tx tx :: rest → tx.argsOk = false →
    step s = .next { s with script := rest, mark := .rejected, reply := .none }) ∧
  (∀ r w h px, px.length ≠ w * h → (HostTx.load r w h px).argsOk = false) ∧
  (∀ r : ImgName, r.hostOwned = false →
    (∀ w h px, (HostTx.load r w h px).argsOk = false) ∧ (HostTx.invalidate r).argsOk = false) ∧
  (∀ v, 2 ^ Config.dimBits ≤ v →
    (HostTx.writeTw v).argsOk = false ∧ (HostTx.writeTh v).argsOk = false ∧
    (∀ r w px, (HostTx.load r v w px).argsOk = false ∧ (HostTx.load r w v px).argsOk = false) ∧
    (∀ r c p, (HostTx.put r v c p).argsOk = false ∧ (HostTx.put r c v p).argsOk = false ∧
      (HostTx.get r v c).argsOk = false ∧ (HostTx.get r c v).argsOk = false) ∧
    ∀ (r : ImgName) (c w : Nat),
      (HostTx.readNum (0x13 + 4 * r.index) v c).argsOk = false ∧ (HostTx.readNum (0x13 + 4 * r.index) c v).argsOk = false ∧
      (HostTx.writeNum (0x13 + 4 * r.index) v c w).argsOk = false ∧ (HostTx.writeNum (0x13 + 4 * r.index) c v w).argsOk = false) ∧
  (∀ r x y p, fitsDim x → fitsDim y → (HostTx.put r x y p).argsOk = true ∧ (HostTx.get r x y).argsOk = true) ∧
  ∀ x y v, (2 ^ 8 ≤ v → (HostTx.writeNum 0x00 x y v).argsOk = false ∧ (HostTx.writeNum 0x02 x y v).argsOk = false) ∧
    (2 ^ 2 ≤ v → (HostTx.writeNum 0x01 x y v).argsOk = false) ∧
    (2 ^ Config.dimBits ≤ v → (HostTx.writeNum 0x03 x y v).argsOk = false ∧ (HostTx.writeNum 0x04 x y v).argsOk = false) ∧
    ∀ r : ImgName,
      (2 ^ 1 ≤ v → (HostTx.writeNum (0x10 + 4 * r.index) x y v).argsOk = false) ∧
      (2 ^ Config.dimBits ≤ v → (HostTx.writeNum (0x11 + 4 * r.index) x y v).argsOk = false ∧
        (HostTx.writeNum (0x12 + 4 * r.index) x y v).argsOk = false) ∧
      (2 ^ 32 ≤ v → (HostTx.writeNum (0x13 + 4 * r.index) x y v).argsOk = false)

/-- R72: `MOVE r, src` copies the image register src into r and changes no other register of the block. That the
line is replaced by its expansion in one step is the model's (log entry 10). -/
def Obligations.MoveCopiesImage : Prop :=
  ∀ (s : State) (r src : ImgName), s.status ≠ .busy → r.hostOwned = true → (s.reg src).valid = true →
    (s.reg src).img.full → (s.reg src).img.fits → s.script = [.move r src] →
    ∃ k t, core.run k s = .next t ∧ t.script = [] ∧ t.mark = .done ∧
      t = { s.setReg r (s.reg src) with script := [], mark := t.mark, reply := t.reply, freeCtr := t.freeCtr }
end

