-- ==== Sys2Proof/Laws/State.lean ====
section
/-! SUPPORT. One lemma per field per state update, true by rfl, so that no proof unfolds a record update. -/

namespace Sys2Proof.Machine

variable (s : State)


@[simp] theorem State.setPc_ia (p : Phase) (x y : Nat) : (s.setPc p x y).ia = s.ia := rfl
@[simp] theorem State.setPc_ib (p : Phase) (x y : Nat) : (s.setPc p x y).ib = s.ib := rfl
@[simp] theorem State.setPc_dw (p : Phase) (x y : Nat) : (s.setPc p x y).dw = s.dw := rfl
@[simp] theorem State.setPc_rc (p : Phase) (x y : Nat) : (s.setPc p x y).rc = s.rc := rfl
@[simp] theorem State.setPc_io (p : Phase) (x y : Nat) : (s.setPc p x y).io = s.io := rfl
@[simp] theorem State.setPc_status (p : Phase) (x y : Nat) : (s.setPc p x y).status = s.status := rfl
@[simp] theorem State.setPc_err (p : Phase) (x y : Nat) : (s.setPc p x y).err = s.err := rfl
@[simp] theorem State.setPc_phase (p : Phase) (x y : Nat) : (s.setPc p x y).phase = p := rfl
@[simp] theorem State.setPc_x (p : Phase) (x y : Nat) : (s.setPc p x y).x = x := rfl
@[simp] theorem State.setPc_y (p : Phase) (x y : Nat) : (s.setPc p x y).y = y := rfl
@[simp] theorem State.setPc_op (p : Phase) (x y : Nat) : (s.setPc p x y).op = s.op := rfl
@[simp] theorem State.setPc_e (p : Phase) (x y : Nat) : (s.setPc p x y).e = s.e := rfl
@[simp] theorem State.setPc_tw (p : Phase) (x y : Nat) : (s.setPc p x y).tw = s.tw := rfl
@[simp] theorem State.setPc_th (p : Phase) (x y : Nat) : (s.setPc p x y).th = s.th := rfl
@[simp] theorem State.setPc_script (p : Phase) (x y : Nat) : (s.setPc p x y).script = s.script := rfl
@[simp] theorem State.setPc_reply (p : Phase) (x y : Nat) : (s.setPc p x y).reply = s.reply := rfl
@[simp] theorem State.setPc_mark (p : Phase) (x y : Nat) : (s.setPc p x y).mark = s.mark := rfl
@[simp] theorem State.setPc_freeCtr (p : Phase) (x y : Nat) : (s.setPc p x y).freeCtr = s.freeCtr := rfl

@[simp] theorem State.noted_ia (m : TxMark) (r : Reply) : (s.noted m r).ia = s.ia := rfl
@[simp] theorem State.noted_ib (m : TxMark) (r : Reply) : (s.noted m r).ib = s.ib := rfl
@[simp] theorem State.noted_dw (m : TxMark) (r : Reply) : (s.noted m r).dw = s.dw := rfl
@[simp] theorem State.noted_rc (m : TxMark) (r : Reply) : (s.noted m r).rc = s.rc := rfl
@[simp] theorem State.noted_io (m : TxMark) (r : Reply) : (s.noted m r).io = s.io := rfl
@[simp] theorem State.noted_status (m : TxMark) (r : Reply) : (s.noted m r).status = s.status := rfl
@[simp] theorem State.noted_err (m : TxMark) (r : Reply) : (s.noted m r).err = s.err := rfl
@[simp] theorem State.noted_phase (m : TxMark) (r : Reply) : (s.noted m r).phase = s.phase := rfl
@[simp] theorem State.noted_x (m : TxMark) (r : Reply) : (s.noted m r).x = s.x := rfl
@[simp] theorem State.noted_y (m : TxMark) (r : Reply) : (s.noted m r).y = s.y := rfl
@[simp] theorem State.noted_op (m : TxMark) (r : Reply) : (s.noted m r).op = s.op := rfl
@[simp] theorem State.noted_e (m : TxMark) (r : Reply) : (s.noted m r).e = s.e := rfl
@[simp] theorem State.noted_tw (m : TxMark) (r : Reply) : (s.noted m r).tw = s.tw := rfl
@[simp] theorem State.noted_th (m : TxMark) (r : Reply) : (s.noted m r).th = s.th := rfl
@[simp] theorem State.noted_script (m : TxMark) (r : Reply) : (s.noted m r).script = s.script := rfl
@[simp] theorem State.noted_reply (m : TxMark) (r : Reply) : (s.noted m r).reply = r := rfl
@[simp] theorem State.noted_mark (m : TxMark) (r : Reply) : (s.noted m r).mark = m := rfl
@[simp] theorem State.noted_freeCtr (m : TxMark) (r : Reply) : (s.noted m r).freeCtr = s.freeCtr := rfl

@[simp] theorem State.dropResults_ia : (s.dropResults).ia = s.ia := rfl
@[simp] theorem State.dropResults_ib : (s.dropResults).ib = s.ib := rfl
@[simp] theorem State.dropResults_dw : (s.dropResults).dw = ImgReg.empty := rfl
@[simp] theorem State.dropResults_rc : (s.dropResults).rc = ImgReg.empty := rfl
@[simp] theorem State.dropResults_io : (s.dropResults).io = ImgReg.empty := rfl
@[simp] theorem State.dropResults_status : (s.dropResults).status = s.status := rfl
@[simp] theorem State.dropResults_err : (s.dropResults).err = s.err := rfl
@[simp] theorem State.dropResults_phase : (s.dropResults).phase = s.phase := rfl
@[simp] theorem State.dropResults_x : (s.dropResults).x = s.x := rfl
@[simp] theorem State.dropResults_y : (s.dropResults).y = s.y := rfl
@[simp] theorem State.dropResults_op : (s.dropResults).op = s.op := rfl
@[simp] theorem State.dropResults_e : (s.dropResults).e = s.e := rfl
@[simp] theorem State.dropResults_tw : (s.dropResults).tw = s.tw := rfl
@[simp] theorem State.dropResults_th : (s.dropResults).th = s.th := rfl
@[simp] theorem State.dropResults_script : (s.dropResults).script = s.script := rfl
@[simp] theorem State.dropResults_reply : (s.dropResults).reply = s.reply := rfl
@[simp] theorem State.dropResults_mark : (s.dropResults).mark = s.mark := rfl
@[simp] theorem State.dropResults_freeCtr : (s.dropResults).freeCtr = s.freeCtr := rfl

@[simp] theorem State.raise_ia (e : ErrCode) : (s.raise e).ia = s.ia := rfl
@[simp] theorem State.raise_ib (e : ErrCode) : (s.raise e).ib = s.ib := rfl
@[simp] theorem State.raise_dw (e : ErrCode) : (s.raise e).dw = ImgReg.empty := rfl
@[simp] theorem State.raise_rc (e : ErrCode) : (s.raise e).rc = ImgReg.empty := rfl
@[simp] theorem State.raise_io (e : ErrCode) : (s.raise e).io = ImgReg.empty := rfl
@[simp] theorem State.raise_status (e : ErrCode) : (s.raise e).status = .error := rfl
@[simp] theorem State.raise_err (e : ErrCode) : (s.raise e).err = e := rfl
@[simp] theorem State.raise_phase (e : ErrCode) : (s.raise e).phase = .none := rfl
@[simp] theorem State.raise_x (e : ErrCode) : (s.raise e).x = 0 := rfl
@[simp] theorem State.raise_y (e : ErrCode) : (s.raise e).y = 0 := rfl
@[simp] theorem State.raise_op (e : ErrCode) : (s.raise e).op = s.op := rfl
@[simp] theorem State.raise_e (e : ErrCode) : (s.raise e).e = s.e := rfl
@[simp] theorem State.raise_tw (e : ErrCode) : (s.raise e).tw = s.tw := rfl
@[simp] theorem State.raise_th (e : ErrCode) : (s.raise e).th = s.th := rfl
@[simp] theorem State.raise_script (e : ErrCode) : (s.raise e).script = s.script := rfl
@[simp] theorem State.raise_reply (e : ErrCode) : (s.raise e).reply = s.reply := rfl
@[simp] theorem State.raise_mark (e : ErrCode) : (s.raise e).mark = s.mark := rfl
@[simp] theorem State.raise_freeCtr (e : ErrCode) : (s.raise e).freeCtr = s.freeCtr := rfl

@[simp] theorem State.beginCommand_ia (o : Op) : (s.beginCommand o).ia = s.ia := rfl
@[simp] theorem State.beginCommand_ib (o : Op) : (s.beginCommand o).ib = s.ib := rfl
@[simp] theorem State.beginCommand_dw (o : Op) : (s.beginCommand o).dw = ImgReg.empty := rfl
@[simp] theorem State.beginCommand_rc (o : Op) : (s.beginCommand o).rc = ImgReg.empty := rfl
@[simp] theorem State.beginCommand_io (o : Op) : (s.beginCommand o).io = ImgReg.empty := rfl
@[simp] theorem State.beginCommand_status (o : Op) : (s.beginCommand o).status = s.status := rfl
@[simp] theorem State.beginCommand_err (o : Op) : (s.beginCommand o).err = .none := rfl
@[simp] theorem State.beginCommand_phase (o : Op) : (s.beginCommand o).phase = s.phase := rfl
@[simp] theorem State.beginCommand_x (o : Op) : (s.beginCommand o).x = 0 := rfl
@[simp] theorem State.beginCommand_y (o : Op) : (s.beginCommand o).y = 0 := rfl
@[simp] theorem State.beginCommand_op (o : Op) : (s.beginCommand o).op = o := rfl
@[simp] theorem State.beginCommand_e (o : Op) : (s.beginCommand o).e = ErrLatch.zero := rfl
@[simp] theorem State.beginCommand_tw (o : Op) : (s.beginCommand o).tw = s.tw := rfl
@[simp] theorem State.beginCommand_th (o : Op) : (s.beginCommand o).th = s.th := rfl
@[simp] theorem State.beginCommand_script (o : Op) : (s.beginCommand o).script = s.script := rfl
@[simp] theorem State.beginCommand_reply (o : Op) : (s.beginCommand o).reply = s.reply := rfl
@[simp] theorem State.beginCommand_mark (o : Op) : (s.beginCommand o).mark = s.mark := rfl
@[simp] theorem State.beginCommand_freeCtr (o : Op) : (s.beginCommand o).freeCtr = s.freeCtr := rfl

@[simp] theorem State.start_ia (p : Phase) : (s.start p).ia = s.ia := rfl
@[simp] theorem State.start_ib (p : Phase) : (s.start p).ib = s.ib := rfl
@[simp] theorem State.start_dw (p : Phase) : (s.start p).dw = s.dw := rfl
@[simp] theorem State.start_rc (p : Phase) : (s.start p).rc = s.rc := rfl
@[simp] theorem State.start_io (p : Phase) : (s.start p).io = s.io := rfl
@[simp] theorem State.start_status (p : Phase) : (s.start p).status = .busy := rfl
@[simp] theorem State.start_err (p : Phase) : (s.start p).err = s.err := rfl
@[simp] theorem State.start_phase (p : Phase) : (s.start p).phase = p := rfl
@[simp] theorem State.start_x (p : Phase) : (s.start p).x = 0 := rfl
@[simp] theorem State.start_y (p : Phase) : (s.start p).y = 0 := rfl
@[simp] theorem State.start_op (p : Phase) : (s.start p).op = s.op := rfl
@[simp] theorem State.start_e (p : Phase) : (s.start p).e = s.e := rfl
@[simp] theorem State.start_tw (p : Phase) : (s.start p).tw = s.tw := rfl
@[simp] theorem State.start_th (p : Phase) : (s.start p).th = s.th := rfl
@[simp] theorem State.start_script (p : Phase) : (s.start p).script = s.script := rfl
@[simp] theorem State.start_reply (p : Phase) : (s.start p).reply = s.reply := rfl
@[simp] theorem State.start_mark (p : Phase) : (s.start p).mark = s.mark := rfl
@[simp] theorem State.start_freeCtr (p : Phase) : (s.start p).freeCtr = s.freeCtr := rfl

@[simp] theorem State.publish_ia (img : Image) : (s.publish img).ia = s.ia := rfl
@[simp] theorem State.publish_ib (img : Image) : (s.publish img).ib = s.ib := rfl
@[simp] theorem State.publish_dw (img : Image) : (s.publish img).dw = s.dw := rfl
@[simp] theorem State.publish_rc (img : Image) : (s.publish img).rc = s.rc := rfl
@[simp] theorem State.publish_io (img : Image) : (s.publish img).io = ⟨true, img⟩ := rfl
@[simp] theorem State.publish_status (img : Image) : (s.publish img).status = .done := rfl
@[simp] theorem State.publish_err (img : Image) : (s.publish img).err = s.err := rfl
@[simp] theorem State.publish_phase (img : Image) : (s.publish img).phase = .none := rfl
@[simp] theorem State.publish_x (img : Image) : (s.publish img).x = 0 := rfl
@[simp] theorem State.publish_y (img : Image) : (s.publish img).y = 0 := rfl
@[simp] theorem State.publish_op (img : Image) : (s.publish img).op = s.op := rfl
@[simp] theorem State.publish_e (img : Image) : (s.publish img).e = s.e := rfl
@[simp] theorem State.publish_tw (img : Image) : (s.publish img).tw = s.tw := rfl
@[simp] theorem State.publish_th (img : Image) : (s.publish img).th = s.th := rfl
@[simp] theorem State.publish_script (img : Image) : (s.publish img).script = s.script := rfl
@[simp] theorem State.publish_reply (img : Image) : (s.publish img).reply = s.reply := rfl
@[simp] theorem State.publish_mark (img : Image) : (s.publish img).mark = s.mark := rfl
@[simp] theorem State.publish_freeCtr (img : Image) : (s.publish img).freeCtr = s.freeCtr := rfl

@[simp] theorem ImgReg.empty_valid : ImgReg.empty.valid = false := rfl

/-- The register read back after a register write (R12: no two image registers alias). -/
theorem State.reg_setReg (r r' : ImgName) (v : ImgReg) : (s.setReg r v).reg r' = if r' = r then v else s.reg r' := by
  cases r <;> cases r' <;> rfl

@[simp] theorem State.setReg_status (r : ImgName) (v : ImgReg) : (s.setReg r v).status = s.status := by cases r <;> rfl
@[simp] theorem State.setReg_err (r : ImgName) (v : ImgReg) : (s.setReg r v).err = s.err := by cases r <;> rfl
@[simp] theorem State.setReg_phase (r : ImgName) (v : ImgReg) : (s.setReg r v).phase = s.phase := by cases r <;> rfl
@[simp] theorem State.setReg_x (r : ImgName) (v : ImgReg) : (s.setReg r v).x = s.x := by cases r <;> rfl
@[simp] theorem State.setReg_y (r : ImgName) (v : ImgReg) : (s.setReg r v).y = s.y := by cases r <;> rfl
@[simp] theorem State.setReg_op (r : ImgName) (v : ImgReg) : (s.setReg r v).op = s.op := by cases r <;> rfl
@[simp] theorem State.setReg_e (r : ImgName) (v : ImgReg) : (s.setReg r v).e = s.e := by cases r <;> rfl
@[simp] theorem State.setReg_tw (r : ImgName) (v : ImgReg) : (s.setReg r v).tw = s.tw := by cases r <;> rfl
@[simp] theorem State.setReg_th (r : ImgName) (v : ImgReg) : (s.setReg r v).th = s.th := by cases r <;> rfl
@[simp] theorem State.setReg_script (r : ImgName) (v : ImgReg) : (s.setReg r v).script = s.script := by cases r <;> rfl
@[simp] theorem State.setReg_reply (r : ImgName) (v : ImgReg) : (s.setReg r v).reply = s.reply := by cases r <;> rfl
@[simp] theorem State.setReg_mark (r : ImgName) (v : ImgReg) : (s.setReg r v).mark = s.mark := by cases r <;> rfl
@[simp] theorem State.setReg_freeCtr (r : ImgName) (v : ImgReg) : (s.setReg r v).freeCtr = s.freeCtr := by cases r <;> rfl

/-- The scan position after one pixel (R24). -/
theorem State.advance_xy (w : Nat) :
    ((s.advance w).x, (s.advance w).y) = if s.x + 1 = w then (0, s.y + 1) else (s.x + 1, s.y) := by
  unfold State.advance; split <;> rfl

@[simp] theorem State.advance_ia (w : Nat) : (s.advance w).ia = s.ia := by unfold State.advance; split <;> rfl
@[simp] theorem State.advance_ib (w : Nat) : (s.advance w).ib = s.ib := by unfold State.advance; split <;> rfl
@[simp] theorem State.advance_dw (w : Nat) : (s.advance w).dw = s.dw := by unfold State.advance; split <;> rfl
@[simp] theorem State.advance_rc (w : Nat) : (s.advance w).rc = s.rc := by unfold State.advance; split <;> rfl
@[simp] theorem State.advance_io (w : Nat) : (s.advance w).io = s.io := by unfold State.advance; split <;> rfl
@[simp] theorem State.advance_status (w : Nat) : (s.advance w).status = s.status := by unfold State.advance; split <;> rfl
@[simp] theorem State.advance_err (w : Nat) : (s.advance w).err = s.err := by unfold State.advance; split <;> rfl
@[simp] theorem State.advance_phase (w : Nat) : (s.advance w).phase = s.phase := by unfold State.advance; split <;> rfl
@[simp] theorem State.advance_op (w : Nat) : (s.advance w).op = s.op := by unfold State.advance; split <;> rfl
@[simp] theorem State.advance_e (w : Nat) : (s.advance w).e = s.e := by unfold State.advance; split <;> rfl
@[simp] theorem State.advance_tw (w : Nat) : (s.advance w).tw = s.tw := by unfold State.advance; split <;> rfl
@[simp] theorem State.advance_th (w : Nat) : (s.advance w).th = s.th := by unfold State.advance; split <;> rfl
@[simp] theorem State.advance_script (w : Nat) : (s.advance w).script = s.script := by unfold State.advance; split <;> rfl
@[simp] theorem State.advance_reply (w : Nat) : (s.advance w).reply = s.reply := by unfold State.advance; split <;> rfl
@[simp] theorem State.advance_mark (w : Nat) : (s.advance w).mark = s.mark := by unfold State.advance; split <;> rfl
@[simp] theorem State.advance_freeCtr (w : Nat) : (s.advance w).freeCtr = s.freeCtr := by unfold State.advance; split <;> rfl

end Sys2Proof.Machine
end

