-- ==== Sys2Proof/Laws/Accept.lean ====
section
/-! SUPPORT. Command acceptance, said once: what it can answer, and when each command's check lets it start. -/

namespace Sys2Proof.Machine

/-- Acceptance while BUSY is ignored (R50). -/
theorem acceptCommand_busy {o : Op} {check : State → Option ErrCode} {go : State → State} {s : State}
    (hb : s.status = .busy) : acceptCommand o check go s = .next (s.noted .ignored .none) := if_pos hb

theorem acceptCommand_raises {o : Op} {check : State → Option ErrCode} {go : State → State} {s : State} {e : ErrCode}
    (hb : s.status ≠ .busy) (hc : check (s.beginCommand o) = some e) :
    acceptCommand o check go s = .next ((s.beginCommand o).raise e) := by
  rw [acceptCommand, if_neg hb, hc]

theorem acceptCommand_starts {o : Op} {check : State → Option ErrCode} {go : State → State} {s : State}
    (hb : s.status ≠ .busy) (hc : check (s.beginCommand o) = none) :
    acceptCommand o check go s = .next (go (s.beginCommand o)) := by
  rw [acceptCommand, if_neg hb, hc]

/-- Everything acceptance can do. -/
theorem acceptCommand_cases {o : Op} {check : State → Option ErrCode} {go : State → State} {s t : State}
    (h : acceptCommand o check go s = .next t) :
    (s.status = .busy ∧ t = s.noted .ignored .none) ∨
    (s.status ≠ .busy ∧ ∃ e, check (s.beginCommand o) = some e ∧ t = (s.beginCommand o).raise e) ∨
    (s.status ≠ .busy ∧ check (s.beginCommand o) = none ∧ t = go (s.beginCommand o)) := by
  by_cases hb : s.status = .busy
  · rw [acceptCommand_busy hb] at h; cases h; exact .inl ⟨hb, rfl⟩
  · cases hc : check (s.beginCommand o) with
    | some e => rw [acceptCommand_raises hb hc] at h; cases h; exact .inr (.inl ⟨hb, e, rfl, rfl⟩)
    | none => rw [acceptCommand_starts hb hc] at h; cases h; exact .inr (.inr ⟨hb, rfl, rfl⟩)

/-- Acceptance never stops the machine. -/
theorem acceptCommand_next (o : Op) (check : State → Option ErrCode) (go : State → State) (s : State) :
    ∃ t, acceptCommand o check go s = .next t := by
  by_cases hb : s.status = .busy
  · exact ⟨_, acceptCommand_busy hb⟩
  · cases hc : check (s.beginCommand o) with
    | some e => exact ⟨_, acceptCommand_raises hb hc⟩
    | none => exact ⟨_, acceptCommand_starts hb hc⟩

variable {s : State}

theorem checkDither_none : checkDither s = none ↔ s.ia.valid = true := by
  unfold checkDither; split <;> simp_all

theorem checkDecode_none : checkDecode s = none ↔ s.ia.valid = true := by
  unfold checkDecode; split <;> simp_all

theorem checkResize_none : checkResize s = none ↔ s.ia.valid = true ∧ canSample s.ia.img s.tw s.th := by
  unfold checkResize canSample; split_ifs <;> simp_all; tauto

theorem checkEncode_none :
    checkEncode s = none ↔ s.ia.valid = true ∧ s.ib.valid = true ∧ (s.ib.img.area = 0 → s.ia.img.area = 0) := by
  unfold checkEncode; split_ifs <;> simp_all

/-- The only error an operand check raises (R136). -/
theorem check_some {e : ErrCode} :
    (checkDither s = some e → e = .invalidImage) ∧ (checkResize s = some e → e = .invalidImage) ∧
    (checkEncode s = some e → e = .invalidImage) ∧ (checkDecode s = some e → e = .invalidImage) := by
  refine ⟨?_, ?_, ?_, ?_⟩
  · unfold checkDither; split_ifs <;> simp_all
  · unfold checkResize; split_ifs <;> simp_all
  · unfold checkEncode; split_ifs <;> simp_all
  · unfold checkDecode; split_ifs <;> simp_all

/-- A check that does not let the command start answers INVALID_IMAGE. -/
theorem check_not_none :
    (checkDither s ≠ none → checkDither s = some .invalidImage) ∧
    (checkResize s ≠ none → checkResize s = some .invalidImage) ∧
    (checkEncode s ≠ none → checkEncode s = some .invalidImage) ∧
    (checkDecode s ≠ none → checkDecode s = some .invalidImage) := by
  refine ⟨fun h => ?_, fun h => ?_, fun h => ?_, fun h => ?_⟩ <;>
    obtain ⟨e, he⟩ := Option.ne_none_iff_exists'.1 h
  · exact check_some.1 he ▸ he
  · exact check_some.2.1 he ▸ he
  · exact check_some.2.2.1 he ▸ he
  · exact check_some.2.2.2 he ▸ he

end Sys2Proof.Machine
end

