-- ==== Sys2Proof/Laws/Memory.lean ====
section
/-! SUPPORT. The laws of a pixel store: read after write, the canonical form is kept, and equal reads mean equal stores. -/

namespace Sys2Proof.Memory

@[simp] theorem read_nil (a : Nat) : read [] a = none := rfl

theorem read_cons (k : Nat) (b : Byte) (m : Memory) (a : Nat) :
    read ((k, b) :: m) a = if k = a then some b else read m a := rfl

/-- A byte written is the byte read back. -/
@[simp] theorem read_write_same (m : Memory) (a : Nat) (v : Byte) : (m.write a v).read a = some v := by
  induction m with
  | nil => simp [write, read]
  | cons c m ih =>
    obtain ⟨k, b⟩ := c
    simp only [write]
    split
    · simp [read]
    · split
      · simp [read]
      · have : k ≠ a := by omega
        simp [read, this, ih]

/-- A write leaves every other address alone. -/
theorem read_write_ne (m : Memory) {a a' : Nat} (v : Byte) (h : a' ≠ a) :
    (m.write a v).read a' = m.read a' := by
  induction m with
  | nil => simp [write, read, h.symm]
  | cons c m ih =>
    obtain ⟨k, b⟩ := c
    simp only [write]
    split
    · simp [read, h.symm]
    · split
      · subst_vars; simp [read, h.symm]
      · simp [read, ih]

theorem read_write (m : Memory) (a a' : Nat) (v : Byte) :
    (m.write a v).read a' = if a' = a then some v else m.read a' := by
  split
  · subst_vars; simp
  · rename_i h; exact read_write_ne m v h

/-- The addresses a store holds after a write. -/
theorem mem_keys_write (m : Memory) (a k : Nat) (v : Byte) :
    k ∈ (m.write a v).map Prod.fst ↔ k = a ∨ k ∈ m.map Prod.fst := by
  induction m with
  | nil => simp [write]
  | cons c m ih =>
    obtain ⟨j, b⟩ := c
    simp only [write]
    split
    · simp
    · split
      · subst_vars; simp
      · simp only [List.map_cons, List.mem_cons, ih]; tauto

/-- A write keeps the canonical form. -/
theorem wf_write {m : Memory} (h : m.wf) (a : Nat) (v : Byte) : (m.write a v).wf := by
  induction m with
  | nil => simp [write, wf]
  | cons c m ih =>
    obtain ⟨k, b⟩ := c
    simp only [wf, List.map_cons, List.pairwise_cons] at h
    simp only [write]
    split
    · rename_i hk
      simp only [wf, List.map_cons, List.pairwise_cons, List.mem_cons]
      refine ⟨?_, h.1, h.2⟩
      rintro j (rfl | hj)
      · exact hk
      · exact Nat.lt_trans hk (h.1 j hj)
    · split
      · subst_vars
        exact List.pairwise_cons.2 ⟨h.1, h.2⟩
      · simp only [wf, List.map_cons, List.pairwise_cons]
        refine ⟨fun j hj => ?_, ih h.2⟩
        rcases (mem_keys_write m a j v).1 hj with rfl | hj
        · omega
        · exact h.1 j hj

/-- Where the store holds a byte, in any form. -/
theorem read_isSome_iff (m : Memory) (a : Nat) : (m.read a).isSome ↔ a ∈ m.map Prod.fst := by
  induction m with
  | nil => simp [read]
  | cons c m ih =>
    obtain ⟨k, b⟩ := c
    simp only [read, List.map_cons, List.mem_cons]
    split
    · simp [*]
    · rename_i hk
      rw [ih]
      constructor
      · exact Or.inr
      · rintro (rfl | h)
        · exact absurd rfl hk
        · exact h

theorem read_eq_none_iff (m : Memory) (a : Nat) : m.read a = none ↔ a ∉ m.map Prod.fst := by
  rw [← read_isSome_iff, Option.not_isSome_iff_eq_none]

/-- Two canonical stores that hold the same addresses and read alike are equal. -/
theorem ext_of_keys {m m' : Memory} (hk : m.map Prod.fst = m'.map Prod.fst) (h : m.wf)
    (hr : ∀ a, m.read a = m'.read a) : m = m' := by
  induction m generalizing m' with
  | nil => cases m' with
    | nil => rfl
    | cons c m' => simp at hk
  | cons c m ih =>
    obtain ⟨k, b⟩ := c
    cases m' with
    | nil => simp at hk
    | cons c' m' =>
      obtain ⟨k', b'⟩ := c'
      simp only [List.map_cons, List.cons.injEq] at hk
      obtain ⟨rfl, hk⟩ := hk
      simp only [wf, List.map_cons, List.pairwise_cons] at h
      have hb : b = b' := by simpa [read] using hr k
      subst hb
      congr 1
      refine ih hk h.2 fun a => ?_
      by_cases ha : k = a
      · subst ha
        have h1 : k ∉ m.map Prod.fst := fun hm => absurd (h.1 k hm) (by omega)
        rw [(read_eq_none_iff _ _).2 h1, (read_eq_none_iff _ _).2 (hk ▸ h1)]
      · simpa [read, ha] using hr a

theorem keys_eq_of_wf {l l' : List Nat} (h : l.Pairwise (· < ·)) (h' : l'.Pairwise (· < ·))
    (hm : ∀ k, k ∈ l ↔ k ∈ l') : l = l' := by
  have hp : l.Perm l' :=
    (List.perm_ext_iff_of_nodup (h.imp fun h => Nat.ne_of_lt h) (h'.imp fun h => Nat.ne_of_lt h)).2 hm
  exact hp.eq_of_pairwise (fun a b _ _ h1 h2 => absurd h1 (Nat.lt_asymm h2)) h h'

/-- Canonical stores that read alike everywhere are equal. -/
theorem ext {m m' : Memory} (h : m.wf) (h' : m'.wf) (hr : ∀ a, m.read a = m'.read a) : m = m' := by
  refine ext_of_keys (keys_eq_of_wf h h' fun k => ?_) h hr
  rw [← read_isSome_iff, ← read_isSome_iff, hr]

/-- Overwriting a byte that is there keeps the addresses. -/
theorem keys_write_of_mem {m : Memory} (h : m.wf) {a : Nat} (ha : a ∈ m.map Prod.fst) (v : Byte) :
    (m.write a v).map Prod.fst = m.map Prod.fst := by
  refine keys_eq_of_wf (wf_write h a v) h fun k => ?_
  rw [mem_keys_write]
  constructor
  · rintro (rfl | h)
    · exact ha
    · exact h
  · exact Or.inr

/-- Writing above every address appends. -/
theorem write_append {m : Memory} {a : Nat} (h : ∀ k ∈ m.map Prod.fst, k < a) (v : Byte) :
    m.write a v = m ++ [(a, v)] := by
  induction m with
  | nil => rfl
  | cons c m ih =>
    obtain ⟨k, b⟩ := c
    have hk : k < a := h k (by simp)
    have h1 : ¬ a < k := by omega
    have h2 : ¬ a = k := by omega
    simp only [write, h1, h2, if_false, List.cons_append]
    rw [ih fun j hj => h j (by simp [hj])]

@[simp] theorem keys_ofBytes (a : Nat) (l : List Byte) :
    (ofBytes a l).map Prod.fst = List.range' a l.length := by
  induction l generalizing a with
  | nil => rfl
  | cons v l ih => simp [ofBytes, ih, List.range'_succ]

theorem wf_of_keys_range' {m : Memory} {a n : Nat} (h : m.map Prod.fst = List.range' a n) : m.wf := by
  simp only [wf, h]
  exact List.pairwise_lt_range'

theorem wf_of_keys_range {m : Memory} {n : Nat} (h : m.map Prod.fst = List.range n) : m.wf :=
  wf_of_keys_range' (a := 0) (n := n) (by rw [h, List.range_eq_range'])

theorem wf_ofBytes (a : Nat) (l : List Byte) : (ofBytes a l).wf :=
  wf_of_keys_range' (keys_ofBytes a l)

/-- The byte that a list of bytes puts at an address. -/
theorem read_ofBytes (a : Nat) (l : List Byte) (i : Nat) : (ofBytes a l).read (a + i) = l[i]? := by
  induction l generalizing a i with
  | nil => simp [ofBytes]
  | cons v l ih =>
    cases i with
    | zero => simp [ofBytes, read]
    | succ i =>
      have : a ≠ a + (i + 1) := by omega
      simp only [ofBytes, read, this, if_false, List.getElem?_cons_succ]
      rw [← ih (a + 1) i, Nat.add_assoc a 1 i, Nat.add_comm 1 i]

theorem read_ofBytes_zero (l : List Byte) (i : Nat) : (ofBytes 0 l).read i = l[i]? := by
  simpa using read_ofBytes 0 l i

@[simp] theorem keys_alphaTo255 (m : Memory) : m.alphaTo255.map Prod.fst = m.map Prod.fst := by
  simp only [alphaTo255, List.map_map]
  refine List.map_congr_left fun c _ => ?_
  obtain ⟨a, v⟩ := c
  simp only [Function.comp]
  split <;> rfl

theorem wf_alphaTo255 {m : Memory} (h : m.wf) : m.alphaTo255.wf := by
  simpa [wf] using h

theorem read_alphaTo255 (m : Memory) (a : Nat) :
    m.alphaTo255.read a = (m.read a).map fun v => if a % 4 = 3 then 255 else v := by
  induction m with
  | nil => simp [alphaTo255]
  | cons c m ih =>
    obtain ⟨k, b⟩ := c
    simp only [alphaTo255] at ih ⊢
    simp only [List.map_cons]
    by_cases hk : k = a
    · subst hk
      split <;> simp_all [read]
    · split <;> simp_all [read]

theorem wf_writePixel {m : Memory} (h : m.wf) (a : Nat) (p : Pixel) : (m.writePixel a p).wf :=
  wf_write (wf_write (wf_write (wf_write h _ _) _ _) _ _) _ _

end Sys2Proof.Memory
end

