-- ==== Sys2Proof/Laws/Image.lean ====
section
/-! SUPPORT. The laws of images: channel addresses name one channel each, a channel write changes that channel only, and a full image has every pixel. -/

namespace Sys2Proof

theorem Chan.idx_lt (c : Chan) : c.idx < 4 := by cases c <;> decide

theorem Chan.idx_inj {c c' : Chan} (h : c.idx = c'.idx) : c = c' := by
  cases c <;> cases c' <;> first | rfl | (simp [Chan.idx] at h)

/-- Row-major positions name one pixel each. -/
theorem rowMajor_inj {w x y x' y' : Nat} (hx : x < w) (hx' : x' < w) (h : y * w + x = y' * w + x') :
    x = x' ∧ y = y' := by
  have hw : 0 < w := by omega
  have h1 : (y * w + x) / w = y := by rw [Nat.mul_comm, Nat.mul_add_div hw, Nat.div_eq_of_lt hx, Nat.add_zero]
  have h2 : (y' * w + x') / w = y' := by rw [Nat.mul_comm, Nat.mul_add_div hw, Nat.div_eq_of_lt hx', Nat.add_zero]
  have hy : y = y' := by rw [← h1, ← h2, h]
  subst hy
  exact ⟨by omega, rfl⟩

theorem rowMajor_lt {w h x y : Nat} (hx : x < w) (hy : y < h) : y * w + x < w * h := by
  have : (y + 1) * w ≤ h * w := Nat.mul_le_mul_right w hy
  rw [Nat.add_mul] at this
  rw [Nat.mul_comm w h]
  omega

/-- Channel addresses name one channel each (R41). -/
theorem chanAddr_inj {w x y x' y' : Nat} {c c' : Chan} (hx : x < w) (hx' : x' < w) :
    chanAddr w x y c = chanAddr w x' y' c' ↔ x = x' ∧ y = y' ∧ c = c' := by
  constructor
  · intro h
    have h1 := c.idx_lt
    have h2 := c'.idx_lt
    simp only [chanAddr] at h
    obtain ⟨rfl, rfl⟩ := rowMajor_inj hx hx' (show y * w + x = y' * w + x' by omega)
    exact ⟨rfl, rfl, Chan.idx_inj (by omega)⟩
  · rintro ⟨rfl, rfl, rfl⟩; rfl

theorem chanAddr_lt {w h x y : Nat} (c : Chan) (hx : x < w) (hy : y < h) : chanAddr w x y c < 4 * (w * h) := by
  have := rowMajor_lt hx hy
  have := c.idx_lt
  simp only [chanAddr]
  omega

/-- Every address below 4·W·H is a channel of a pixel of the image. -/
theorem exists_chanAddr {w h a : Nat} (ha : a < 4 * (w * h)) :
    ∃ x y c, x < w ∧ y < h ∧ chanAddr w x y c = a := by
  have hw : 0 < w := by
    rcases Nat.eq_zero_or_pos w with rfl | hw
    · simp at ha
    · exact hw
  have hc : ∃ c : Chan, c.idx = a % 4 := by
    have : a % 4 < 4 := Nat.mod_lt _ (by decide)
    interval_cases h : a % 4
    · exact ⟨.r, rfl⟩
    · exact ⟨.g, rfl⟩
    · exact ⟨.b, rfl⟩
    · exact ⟨.a, rfl⟩
  obtain ⟨c, hc⟩ := hc
  refine ⟨a / 4 % w, a / 4 / w, c, Nat.mod_lt _ hw, ?_, ?_⟩
  · exact Nat.div_lt_of_lt_mul (by omega)
  · have := Nat.div_add_mod (a / 4) w
    simp only [chanAddr, hc]
    rw [Nat.mul_comm (a / 4 / w) w, this]
    omega

namespace Image

variable {img img' : Image} {x y x' y' n : Nat} {c c' : Chan} {v : Byte}

theorem readChan_inside (h : img.inside x y) : img.readChan x y c = img.px.read (chanAddr img.w x y c) := if_pos h

theorem readChan_outside (h : ¬ img.inside x y) : img.readChan x y c = none := if_neg h

theorem writeChan_inside (h : img.inside x y) (v : Byte) :
    img.writeChan x y c v = some { img with px := img.px.write (chanAddr img.w x y c) v } := if_pos h

/-- Everything a channel write does. -/
theorem writeChan_cases (h : img.writeChan x y c v = some img') :
    img.inside x y ∧ img'.w = img.w ∧ img'.h = img.h ∧ img'.px = img.px.write (chanAddr img.w x y c) v := by
  unfold writeChan at h
  split at h
  · cases h; exact ⟨‹_›, rfl, rfl, rfl⟩
  · cases h

/-- A channel write changes the channel it names and no other. -/
theorem readChan_writeChan (h : img.writeChan x y c v = some img') (x' y' : Nat) (c' : Chan) :
    img'.readChan x' y' c' = if x' = x ∧ y' = y ∧ c' = c then some v else img.readChan x' y' c' := by
  obtain ⟨hin, hw, hh, hpx⟩ := writeChan_cases h
  unfold readChan
  simp only [inside, hw, hh, hpx] at hin ⊢
  by_cases hin' : x' < img.w ∧ y' < img.h
  · simp only [if_pos hin', Memory.read_write, chanAddr_inj hin'.1 hin.1]
  · have : ¬ (x' = x ∧ y' = y ∧ c' = c) := by
      rintro ⟨rfl, rfl, -⟩; exact hin' hin
    simp [hin', this]

theorem wf_writeChan (h : img.writeChan x y c v = some img') (hw : img.px.wf) : img'.px.wf := by
  rw [(writeChan_cases h).2.2.2]; exact Memory.wf_write hw _ _

/-- What it is to hold exactly the first n pixels. -/
theorem filledTo_iff : img.filledTo n ↔ img.px.wf ∧ ∀ a, (img.px.read a).isSome ↔ a < 4 * n := by
  constructor
  · intro h
    refine ⟨Memory.wf_of_keys_range h, fun a => ?_⟩
    rw [Memory.read_isSome_iff, h, List.mem_range]
  · rintro ⟨hw, h⟩
    refine Memory.keys_eq_of_wf hw List.pairwise_lt_range fun k => ?_
    rw [← Memory.read_isSome_iff, h, List.mem_range]

theorem full_iff : img.full ↔ img.px.wf ∧ ∀ a, (img.px.read a).isSome ↔ a < 4 * (img.w * img.h) :=
  filledTo_iff

theorem full.wf (h : img.full) : img.px.wf := (full_iff.1 h).1

@[simp] theorem blank_filledTo (w h : Nat) : (blank w h).filledTo 0 := rfl

/-- A full image has every channel of every pixel (R11). -/
theorem full.readChan (h : img.full) (hin : img.inside x y) (c : Chan) : ∃ v, img.readChan x y c = some v := by
  rw [readChan_inside hin]
  exact Option.isSome_iff_exists.1 (((full_iff.1 h).2 _).2 (chanAddr_lt c hin.1 hin.2))

/-- Overwriting a channel of a full image leaves it full. -/
theorem full_writeChan (h : img.writeChan x y c v = some img') (hf : img.full) : img'.full := by
  obtain ⟨hin, hw, hh, hpx⟩ := writeChan_cases h
  rw [full_iff] at hf ⊢
  refine ⟨wf_writeChan h hf.1, fun a => ?_⟩
  rw [hpx, Memory.read_write, hw, hh]
  split
  · subst_vars; simpa using chanAddr_lt c hin.1 hin.2
  · exact hf.2 a

/-- Two full images of the same dimensions that agree on every channel are equal. -/
theorem ext_of_full (h : img.full) (h' : img'.full) (hd : img.sameDims img')
    (hr : ∀ x y c, img.inside x y → img.readChan x y c = img'.readChan x y c) : img = img' := by
  obtain ⟨w, ht, px⟩ := img
  obtain ⟨w', ht', px'⟩ := img'
  obtain ⟨rfl, rfl⟩ : w = w' ∧ ht = ht' := hd
  congr 1
  have h1 := full_iff.1 h
  have h2 := full_iff.1 h'
  simp only at h1 h2
  refine Memory.ext h1.1 h2.1 fun a => ?_
  by_cases ha : a < 4 * (w * ht)
  · obtain ⟨x, y, c, hx, hy, rfl⟩ := exists_chanAddr ha
    have := hr x y c ⟨hx, hy⟩
    rwa [readChan_inside ⟨hx, hy⟩, readChan_inside ⟨hx, hy⟩] at this
  · rw [Option.not_isSome_iff_eq_none.1 (fun hs => ha ((h1.2 a).1 hs)),
      Option.not_isSome_iff_eq_none.1 (fun hs => ha ((h2.2 a).1 hs))]

theorem length_bytes (l : List Pixel) : (l.flatMap Pixel.bytes).length = 4 * l.length := by
  induction l with
  | nil => rfl
  | cons p l ih => simp [Pixel.bytes, ih]; omega

/-- Byte i of a list of pixels is channel i % 4 of pixel i / 4. -/
theorem getElem?_bytes (l : List Pixel) (k : Nat) (c : Chan) :
    (l.flatMap Pixel.bytes)[4 * k + c.idx]? = l[k]?.map (Pixel.chan · c) := by
  induction l generalizing k with
  | nil => simp
  | cons p l ih =>
    cases k with
    | zero => cases c <;> rfl
    | succ k =>
      have : 4 * (k + 1) + c.idx = (4 * k + c.idx) + 4 := by omega
      rw [this]
      simpa [Pixel.bytes] using ih k

/-- An image built of the right number of pixels is full (R11). -/
theorem full_ofPixels {w h : Nat} {l : List Pixel} (hl : l.length = w * h) : (ofPixels w h l).full := by
  simp only [full, filledTo, ofPixels, area, Memory.keys_ofBytes, length_bytes, hl, List.range_eq_range']

/-- The channels of an image built of pixels in row-major order (R11). -/
theorem readChan_ofPixels {w h : Nat} (l : List Pixel) (hx : x < w) (hy : y < h) (c : Chan) :
    (ofPixels w h l).readChan x y c = l[y * w + x]?.map (Pixel.chan · c) := by
  rw [readChan_inside (img := ofPixels w h l) ⟨hx, hy⟩]
  simp only [ofPixels, chanAddr, Memory.read_ofBytes_zero]
  exact getElem?_bytes l _ c

@[simp] theorem ofPixels_w (w h : Nat) (l : List Pixel) : (ofPixels w h l).w = w := rfl
@[simp] theorem ofPixels_h (w h : Nat) (l : List Pixel) : (ofPixels w h l).h = h := rfl

/-- The coordinates of a scan, by position. -/
theorem rowMajor_eq_map (w h : Nat) :
    rowMajor w h = (List.range (w * h)).map fun n => (n % w, n / w) := by
  rcases Nat.eq_zero_or_pos w with rfl | hw
  · simp [rowMajor]
  induction h with
  | zero => simp [rowMajor]
  | succ h ih =>
    rw [rowMajor] at ih ⊢
    rw [List.range_succ, List.flatMap_append, ih, Nat.mul_succ, List.range_add, List.map_append]
    congr 1
    simp only [List.flatMap_cons, List.flatMap_nil, List.append_nil, List.map_map]
    refine List.map_congr_left fun k hk => ?_
    have hk : k < w := List.mem_range.1 hk
    simp [Nat.add_mod, Nat.mod_eq_of_lt hk, Nat.mul_add_div hw, Nat.div_eq_of_lt hk]

@[simp] theorem length_rowMajor (w h : Nat) : (rowMajor w h).length = w * h := by
  simp [rowMajor_eq_map]

theorem mem_rowMajor {w h : Nat} {p : Nat × Nat} : p ∈ rowMajor w h ↔ p.1 < w ∧ p.2 < h := by
  obtain ⟨x, y⟩ := p
  simp only [rowMajor, List.mem_flatMap, List.mem_range, List.mem_map, Prod.mk.injEq]
  constructor
  · rintro ⟨b, hb, a, ha, rfl, rfl⟩; exact ⟨ha, hb⟩
  · rintro ⟨h1, h2⟩; exact ⟨y, h2, x, h1, rfl, rfl⟩

/-- What is left of a scan at (x, y) is (x, y) and what is left at the next position. -/
theorem drop_rowMajor {w h : Nat} (hx : x < w) (hy : y < h) :
    (rowMajor w h).drop (y * w + x) = (x, y) :: (rowMajor w h).drop (y * w + x + 1) := by
  have hlt : y * w + x < (rowMajor w h).length := by rw [length_rowMajor]; exact rowMajor_lt hx hy
  rw [List.drop_eq_getElem_cons hlt]
  congr 1
  have hw : 0 < w := by omega
  simp [rowMajor_eq_map, Nat.mul_comm y w, Nat.mod_eq_of_lt hx, Nat.mul_add_div hw, Nat.div_eq_of_lt hx]

end Image

end Sys2Proof
end

