-- ==== Sys2Proof/Laws/Visit.lean ====
section
/-! SUPPORT. One pixel at a time: what a threshold, a neighbour update, a visit, a packing step and an extraction step do to the planes of a full image, and the ranges of the channel arithmetic. -/

namespace Sys2Proof

open Machine

/-- The values of an image, one plane per channel. -/
abbrev Planes := Chan → Plane

/-- The image is full and its channels are those of the planes. -/
def Image.holds (img : Image) (P : Planes) : Prop :=
  img.full ∧ ∀ x y c, img.inside x y → img.readChan x y c = some (P c x y)

/-- Planes with one of them replaced. -/
def Planes.upd (P : Planes) (c : Chan) (p : Plane) : Planes :=
  fun c' => if c' = c then p else P c'

@[simp] theorem Planes.upd_same (P : Planes) (c : Chan) (p : Plane) : P.upd c p c = p := if_pos rfl

theorem Planes.upd_ne (P : Planes) {c c' : Chan} (p : Plane) (h : c' ≠ c) : P.upd c p c' = P c' := if_neg h

theorem Machine.Plane.set_apply (p : Plane) (x y x' y' : Nat) (v : Byte) :
    p.set x y v x' y' = if x' = x ∧ y' = y then v else p x' y' := rfl

/-- Every full image holds some planes. -/
theorem Image.full.exists_holds {img : Image} (h : img.full) : ∃ P, img.holds P := by
  refine ⟨fun c x y => (img.readChan x y c).getD 0, h, fun x y c hin => ?_⟩
  obtain ⟨v, hv⟩ := h.readChan hin c
  simp [hv]

/-- An image is determined by its dimensions and planes. -/
theorem Image.holds.eq {img img' : Image} {P P' : Planes} (h : img.holds P) (h' : img'.holds P')
    (hd : img.sameDims img') (hP : ∀ c x y, img.inside x y → P c x y = P' c x y) : img = img' := by
  refine ext_of_full h.1 h'.1 hd fun x y c hin => ?_
  rw [h.2 x y c hin, h'.2 x y c (by rw [inside, ← hd.1, ← hd.2]; exact hin), hP c x y hin]

/-- A channel write, on planes. -/
theorem Image.holds.writeChan {img : Image} {P : Planes} (h : img.holds P) {x y : Nat} (hin : img.inside x y)
    (c : Chan) (v : Byte) :
    ∃ img', img.writeChan x y c v = some img' ∧ img'.sameDims img ∧ img'.holds (P.upd c ((P c).set x y v)) := by
  refine ⟨_, writeChan_inside hin v, ⟨rfl, rfl⟩, full_writeChan (writeChan_inside hin v) h.1, fun x' y' c' hin' => ?_⟩
  rw [readChan_writeChan (writeChan_inside hin v)]
  by_cases hc : c' = c
  · subst hc
    by_cases hxy : x' = x ∧ y' = y
    · simp [hxy, Plane.set_apply]
    · have : ¬ (x' = x ∧ y' = y ∧ c' = c') := fun h => hxy ⟨h.1, h.2.1⟩
      rw [if_neg this, Planes.upd_same, Plane.set_apply, if_neg hxy]
      exact h.2 x' y' c' hin'
  · rw [if_neg (fun h => hc h.2.2), Planes.upd_ne _ _ hc]
    exact h.2 x' y' c' hin'

theorem Image.sameDims.trans {a b c : Image} (h : a.sameDims b) (h' : b.sameDims c) : a.sameDims c :=
  ⟨h.1.trans h'.1, h.2.trans h'.2⟩

theorem Image.sameDims.inside {a b : Image} (h : a.sameDims b) {x y : Nat} : a.inside x y ↔ b.inside x y := by
  rw [Image.inside, Image.inside, h.1, h.2]

namespace Machine

variable {img : Image} {P : Planes} {x y : Nat}

/-- The threshold part of a visit for one channel, on planes (R82 to R84). -/
theorem thresholdChan_holds (h : img.holds P) (hin : img.inside x y) (e : ErrLatch) (c : Chan) :
    ∃ img', thresholdChan x y (img, e) c
        = some (img', e.set c (quantError (P c x y) (threshold (P c x y)))) ∧
      img'.sameDims img ∧ img'.holds (P.upd c ((P c).set x y (threshold (P c x y)))) := by
  obtain ⟨img', hw, hd, hh⟩ := h.writeChan hin c (threshold (P c x y))
  exact ⟨img', by simp [thresholdChan, h.2 x y c hin, hw], hd, hh⟩

/-- One neighbour update of one channel, on planes (R86, R87). -/
theorem diffuseChan_holds (h : img.holds P) (hin : img.inside x y) (w : Nat) {e : ErrLatch} {c : Chan}
    {ec : BitVec 9} (he : e.get c = some ec) :
    ∃ img', diffuseChan x y w e img c = some img' ∧ img'.sameDims img ∧
      img'.holds (P.upd c ((P c).set x y (diffuse (P c x y) w ec))) := by
  obtain ⟨img', hw, hd, hh⟩ := h.writeChan hin c (diffuse (P c x y) w ec)
  exact ⟨img', by simp [diffuseChan, h.2 x y c hin, he, hw], hd, hh⟩

/-- The latches of a visit: channel c's error from channel c's value (R84). -/
def visitLatch (P : Planes) (x y : Nat) : ErrLatch :=
  { r := quantError (P .r x y) (threshold (P .r x y)),
    g := quantError (P .g x y) (threshold (P .g x y)),
    b := quantError (P .b x y) (threshold (P .b x y)) }

/-- Planes with each colour plane mapped by f and alpha by fa. -/
def mapPlanes (f : Chan → Plane → Plane) (fa : Plane → Plane) (P : Planes) : Planes
  | .r => f .r (P .r)
  | .g => f .g (P .g)
  | .b => f .b (P .b)
  | .a => fa (P .a)

/-- The three thresholds of a visit. -/
theorem thresholds_holds (h : img.holds P) (hin : img.inside x y) (e : ErrLatch) :
    ∃ img', colours.foldlM (thresholdChan x y) (img, e) = some (img', visitLatch P x y) ∧
      img'.sameDims img ∧
      img'.holds (mapPlanes (fun _ p => p.set x y (threshold (p x y))) id P) := by
  obtain ⟨i1, h1, d1, k1⟩ := thresholdChan_holds h hin e .r
  obtain ⟨i2, h2, d2, k2⟩ := thresholdChan_holds k1 (d1.inside.2 hin)
    (e.set .r (quantError (P .r x y) (threshold (P .r x y)))) .g
  simp only [Planes.upd, reduceCtorEq, if_false] at h2
  obtain ⟨i3, h3, d3, k3⟩ := thresholdChan_holds k2 ((d2.trans d1).inside.2 hin)
    ((e.set .r (quantError (P .r x y) (threshold (P .r x y)))).set .g
      (quantError (P .g x y) (threshold (P .g x y)))) .b
  simp only [Planes.upd, reduceCtorEq, if_false] at h3
  refine ⟨i3, ?_, d3.trans (d2.trans d1), k3.1, ?_⟩
  · simp only [colours, List.foldlM_cons, List.foldlM_nil, h1, h2, h3, Option.bind_eq_bind, Option.bind_some]
    rfl
  · intro x' y' c hc
    rw [k3.2 x' y' c hc]
    cases c <;> rfl

/-- The updates of one neighbour, each channel with its own error (R85, R98). -/
theorem diffuseNeighbour_holds (h : img.holds P) (e : ErrLatch) (n : Neighbour) :
    ∃ img', diffuseNeighbour x y e img n = some img' ∧ img'.sameDims img ∧
      img'.holds (mapPlanes
        (fun c p => planeDiffuse img.w img.h x y ((e.get c).getD 0) p n) id P) := by
  unfold diffuseNeighbour
  cases hn : neighbourAt img.w img.h x y n with
  | none =>
    refine ⟨img, rfl, ⟨rfl, rfl⟩, h.1, fun x' y' c hc => ?_⟩
    rw [h.2 x' y' c hc]
    cases c <;> simp [mapPlanes, planeDiffuse, hn]
  | some q =>
    obtain ⟨nx, ny⟩ := q
    have hin : img.inside nx ny := by
      unfold neighbourAt at hn
      split at hn
      · simp only [Option.some.injEq, Prod.mk.injEq] at hn
        rw [Image.inside]; omega
      · cases hn
    obtain ⟨i1, h1, d1, k1⟩ := diffuseChan_holds h hin n.weight (e := e) (c := .r) rfl
    obtain ⟨i2, h2, d2, k2⟩ := diffuseChan_holds k1 (d1.inside.2 hin) n.weight (e := e) (c := .g) rfl
    obtain ⟨i3, h3, d3, k3⟩ := diffuseChan_holds k2 ((d2.trans d1).inside.2 hin) n.weight (e := e) (c := .b) rfl
    refine ⟨i3, ?_, d3.trans (d2.trans d1), k3.1, ?_⟩
    · simp only [colours, List.foldlM_cons, List.foldlM_nil, h1, h2, h3, Option.bind_eq_bind, Option.bind_some]
      rfl
    · intro x' y' c hc
      rw [k3.2 x' y' c hc]
      cases c <;> simp only [mapPlanes, planeDiffuse, hn] <;> rfl

/-- The updates of a list of neighbours. -/
theorem diffuseAll_holds (e : ErrLatch) (ns : List Neighbour) :
    ∀ {img : Image} {P : Planes}, img.holds P →
    ∃ img', ns.foldlM (diffuseNeighbour x y e) img = some img' ∧ img'.sameDims img ∧
      img'.holds (mapPlanes
        (fun c p => ns.foldl (planeDiffuse img.w img.h x y ((e.get c).getD 0)) p) id P) := by
  induction ns with
  | nil =>
    intro img P h
    refine ⟨img, rfl, ⟨rfl, rfl⟩, h.1, fun x' y' c hc => ?_⟩
    rw [h.2 x' y' c hc]; cases c <;> rfl
  | cons n ns ih =>
    intro img P h
    obtain ⟨i1, h1, d1, k1⟩ := diffuseNeighbour_holds (x := x) (y := y) h e n
    obtain ⟨i2, h2, d2, k2⟩ := ih k1
    refine ⟨i2, by simp [List.foldlM_cons, h1, h2], d2.trans d1, k2.1, fun x' y' c hc => ?_⟩
    rw [k2.2 x' y' c hc, d1.1, d1.2]
    cases c <;> rfl

/-- THE VISIT (R88): on a full image and a pixel inside it always completes, keeps the image full and of
its dimensions, does to each colour plane what the lane's visit does (R98), writes 255 to the visited
pixel's alpha and to no other (R90), and leaves in E the errors of the values it read. -/
theorem visit_holds (h : img.holds P) (hin : img.inside x y) (e : ErrLatch) :
    ∃ img', visit x y (img, e) = some (img', visitLatch P x y) ∧ img'.sameDims img ∧
      img'.holds (mapPlanes (fun _ p => planeVisit img.w img.h x y p) (fun p => p.set x y 255) P) := by
  obtain ⟨i1, h1, d1, k1⟩ := thresholds_holds h hin e
  obtain ⟨i2, h2, d2, k2⟩ := k1.writeChan (d1.inside.2 hin) .a 255
  obtain ⟨i3, h3, d3, k3⟩ := diffuseAll_holds (x := x) (y := y) (visitLatch P x y) neighbours k2
  refine ⟨i3, ?_, d3.trans (d2.trans d1), k3.1, fun x' y' c hc => ?_⟩
  · simp only [visit, h1, h2, h3, Option.bind_eq_bind, Option.bind_some]; rfl
  · rw [k3.2 x' y' c hc, (d2.trans d1).1, (d2.trans d1).2]
    cases c <;> simp [mapPlanes, planeVisit, Planes.upd, ErrLatch.get, visitLatch]

end Machine

end Sys2Proof
end

