-- ==== Sys2Proof/Laws/Pixels.lean ====
section
/-! SUPPORT. The pixel access (R42) said once: four channel accesses, reading back what was written, and all pixels of a full image. -/

/-- The bits of the pixel word (R66). -/
theorem Sys2Proof.Pixel.getLsbD_toWord (p : Sys2Proof.Pixel) (i : Nat) :
    p.toWord.getLsbD i =
      if i < 8 then p.r.getLsbD i
      else if i - 8 < 8 then p.g.getLsbD (i - 8)
      else if i - 8 - 8 < 8 then p.b.getLsbD (i - 8 - 8) else p.a.getLsbD (i - 8 - 8 - 8) := by
  have h : p.toWord.getLsbD i = (p.a ++ p.b ++ p.g ++ p.r : BitVec (8 + 8 + 8 + 8)).getLsbD i := rfl
  rw [h]
  simp only [BitVec.getLsbD_append]

namespace Sys2Proof.Image

variable {img : Image} {x y : Nat}

/-- A pixel access reads the four channels of the pixel (R42). -/
theorem readPixel_eq (hin : img.inside x y) (p : Pixel) :
    img.readPixel x y = some p ↔ ∀ c, img.readChan x y c = some (p.chan c) := by
  have ha : ∀ c : Chan, chanAddr img.w x y c = chanAddr img.w x y .r + c.idx := fun c => rfl
  rw [readPixel, if_pos hin]
  simp only [readChan_inside hin, Memory.readPixel]
  constructor
  · intro h
    simp only [Option.bind_eq_bind, Option.bind_eq_some_iff] at h
    obtain ⟨r, hr, g, hg, b, hb, a, ha', hp⟩ := h
    cases hp
    intro c; rw [ha c]; cases c <;> assumption
  · intro h
    have hr := h .r; have hg := h .g; have hb := h .b; have hA := h .a
    rw [ha .g] at hg; rw [ha .b] at hb; rw [ha .a] at hA
    simp only [Chan.idx] at hg hb hA
    simp [hr, hg, hb, hA, Pixel.chan]

theorem full.readPixel (h : img.full) (hin : img.inside x y) : ∃ p, img.readPixel x y = some p := by
  obtain ⟨r, hr⟩ := h.readChan hin .r
  obtain ⟨g, hg⟩ := h.readChan hin .g
  obtain ⟨b, hb⟩ := h.readChan hin .b
  obtain ⟨a, ha⟩ := h.readChan hin .a
  exact ⟨⟨r, g, b, a⟩, (readPixel_eq hin _).2 (by intro c; cases c <;> assumption)⟩

theorem readPixel_outside (h : ¬ img.inside x y) : img.readPixel x y = none := if_neg h

theorem writePixel_outside (h : ¬ img.inside x y) (p : Pixel) : img.writePixel x y p = none := if_neg h

/-- A pixel write is four channel writes (R42): the pixel reads back, no other channel changes, and a full
image stays full. -/
theorem writePixel_cases {p : Pixel} {img' : Image} (h : img.writePixel x y p = some img') :
    img.inside x y ∧ img'.sameDims img ∧ (img.full → img'.full) ∧ (img.px.wf → img'.px.wf) ∧
    ∀ x' y' c, img'.readChan x' y' c =
      if x' = x ∧ y' = y then some (p.chan c) else img.readChan x' y' c := by
  unfold writePixel at h
  split at h
  swap
  · cases h
  rename_i hin
  cases h
  obtain ⟨i1, e1⟩ : ∃ i, img.writeChan x y .r p.r = some i := ⟨_, writeChan_inside hin _⟩
  have c1 := writeChan_cases e1
  have hin1 : i1.inside x y := by unfold inside; rw [c1.2.1, c1.2.2.1]; exact hin
  obtain ⟨i2, e2⟩ : ∃ i, i1.writeChan x y .g p.g = some i := ⟨_, writeChan_inside hin1 _⟩
  have c2 := writeChan_cases e2
  have hin2 : i2.inside x y := by unfold inside; rw [c2.2.1, c2.2.2.1]; exact hin1
  obtain ⟨i3, e3⟩ : ∃ i, i2.writeChan x y .b p.b = some i := ⟨_, writeChan_inside hin2 _⟩
  have c3 := writeChan_cases e3
  have hin3 : i3.inside x y := by unfold inside; rw [c3.2.1, c3.2.2.1]; exact hin2
  obtain ⟨i4, e4⟩ : ∃ i, i3.writeChan x y .a p.a = some i := ⟨_, writeChan_inside hin3 _⟩
  have c4 := writeChan_cases e4
  have hi : ({ img with px := img.px.writePixel (chanAddr img.w x y .r) p } : Image) = i4 := by
    obtain ⟨w, hh, px⟩ := i4
    obtain ⟨_, h1, h2, h3⟩ := c4
    simp only at h1 h2 h3
    obtain ⟨-, g1, g2, g3⟩ := c3
    obtain ⟨-, f1, f2, f3⟩ := c2
    obtain ⟨-, d1, d2, d3⟩ := c1
    rw [h1, h2, h3, g1, g2, g3, f1, f2, f3, d1, d2, d3]
    rfl
  rw [hi]
  refine ⟨hin, ⟨?_, ?_⟩, fun hf => ?_, fun hw => ?_, fun x' y' c => ?_⟩
  · rw [c4.2.1, c3.2.1, c2.2.1, c1.2.1]
  · rw [c4.2.2.1, c3.2.2.1, c2.2.2.1, c1.2.2.1]
  · exact full_writeChan e4 (full_writeChan e3 (full_writeChan e2 (full_writeChan e1 hf)))
  · exact wf_writeChan e4 (wf_writeChan e3 (wf_writeChan e2 (wf_writeChan e1 hw)))
  · rw [readChan_writeChan e4, readChan_writeChan e3, readChan_writeChan e2, readChan_writeChan e1]
    by_cases hp : x' = x ∧ y' = y
    · cases c <;> simp [hp, Pixel.chan]
    · simp only [hp, false_and, if_false, ← and_assoc]

theorem readPixel_ofPixels {w h : Nat} {l : List Pixel} {p : Pixel} (hx : x < w) (hy : y < h)
    (hp : l[y * w + x]? = some p) : (ofPixels w h l).readPixel x y = some p := by
  rw [readPixel_eq (img := ofPixels w h l) ⟨hx, hy⟩]
  intro c
  rw [readChan_ofPixels l hx hy, hp]; rfl

/-- The pixels of a full image, in row-major order, make the image (R11, R72). -/
theorem full.pixels (h : img.full) :
    ∃ px, img.pixels = some px ∧ px.length = img.w * img.h ∧ ofPixels img.w img.h px = img := by
  have hm : ∀ l : List (Nat × Nat), (∀ q ∈ l, img.inside q.1 q.2) →
      ∃ px, l.mapM (fun p => img.readPixel p.1 p.2) = some px ∧ px.length = l.length ∧
        ∀ (k : Nat) (q : Nat × Nat), l[k]? = some q → ∃ p, px[k]? = some p ∧ img.readPixel q.1 q.2 = some p := by
    intro l
    induction l with
    | nil => intro _; exact ⟨[], rfl, rfl, by simp⟩
    | cons q l ih =>
      intro hl
      obtain ⟨px, h1, h2, h3⟩ := ih fun q' hq => hl q' (List.mem_cons_of_mem _ hq)
      obtain ⟨p, hp⟩ := h.readPixel (hl q List.mem_cons_self)
      refine ⟨p :: px, by simp [List.mapM_cons, hp, h1], by simp [h2], fun k q' hk => ?_⟩
      cases k with
      | zero => simp only [List.getElem?_cons_zero, Option.some.injEq] at hk; subst hk; exact ⟨p, rfl, hp⟩
      | succ k => simpa using h3 k q' (by simpa using hk)
  obtain ⟨px, h1, h2, h3⟩ := hm (rowMajor img.w img.h) (fun (q : Nat × Nat) hq => mem_rowMajor.1 hq)
  rw [length_rowMajor] at h2
  refine ⟨px, h1, h2, ext_of_full (full_ofPixels h2) h ⟨rfl, rfl⟩ fun x y c hin => ?_⟩
  have hin' : img.inside x y := hin
  have hlt := rowMajor_lt hin'.1 hin'.2
  have hq : (rowMajor img.w img.h)[y * img.w + x]? = some (x, y) := by
    have := drop_rowMajor hin'.1 hin'.2
    have h0 := congrArg (fun l => l[0]?) this
    simpa using h0
  obtain ⟨p, hp, hr⟩ := h3 _ _ hq
  rw [readChan_ofPixels px hin'.1 hin'.2, hp, ((readPixel_eq hin' p).1 hr) c]
  rfl

end Sys2Proof.Image
end

