-- ==== Sys2Proof/Laws/Plane.lean ====
section
/-! SUPPORT. One lane of the dither (R98): where a visit writes, value by value. -/

namespace Sys2Proof.Machine

variable {w h x y : Nat} {e : BitVec 9} {p : Plane}

theorem neighbourAt_some {n : Neighbour} {q : Nat × Nat} (hn : neighbourAt w h x y n = some q) :
    (q.1 : Int) = x + n.dx ∧ (q.2 : Int) = y + n.dy ∧ q.1 < w ∧ q.2 < h := by
  unfold neighbourAt at hn
  split at hn
  · simp only [Option.some.injEq] at hn
    subst hn
    simp only
    omega
  · cases hn

/-- A neighbour is never the pixel itself (R83, R85). -/
theorem neighbourAt_ne_self {n : Neighbour} (hm : n ∈ neighbours) : neighbourAt w h x y n ≠ some (x, y) := by
  intro hn
  obtain ⟨h1, h2, -, -⟩ := neighbourAt_some hn
  simp only [neighbours, List.mem_cons, List.not_mem_nil, or_false] at hm
  rcases hm with rfl | rfl | rfl | rfl <;> simp at h1 h2

/-- Different neighbours are different pixels (R93). -/
theorem neighbourAt_inj {n m : Neighbour} (hn : n ∈ neighbours) (hm : m ∈ neighbours) {q : Nat × Nat}
    (h1 : neighbourAt w h x y n = some q) (h2 : neighbourAt w h x y m = some q) : n = m := by
  obtain ⟨a1, a2, -, -⟩ := neighbourAt_some h1
  obtain ⟨b1, b2, -, -⟩ := neighbourAt_some h2
  simp only [neighbours, List.mem_cons, List.not_mem_nil, or_false] at hn hm
  rcases hn with rfl | rfl | rfl | rfl <;> rcases hm with rfl | rfl | rfl | rfl <;>
    first | rfl | (simp only at a1 a2 b1 b2; omega)

/-- A neighbour lies later in the scan (R83). -/
theorem neighbourAt_later {n : Neighbour} (hm : n ∈ neighbours) (hx : x < w) {q : Nat × Nat}
    (hn : neighbourAt w h x y n = some q) : y * w + x < q.2 * w + q.1 := by
  obtain ⟨h1, h2, h3, -⟩ := neighbourAt_some hn
  obtain ⟨qx, qy⟩ := q
  simp only at h1 h2 h3 ⊢
  simp only [neighbours, List.mem_cons, List.not_mem_nil, or_false] at hm
  rcases hm with rfl | rfl | rfl | rfl <;> simp only at h1 h2
  · obtain rfl : qy = y := by omega
    omega
  all_goals
    obtain rfl : qy = y + 1 := by omega
    rw [Nat.add_mul]
    omega

theorem planeDiffuse_apply (n : Neighbour) (x' y' : Nat) :
    planeDiffuse w h x y e p n x' y' =
      if neighbourAt w h x y n = some (x', y') then diffuse (p x' y') n.weight e else p x' y' := by
  unfold planeDiffuse
  cases hn : neighbourAt w h x y n with
  | none => simp
  | some q =>
    obtain ⟨nx, ny⟩ := q
    simp only [Plane.set_apply, Option.some.injEq, Prod.mk.injEq]
    by_cases hq : x' = nx ∧ y' = ny
    · obtain ⟨rfl, rfl⟩ := hq; simp
    · rw [if_neg hq, if_neg (fun hh => hq ⟨hh.1.symm, hh.2.symm⟩)]

/-- Neighbour updates commute (R93). -/
theorem planeDiffuse_comm {n m : Neighbour} (hn : n ∈ neighbours) (hm : m ∈ neighbours) (p : Plane) :
    planeDiffuse w h x y e (planeDiffuse w h x y e p n) m = planeDiffuse w h x y e (planeDiffuse w h x y e p m) n := by
  by_cases hnm : n = m
  · rw [hnm]
  funext x' y'
  simp only [planeDiffuse_apply]
  by_cases h1 : neighbourAt w h x y n = some (x', y') <;> by_cases h2 : neighbourAt w h x y m = some (x', y')
  · exact absurd (neighbourAt_inj hn hm h1 h2) hnm
  all_goals simp [h1, h2]

/-- A place that is no neighbour's keeps its value. -/
theorem foldl_planeDiffuse_other {ns : List Neighbour} {x' y' : Nat}
    (hns : ∀ n ∈ ns, neighbourAt w h x y n ≠ some (x', y')) (p : Plane) :
    ns.foldl (planeDiffuse w h x y e) p x' y' = p x' y' := by
  induction ns generalizing p with
  | nil => rfl
  | cons n ns ih =>
    rw [List.foldl_cons, ih (fun m hm => hns m (List.mem_cons_of_mem _ hm)), planeDiffuse_apply,
      if_neg (hns n List.mem_cons_self)]

/-- A neighbour's place gets that neighbour's update. -/
theorem foldl_planeDiffuse_neighbour {n : Neighbour} (hn : n ∈ neighbours) {nx ny : Nat}
    (hat : neighbourAt w h x y n = some (nx, ny)) (p : Plane) :
    neighbours.foldl (planeDiffuse w h x y e) p nx ny = diffuse (p nx ny) n.weight e := by
  have hp : neighbours.Perm (n :: neighbours.erase n) := List.perm_cons_erase hn
  rw [hp.foldl_eq' (fun a ha b hb z => planeDiffuse_comm ha hb z), List.foldl_cons,
    foldl_planeDiffuse_other, planeDiffuse_apply, if_pos hat]
  intro m hm hm'
  have hnd : neighbours.Nodup := by decide
  obtain ⟨hne, hmem⟩ := (hnd.mem_erase_iff).1 hm
  exact hne (neighbourAt_inj hmem hn hm' hat)

/-- The visited place of a lane holds the threshold's output (R83). -/
theorem planeVisit_self : planeVisit w h x y p x y = threshold (p x y) := by
  rw [planeVisit, foldl_planeDiffuse_other (fun n hn => neighbourAt_ne_self hn), Plane.set_apply, if_pos ⟨rfl, rfl⟩]

/-- An inside neighbour's place holds its update (R86). -/
theorem planeVisit_neighbour {n : Neighbour} (hn : n ∈ neighbours) {nx ny : Nat}
    (hat : neighbourAt w h x y n = some (nx, ny)) :
    planeVisit w h x y p nx ny = diffuse (p nx ny) n.weight (quantError (p x y) (threshold (p x y))) := by
  rw [planeVisit, foldl_planeDiffuse_neighbour hn hat, Plane.set_apply, if_neg]
  rintro ⟨rfl, rfl⟩
  exact neighbourAt_ne_self hn hat

/-- Every other place is kept. -/
theorem planeVisit_other {x' y' : Nat} (hne : ¬ (x' = x ∧ y' = y))
    (hns : ∀ n ∈ neighbours, neighbourAt w h x y n ≠ some (x', y')) :
    planeVisit w h x y p x' y' = p x' y' := by
  rw [planeVisit, foldl_planeDiffuse_other hns, Plane.set_apply, if_neg hne]

/-- A visit writes nothing that comes before the visited pixel in the scan (R83). -/
theorem planeVisit_earlier {x' y' : Nat} (hx : x < w) (hlt : y' * w + x' < y * w + x) :
    planeVisit w h x y p x' y' = p x' y' := by
  refine planeVisit_other ?_ fun n hn hat => ?_
  · rintro ⟨rfl, rfl⟩; omega
  · have := neighbourAt_later hn hx hat
    simp only at this
    omega

end Sys2Proof.Machine
end

