-- ==== Sys2Proof/Laws/Scan.lean ====
section
/-! SUPPORT. Scans: a whole scan keeps what each pixel keeps, the sequencer's scan phases compute the stage functions' scans, and what packing and extracting one pixel does to the result image. -/

namespace Sys2Proof

open Machine

/-- An invariant of position and value that each pixel's processing carries one position further holds
at the end of the scan; and the scan completes. -/
theorem Machine.scan_completes {α : Type} {w h : Nat} (f : Nat → Nat → α → Option α) (I : Nat → α → Prop)
    (hf : ∀ x y a, x < w → y < h → I (y * w + x) a → ∃ b, f x y a = some b ∧ I (y * w + x + 1) b)
    {n : Nat} (hn : n ≤ w * h) {a : α} (ha : I n a) :
    ∃ b, ((Image.rowMajor w h).drop n).foldlM (fun acc p => f p.1 p.2 acc) a = some b ∧ I (w * h) b := by
  induction hk : w * h - n generalizing n a with
  | zero =>
    obtain rfl : n = w * h := by omega
    refine ⟨a, ?_, ha⟩
    rw [List.drop_eq_nil_of_le (by simp)]
    rfl
  | succ k ih =>
    have hw : 0 < w := Nat.pos_of_ne_zero (by rintro rfl; simp at hk)
    have hx : n % w < w := Nat.mod_lt _ hw
    have hy : n / w < h := Nat.div_lt_of_lt_mul (by omega)
    have hpos : n / w * w + n % w = n := by rw [Nat.mul_comm]; exact Nat.div_add_mod n w
    have hd := Image.drop_rowMajor hx hy
    obtain ⟨b, hb, hI⟩ := hf (n % w) (n / w) a hx hy (by rwa [hpos])
    rw [hpos] at hd hI
    obtain ⟨c, hc, hC⟩ := ih (n := n + 1) (by omega) hI (by omega)
    exact ⟨c, by simp [hd, hb, hc], hC⟩

/-- The whole scan. -/
theorem Machine.scanAll_completes {α : Type} {w h : Nat} (f : Nat → Nat → α → Option α) (I : Nat → α → Prop)
    (hf : ∀ x y a, x < w → y < h → I (y * w + x) a → ∃ b, f x y a = some b ∧ I (y * w + x + 1) b)
    {a : α} (ha : I 0 a) : ∃ b, scanAll w h f a = some b ∧ I (w * h) b := by
  simpa [scanAll] using scan_completes f I hf (Nat.zero_le _) ha

/-- Row-major position after one pixel (R24). -/
theorem Machine.advance_position {s : State} {w h : Nat} (hx : s.x < w) (hy : s.y < h) :
    scanAt w h (s.advance w).x (s.advance w).y ∧
      (s.advance w).y * w + (s.advance w).x = s.y * w + s.x + 1 := by
  have := s.advance_xy w
  simp only [Prod.ext_iff] at this
  obtain ⟨h1, h2⟩ := this
  split at h1
  · rename_i hw
    rw [if_pos hw] at h2
    simp only at h1 h2
    rw [h1, h2]
    refine ⟨?_, by rw [Nat.add_mul]; omega⟩
    by_cases hl : s.y + 1 < h
    · exact Or.inl ⟨by omega, hl⟩
    · exact Or.inr ⟨rfl, Or.inl (by omega)⟩
  · rename_i hw
    rw [if_neg hw] at h2
    simp only at h1 h2
    rw [h1, h2]
    exact ⟨Or.inl ⟨by omega, hy⟩, by omega⟩

theorem Machine.scanAt_zero (w h : Nat) : scanAt w h 0 0 := by
  unfold scanAt
  rcases Nat.eq_zero_or_pos w with rfl | hw
  · simp
  rcases Nat.eq_zero_or_pos h with rfl | hh
  · simp
  exact Or.inl ⟨hw, hh⟩

/-- A scan position is at the end exactly when the scan is done (R24), and then it has passed every pixel. -/
theorem Machine.scanAt.cases {w h x y : Nat} (hs : scanAt w h x y) :
    (¬ scanDone w h y ∧ x < w ∧ y < h) ∨ (scanDone w h y ∧ x = 0 ∧ y * w + x = w * h) := by
  rcases hs with ⟨h1, h2⟩ | ⟨rfl, rfl | ⟨rfl, rfl⟩⟩
  · left; unfold scanDone; omega
  · right; exact ⟨Or.inr rfl, rfl, by rw [Nat.mul_comm, Nat.add_zero]⟩
  · right; simp [scanDone]

/-- With no host move pending, a step is the block's own. -/
theorem Machine.step_of_script_nil {s : State} (h : s.script = []) : step s = runBlock s := by
  simp [step, advanceScript, h]

theorem Machine.step_busy {s : State} (h : s.script = []) (hb : s.status = .busy) : step s = stepPhase s := by
  rw [step_of_script_nil h, runBlock, if_pos hb]

theorem core_run_succ (k : Nat) {s t : State} (h : step s = .next t) : core.run (k + 1) s = core.run k t := by
  have h' : core.step s = .next t := h
  simp only [Host.Core.run, h']

@[simp] theorem core_run_zero (s : State) : core.run 0 s = .next s := rfl

/-- Runs compose. -/
theorem core_run_add {j k : Nat} {s t : State} (h : core.run j s = .next t) : core.run (j + k) s = core.run k t := by
  induction j generalizing s with
  | zero =>
    rw [core_run_zero] at h
    cases h
    rw [Nat.zero_add]
  | succ j ih =>
    rw [show j + 1 + k = (j + k) + 1 by omega]
    cases hs : step s with
    | next u => rw [core_run_succ _ hs] at h ⊢; exact ih h
    | fault r =>
      have hs' : core.step s = .fault r := hs
      simp only [Host.Core.run, hs'] at h
      cases h
    | refused r =>
      have hs' : core.step s = .refused r := hs
      simp only [Host.Core.run, hs'] at h
      cases h

/-- A SCAN PHASE COMPUTES ITS SCAN. `get` and `set` are the value the phase works on, `f` its work on one
pixel, `P` what stays true of the state, `leave` the state the phase's last step goes to. -/
theorem Machine.run_scan {α : Type} {w h : Nat} (f : Nat → Nat → α → Option α) (get : State → α)
    (set : State → α → State) (leave : State → State) (P : State → Prop)
    (hdone : ∀ s, P s → scanDone w h s.y → step s = .next (leave s))
    (hstep : ∀ s a, P s → s.x < w → s.y < h → f s.x s.y (get s) = some a →
      step s = .next ((set s a).advance w) ∧ P ((set s a).advance w))
    (hget : ∀ s a, get ((set s a).advance w) = a)
    (hxy : ∀ s a, (set s a).x = s.x ∧ (set s a).y = s.y)
    (hset : ∀ s a b, leave (set ((set s a).advance w) b) = leave (set s b))
    (hid : ∀ s, leave (set s (get s)) = leave s)
    {s : State} (hP : P s) (hs : scanAt w h s.x s.y) {b : α}
    (hb : ((Image.rowMajor w h).drop (s.y * w + s.x)).foldlM (fun acc p => f p.1 p.2 acc) (get s) = some b) :
    core.run (w * h - (s.y * w + s.x) + 1) s = .next (leave (set s b)) := by
  induction hk : w * h - (s.y * w + s.x) generalizing s with
  | zero =>
    rcases hs.cases with ⟨-, hx, hy⟩ | ⟨hd, -, hpos⟩
    · have := rowMajor_lt hx hy; omega
    · rw [List.drop_eq_nil_of_le (by rw [Image.length_rowMajor]; omega)] at hb
      cases hb
      rw [hid, core_run_succ 0 (hdone s hP hd), core_run_zero]
  | succ k ih =>
    rcases hs.cases with ⟨-, hx, hy⟩ | ⟨-, -, hpos⟩
    · rw [Image.drop_rowMajor hx hy] at hb
      simp only [List.foldlM_cons, Option.bind_eq_bind] at hb
      cases hfa : f s.x s.y (get s) with
      | none => rw [hfa] at hb; cases hb
      | some a =>
        obtain ⟨h1, h2⟩ := hstep s a hP hx hy hfa
        obtain ⟨ex, ey⟩ := hxy s a
        obtain ⟨h3, h4⟩ := advance_position (s := set s a) (w := w) (h := h) (by omega) (by omega)
        rw [ex, ey] at h4
        rw [hfa, Option.bind_some] at hb
        rw [core_run_succ _ h1, ih h2 h3 (by rw [h4, hget]; exact hb) (by omega), hset]
    · omega

/-- The image holds the first n pixels, and they are those of the planes. -/
def Image.holdsTo (img : Image) (n : Nat) (P : Planes) : Prop :=
  img.filledTo n ∧ ∀ x y c, img.inside x y → y * img.w + x < n → img.readChan x y c = some (P c x y)

theorem Image.holdsTo.holds {img : Image} {P : Planes} (h : img.holdsTo (img.w * img.h) P) : img.holds P :=
  ⟨h.1, fun x y c hin => h.2 x y c hin (rowMajor_lt hin.1 hin.2)⟩

theorem Image.blank_holdsTo (w h : Nat) (P : Planes) : (Image.blank w h).holdsTo 0 P :=
  ⟨rfl, fun _ _ _ _ h => absurd h (Nat.not_lt_zero _)⟩

/-- Writing the four channels of the next pixel. -/
theorem Image.holdsTo.next {img : Image} {P : Planes} {x y : Nat} (h : img.holdsTo (y * img.w + x) P)
    (hin : img.inside x y) :
    ∃ i1 i2 i3 i4, img.writeChan x y .r (P .r x y) = some i1 ∧ i1.writeChan x y .g (P .g x y) = some i2 ∧
      i2.writeChan x y .b (P .b x y) = some i3 ∧ i3.writeChan x y .a (P .a x y) = some i4 ∧
      i4.sameDims img ∧ i4.holdsTo (y * img.w + x + 1) P := by
  have e : ∀ px c v, ({ img with px := px } : Image).writeChan x y c v
      = some { img with px := px.write (chanAddr img.w x y c) v } := fun px c v => if_pos hin
  refine ⟨_, _, _, _, e img.px _ _, e _ _ _, e _ _ _, e _ _ _, ⟨rfl, rfl⟩, ?_, ?_⟩
  · have h0 := filledTo_iff.1 h.1
    rw [filledTo_iff]
    refine ⟨Memory.wf_write (Memory.wf_write (Memory.wf_write (Memory.wf_write h0.1 _ _) _ _) _ _) _ _, fun a => ?_⟩
    simp only [Memory.read_write, chanAddr, Chan.idx]
    have := h0.2 a
    split
    · simp; omega
    · split
      · simp; omega
      · split
        · simp; omega
        · split
          · simp; omega
          · rw [this]; omega
  · intro x' y' c hin' hlt
    rw [readChan_inside hin']
    have hr : ∀ c', (chanAddr img.w x' y' c = chanAddr img.w x y c') ↔ x' = x ∧ y' = y ∧ c = c' :=
      fun c' => chanAddr_inj hin'.1 hin.1
    simp only [Memory.read_write, hr]
    by_cases hxy : x' = x ∧ y' = y
    · obtain ⟨rfl, rfl⟩ := hxy
      cases c <;> simp
    · have hne : ∀ c', ¬ (x' = x ∧ y' = y ∧ c = c') := fun c' hc => hxy ⟨hc.1, hc.2.1⟩
      simp only [hne, if_false]
      rw [← readChan_inside (img := img) hin']
      refine h.2 x' y' c hin' ?_
      rcases Nat.lt_or_ge (y' * img.w + x') (y * img.w + x) with hl | hl
      · exact hl
      · exact absurd (rowMajor_inj hin'.1 hin.1 (show y' * img.w + x' = y * img.w + x by
          have : y' * img.w + x' < y * img.w + x + 1 := hlt
          omega)) hxy

/-- The planes of a combined image (R115, R116). -/
def packPlanes (D R : Planes) : Planes
  | .r => fun x y => muxNib (R .r x y) (D .r x y)
  | .g => fun x y => muxNib (R .g x y) (D .g x y)
  | .b => fun x y => muxNib (R .b x y) (D .b x y)
  | .a => fun _ _ => 255

/-- The planes of a reconstructed image (R128). -/
def extractPlanes (P : Planes) : Planes
  | .r => fun x y => extNib (P .r x y)
  | .g => fun x y => extNib (P .g x y)
  | .b => fun x y => extNib (P .b x y)
  | .a => fun _ _ => 255

/-- Packing the next pixel (R115). -/
theorem packPixel_holdsTo {d rc out : Image} {D R : Planes} (hd : d.holds D) (hr : rc.holds R)
    (h1 : out.sameDims d) (h2 : out.sameDims rc) {x y : Nat} (hin : out.inside x y)
    (h : out.holdsTo (y * out.w + x) (packPlanes D R)) :
    ∃ out', packPixel d rc x y out = some out' ∧ out'.sameDims out ∧
      out'.holdsTo (y * out.w + x + 1) (packPlanes D R) := by
  obtain ⟨i1, i2, i3, i4, e1, e2, e3, e4, hd4, hh⟩ := h.next hin
  refine ⟨i4, ?_, hd4, hh⟩
  simp only [packPlanes] at e1 e2 e3 e4
  simp [packPixel, packChan, colours, List.foldlM_cons, hd.2 x y _ (h1.inside.1 hin),
    hr.2 x y _ (h2.inside.1 hin), e1, e2, e3]
  exact e4

/-- Extracting the next pixel (R128). -/
theorem extractPixel_holdsTo {src out : Image} {P : Planes} (hs : src.holds P) (h1 : out.sameDims src)
    {x y : Nat} (hin : out.inside x y) (h : out.holdsTo (y * out.w + x) (extractPlanes P)) :
    ∃ out', extractPixel src x y out = some out' ∧ out'.sameDims out ∧
      out'.holdsTo (y * out.w + x + 1) (extractPlanes P) := by
  obtain ⟨i1, i2, i3, i4, e1, e2, e3, e4, hd4, hh⟩ := h.next hin
  refine ⟨i4, ?_, hd4, hh⟩
  simp only [extractPlanes] at e1 e2 e3 e4
  simp [extractPixel, extractChan, colours, List.foldlM_cons, hs.2 x y _ (h1.inside.1 hin), e1, e2, e3]
  exact e4

end Sys2Proof
end

