-- ==== Sys2Proof/Laws/Stages.lean ====
section
/-! SUPPORT. What the stage functions compute, on planes: dither lane by lane (R92, R98), pack (R118), unpack (R130) and resize (R106). -/

namespace Sys2Proof

open Machine

theorem colours_cases {c : Chan} (h : c ∈ colours) : c = .r ∨ c = .g ∨ c = .b := by
  revert h; cases c <;> decide

namespace Machine

/-- A list of visits, on planes: each colour plane gets the lane's visits, alpha gets 255 where visited. -/
theorem visits_holds (l : List (Nat × Nat)) :
    ∀ {img : Image} {P : Planes} (e : ErrLatch), img.holds P → (∀ q ∈ l, img.inside q.1 q.2) →
    ∃ out e', l.foldlM (fun acc q => visit q.1 q.2 acc) (img, e) = some (out, e') ∧ out.sameDims img ∧
      out.holds (mapPlanes (fun _ p => l.foldl (fun acc q => planeVisit img.w img.h q.1 q.2 acc) p)
        (fun p => l.foldl (fun acc q => Plane.set acc q.1 q.2 255) p) P) := by
  induction l with
  | nil =>
    intro img P e h _
    refine ⟨img, e, rfl, ⟨rfl, rfl⟩, h.1, fun x y c hc => ?_⟩
    rw [h.2 x y c hc]; cases c <;> rfl
  | cons q l ih =>
    intro img P e h hl
    obtain ⟨i1, h1, d1, k1⟩ := visit_holds h (hl q List.mem_cons_self) e
    obtain ⟨i2, e2, h2, d2, k2⟩ := ih (visitLatch P q.1 q.2) k1
      fun q' hq' => d1.inside.2 (hl q' (List.mem_cons_of_mem _ hq'))
    refine ⟨i2, e2, by simp [List.foldlM_cons, h1, h2], d2.trans d1, k2.1, fun x y c hc => ?_⟩
    rw [k2.2 x y c hc, d1.1, d1.2]
    cases c <;> rfl

theorem foldl_set_same (l : List (Nat × Nat)) (p : Plane) (v : Byte) (x y : Nat) :
    l.foldl (fun acc q => Plane.set acc q.1 q.2 v) p x y = if (x, y) ∈ l then v else p x y := by
  induction l generalizing p with
  | nil => simp
  | cons q l ih =>
    obtain ⟨a, b⟩ := q
    rw [List.foldl_cons, ih]
    by_cases h1 : (x, y) ∈ l
    · simp [h1]
    · simp [h1, Plane.set_apply]

/-- DITHER IN LANES (R92, R98): dither is total on full images; its planes are the single-channel dithers of
the image's planes, and its alphas are 255. -/
theorem ditherImage_holds {img : Image} {P : Planes} (h : img.holds P) (e : ErrLatch) :
    ∃ out e', scanAll img.w img.h visit (img, e) = some (out, e') ∧ out.sameDims img ∧
      out.holds (mapPlanes (fun _ p => ditherPlane img.w img.h p) (fun _ _ _ => 255) P) := by
  obtain ⟨out, e', h1, h2, h3⟩ := visits_holds (Image.rowMajor img.w img.h) e h
    fun q hq => Image.mem_rowMajor.1 hq
  refine ⟨out, e', h1, h2, h3.1, fun x y c hc => ?_⟩
  rw [h3.2 x y c hc]
  cases c with
  | a => simp [mapPlanes, foldl_set_same, Image.mem_rowMajor.2 (show (x, y).1 < img.w ∧ (x, y).2 < img.h from h2.inside.1 hc)]
  | _ => rfl

/-- A visit leaves the pixels before it dithered and makes its own dithered. -/
theorem visit_dithers {img : Image} (hf : img.full) {x y : Nat} (hin : img.inside x y) (e : ErrLatch)
    (hpre : ∀ x' y', img.inside x' y' → y' * img.w + x' < y * img.w + x → img.ditheredAt x' y') :
    ∃ img' e', visit x y (img, e) = some (img', e') ∧ img'.full ∧ img'.sameDims img ∧
      ∀ x' y', img'.inside x' y' → y' * img'.w + x' < y * img'.w + x + 1 → img'.ditheredAt x' y' := by
  obtain ⟨P, hP⟩ := hf.exists_holds
  obtain ⟨img', hv, hd, hh⟩ := visit_holds hP hin e
  refine ⟨img', _, hv, hh.1, hd, fun x' y' hin' hlt => ?_⟩
  have hi := hd.inside.1 hin'
  rw [hd.1] at hlt
  by_cases hxy : y' * img.w + x' = y * img.w + x
  · obtain ⟨rfl, rfl⟩ := rowMajor_inj hi.1 hin.1 hxy
    refine ⟨fun c hc => ?_, ?_⟩
    · have ht : ∀ v, threshold v = 0 ∨ threshold v = 255 := by
        intro v; unfold threshold; split <;> simp
      rw [hh.2 x' y' c hin']
      rcases colours_cases hc with rfl | rfl | rfl <;>
        simpa [mapPlanes, planeVisit_self] using ht _
    · rw [hh.2 x' y' .a hin']; simp [mapPlanes, Plane.set_apply]
  · obtain ⟨h1, h2⟩ := hpre x' y' hi (by omega)
    have hlt' : y' * img.w + x' < y * img.w + x := by omega
    refine ⟨fun c hc => ?_, ?_⟩
    · have := h1 c hc
      rw [hP.2 x' y' c hi] at this
      rw [hh.2 x' y' c hin']
      rcases colours_cases hc with rfl | rfl | rfl <;>
        simpa [mapPlanes, planeVisit_earlier hin.1 hlt'] using this
    · rw [hP.2 x' y' .a hi] at h2
      rw [hh.2 x' y' .a hin']
      have hne : ¬ (x' = x ∧ y' = y) := by rintro ⟨rfl, rfl⟩; omega
      simpa [mapPlanes, Plane.set_apply, hne] using h2

/-- The dither scan leaves a Dithered image (R95). -/
theorem ditherScan_dithered {img : Image} (hf : img.full) (e : ErrLatch) :
    ∃ out e', scanAll img.w img.h visit (img, e) = some (out, e') ∧ out.full ∧ out.sameDims img ∧ out.Dithered := by
  obtain ⟨⟨out, e'⟩, h1, h2, h3, h4⟩ := scanAll_completes (w := img.w) (h := img.h) visit
    (fun n st => st.1.full ∧ st.1.sameDims img ∧
      ∀ x y, st.1.inside x y → y * st.1.w + x < n → st.1.ditheredAt x y)
    (fun x y st hx hy hI => by
      obtain ⟨i, e⟩ := st
      obtain ⟨hf, hd, hp⟩ := hI
      have hin : i.inside x y := hd.inside.2 ⟨hx, hy⟩
      obtain ⟨i', e', a, b, c, d⟩ := visit_dithers hf hin e (by rw [hd.1]; rw [hd.1] at hp; exact hp)
      refine ⟨(i', e'), a, b, c.trans hd, ?_⟩
      have hw : i'.w = img.w := c.1.trans hd.1
      simpa [hw] using d)
    (a := (img, e)) ⟨hf, ⟨rfl, rfl⟩, fun _ _ _ h => absurd h (Nat.not_lt_zero _)⟩
  refine ⟨out, e', h1, h2, h3, fun x y hin => h4 x y hin ?_⟩
  have := rowMajor_lt hin.1 hin.2
  rw [← h3.1, ← h3.2]
  exact this

theorem ditherImage_of_scan {img out : Image} {e' : ErrLatch}
    (h : scanAll img.w img.h visit (img, ErrLatch.zero) = some (out, e')) : ditherImage img = some out := by
  rw [ditherImage, h]; rfl

/-- No error changes nothing (R94). -/
theorem diffuse_zero (v : Byte) (w : Nat) : diffuse v w 0 = v := by
  have hv := v.isLt
  have ht : diffuseSum v w 0 = 16 * (v.toNat : Int) := by simp [diffuseSum]
  unfold diffuse
  rw [ht]
  have h1 : ¬ (16 * (v.toNat : Int) < 0) := by omega
  simp only [if_neg h1]
  split
  · have : v.toNat = 255 := by omega
    exact (BitVec.eq_of_toNat_eq (by simp [this])).symm
  · apply BitVec.eq_of_toNat_eq
    rw [BitVec.toNat_ofInt, Int.shiftRight_eq_div_pow]
    omega

/-- A lane's visit of a 0 or a 255 changes nothing (R94). -/
theorem planeVisit_noop {w h x y : Nat} {p : Plane} (hp : p x y = 0 ∨ p x y = 255) : planeVisit w h x y p = p := by
  have ht : threshold (p x y) = p x y ∧ quantError (p x y) (threshold (p x y)) = 0 := by
    rcases hp with hp | hp <;> rw [hp] <;> decide
  have hset : p.set x y (p x y) = p := by
    funext x' y'
    rw [Plane.set_apply]
    split
    · rename_i hh; rw [hh.1, hh.2]
    · rfl
  have hd : ∀ (q : Plane) (n : Neighbour), planeDiffuse w h x y 0 q n = q := by
    intro q n
    funext x' y'
    rw [planeDiffuse_apply, diffuse_zero, ite_self]
  have hfold : ∀ (ns : List Neighbour) (q : Plane), ns.foldl (planeDiffuse w h x y 0) q = q := by
    intro ns
    induction ns with
    | nil => intro q; rfl
    | cons n ns ih => intro q; rw [List.foldl_cons, hd, ih]
  rw [planeVisit, ht.2, ht.1, hset, hfold]

/-- The single-channel dither of 0s and 255s changes nothing (R94). -/
theorem ditherPlane_noop {w h : Nat} {p : Plane} (hp : ∀ x y, x < w → y < h → p x y = 0 ∨ p x y = 255) :
    ditherPlane w h p = p := by
  have : ∀ l : List (Nat × Nat), (∀ q ∈ l, q.1 < w ∧ q.2 < h) →
      l.foldl (fun acc q => planeVisit w h q.1 q.2 acc) p = p := by
    intro l
    induction l with
    | nil => intro _; rfl
    | cons q l ih =>
      intro hl
      obtain ⟨h1, h2⟩ := hl q List.mem_cons_self
      rw [List.foldl_cons, planeVisit_noop (hp q.1 q.2 h1 h2), ih fun q' hq' => hl q' (List.mem_cons_of_mem _ hq')]
  exact this _ fun q hq => Image.mem_rowMajor.1 hq

/-- Packing a whole image (R118). -/
theorem packScan_holds {d rc : Image} {D R : Planes} (hd : d.holds D) (hr : rc.holds R) (hs : d.sameDims rc) :
    ∃ out, scanAll d.w d.h (packPixel d rc) (Image.blank d.w d.h) = some out ∧ out.sameDims d ∧
      out.holds (packPlanes D R) := by
  obtain ⟨out, h1, h2, h3⟩ := scanAll_completes (w := d.w) (h := d.h) (packPixel d rc)
    (fun n out => out.sameDims d ∧ out.holdsTo n (packPlanes D R))
    (fun x y out hx hy hI => by
      obtain ⟨hd', hh⟩ := hI
      obtain ⟨out', a, b, c⟩ := packPixel_holdsTo hd hr hd' (hd'.trans hs) (x := x) (y := y)
        (hd'.inside.2 ⟨hx, hy⟩) (by rw [hd'.1]; exact hh)
      exact ⟨out', a, b.trans hd', by rw [hd'.1] at c; exact c⟩)
    (a := Image.blank d.w d.h) ⟨⟨rfl, rfl⟩, Image.blank_holdsTo _ _ _⟩
  exact ⟨out, h1, h2, Image.holdsTo.holds (by rw [h2.1, h2.2]; exact h3)⟩

/-- Decoding a whole image (R130). -/
theorem decodeImage_holds {img : Image} {P : Planes} (h : img.holds P) :
    ∃ out, decodeImage img = some out ∧ out.sameDims img ∧ out.holds (extractPlanes P) := by
  obtain ⟨out, h1, h2, h3⟩ := scanAll_completes (w := img.w) (h := img.h) (extractPixel img)
    (fun n out => out.sameDims img ∧ out.holdsTo n (extractPlanes P))
    (fun x y out hx hy hI => by
      obtain ⟨hd', hh⟩ := hI
      obtain ⟨out', a, b, c⟩ := extractPixel_holdsTo h hd' (x := x) (y := y)
        (hd'.inside.2 ⟨hx, hy⟩) (by rw [hd'.1]; exact hh)
      exact ⟨out', a, b.trans hd', by rw [hd'.1] at c; exact c⟩)
    (a := Image.blank img.w img.h) ⟨⟨rfl, rfl⟩, Image.blank_holdsTo _ _ _⟩
  exact ⟨out, h1, h2, Image.holdsTo.holds (by rw [h2.1, h2.2]; exact h3)⟩

/-- The resampler's answer has exactly the target's pixels (R101, R106). -/
theorem length_resampled (src : Image) (tw th : Nat) : (resampled src tw th).length = tw * th := by
  unfold resampled
  split
  · rename_i h; simp [h]
  · simp

theorem full_resampledImage (src : Image) (tw th : Nat) : (resampledImage src tw th).full :=
  Image.full_ofPixels (length_resampled src tw th)

/-- Forcing alpha in the store is forcing alpha in each pixel (R105, R106). -/
theorem alphaTo255_ofPixels (w h : Nat) (l : List Pixel) :
    ({ Image.ofPixels w h l with px := (Image.ofPixels w h l).px.alphaTo255 } : Image)
      = Image.ofPixels w h (l.map fun p => { p with a := 255 }) := by
  have key : ∀ (l : List Pixel) (k : Nat), (Memory.ofBytes (4 * k) (l.flatMap Pixel.bytes)).alphaTo255
      = Memory.ofBytes (4 * k) ((l.map fun p : Pixel => ({ p with a := 255 } : Pixel)).flatMap Pixel.bytes) := by
    intro l
    induction l with
    | nil => intro k; rfl
    | cons p l ih =>
      intro k
      have h4 := ih (k + 1)
      have e0 : ¬ (4 * k % 4 = 3) := by omega
      have e1 : ¬ ((4 * k + 1) % 4 = 3) := by omega
      have e2 : ¬ ((4 * k + 1 + 1) % 4 = 3) := by omega
      have e3 : (4 * k + 1 + 1 + 1) % 4 = 3 := by omega
      have e4 : 4 * k + 1 + 1 + 1 + 1 = 4 * (k + 1) := by omega
      simp only [List.flatMap_cons, Pixel.bytes, List.cons_append, List.nil_append, Memory.ofBytes,
        Memory.alphaTo255, List.map_cons, e0, e1, e2, e3, e4, if_false, if_true] at h4 ⊢
      rw [← h4]
  simp only [Image.ofPixels]
  congr 1
  exact key l 0

/-- Dither, lane by lane (R98), with alpha 255 (R90). -/
theorem ditherImage_lanes {img : Image} {P : Planes} (h : img.holds P) : ∃ out, ditherImage img = some out ∧ out.sameDims img ∧
      out.holds (mapPlanes (fun _ p => ditherPlane img.w img.h p) (fun _ _ _ => 255) P) := by
  obtain ⟨out, e', h1, h2, h3⟩ := ditherImage_holds h ErrLatch.zero
  exact ⟨out, ditherImage_of_scan h1, h2, h3⟩

/-- A lane's visit depends on the values inside the image only (R85). -/
theorem planeVisit_congr {w h x y : Nat} {p q : Plane} (hx : x < w) (hy : y < h) (hpq : ∀ x y, x < w → y < h → p x y = q x y) :
   ∀ x' y', x' < w → y' < h → planeVisit w h x y p x' y' = planeVisit w h x y q x' y' := by
  intro x' y' hx' hy'
  by_cases hs : x' = x ∧ y' = y
  · obtain ⟨rfl, rfl⟩ := hs
    rw [planeVisit_self, planeVisit_self, hpq _ _ hx hy]
  · by_cases hn : ∀ n ∈ neighbours, neighbourAt w h x y n ≠ some (x', y')
    · rw [planeVisit_other hs hn, planeVisit_other hs hn, hpq _ _ hx' hy']
    · push Not at hn
      obtain ⟨n, hn, hat⟩ := hn
      rw [planeVisit_neighbour hn hat, planeVisit_neighbour hn hat, hpq _ _ hx hy, hpq _ _ hx' hy']

/-- So does a lane's whole scan. -/
theorem foldVisit_congr {w h : Nat} (l : List (Nat × Nat)) (hl : ∀ q ∈ l, q.1 < w ∧ q.2 < h) : ∀ {p q : Plane},
   (∀ x y, x < w → y < h → p x y = q x y) → ∀ x y, x < w → y < h →
   l.foldl (fun acc q => planeVisit w h q.1 q.2 acc) p x y = l.foldl (fun acc q => planeVisit w h q.1 q.2 acc) q x y := by
  induction l with
  | nil => intro p q h; exact h
  | cons a l ih =>
    intro p q hpq
    obtain ⟨h1, h2⟩ := hl a List.mem_cons_self
    exact ih (fun b hb => hl b (List.mem_cons_of_mem _ hb)) (planeVisit_congr h1 h2 hpq)

/-- An image of 0s and 255s dithers to itself, with alpha 255 (R94). -/
theorem ditherImage_blackWhite {img : Image} {P : Planes} (h : img.holds P)
   (hb : ∀ x y, img.inside x y → ∀ c ∈ colours, P c x y = 0 ∨ P c x y = 255) :
   ∃ out, ditherImage img = some out ∧ out.sameDims img ∧ out.holds (mapPlanes (fun _ p => p) (fun _ _ _ => 255) P) := by
  obtain ⟨out, h1, h2, h3⟩ := ditherImage_lanes h
  refine ⟨out, h1, h2, h3.1, fun x y c hc => ?_⟩
  rw [h3.2 x y c hc]
  have key : ∀ c ∈ colours, ditherPlane img.w img.h (P c) = P c := fun c hc => 
    ditherPlane_noop fun x y hx hy => hb x y ⟨hx, hy⟩ c hc
  cases c
  · simp only [mapPlanes, key .r (by decide)]
  · simp only [mapPlanes, key .g (by decide)]
  · simp only [mapPlanes, key .b (by decide)]
  · rfl

/-- Packing images of one size (R118). -/
theorem packImages_holds {d rc : Image} {D R : Planes} (hd : d.holds D) (hr : rc.holds R) (hs : d.sameDims rc) :
   ∃ out, packImages d rc = some (.ok out) ∧ out.sameDims d ∧ out.holds (packPlanes D R) := by
  obtain ⟨out, h1, h2, h3⟩ := packScan_holds hd hr hs
  refine ⟨out, ?_, h2, h3⟩
  rw [packImages, if_neg (by rw [hs.1, hs.2]; simp), h1]; rfl

/-- Encode, on planes: the dithered secret packed into the resized carrier, whose alpha is not read (R118, R119). -/
theorem encodeImages_holds {S C : Image} (hf : S.full) (hc : C.area = 0 → S.area = 0) :
   ∃ d out D R, ditherImage S = some d ∧ d.Dithered ∧ d.sameDims S ∧ d.holds D ∧ (resampledImage C S.w S.h).holds R ∧
     encodeImages S C = some (.ok out) ∧ out.sameDims d ∧ out.holds (packPlanes D R) := by
  obtain ⟨d, e', hs, h2, h3, h4⟩ := ditherScan_dithered hf ErrLatch.zero
  have h1 := ditherImage_of_scan hs
  obtain ⟨D, hD⟩ := h2.exists_holds
  obtain ⟨R, hR⟩ := (full_resampledImage C S.w S.h).exists_holds
  have hne : ¬ (C.area = 0 ∧ S.w * S.h ≠ 0) := fun h => h.2 (hc h.1)
  have hrs : resizeImage C S.w S.h
      = .ok (Image.ofPixels S.w S.h ((resampled C S.w S.h).map fun p => { p with a := 255 })) := by
    rw [resizeImage, if_neg hne]
  set rc := Image.ofPixels S.w S.h ((resampled C S.w S.h).map fun p => { p with a := 255 }) with hrc
  have hrcf : rc.full := Image.full_ofPixels (by simp [length_resampled])
  obtain ⟨R', hR'⟩ := hrcf.exists_holds
  have hsd : d.sameDims rc := h3
  obtain ⟨out, p1, p2, p3⟩ := packImages_holds hD hR' hsd
  refine ⟨d, out, D, R, h1, h4, h3, hD, hR, ?_, p2, p3.1, ?_⟩
  · have : ¬ (C.area = 0 ∧ S.area ≠ 0) := hne
    rw [encodeImages, if_neg this, h1]
    simp only [h3.1, h3.2, hrs, p1]
  · intro x y c hin
    rw [p3.2 x y c hin]
    have hin' : rc.inside x y := (p2.trans hsd).inside.1 hin
    have hRR : ∀ c ∈ colours, R' c x y = R c x y := by
      intro c hc
      have a := hR'.2 x y c hin'
      have b := hR.2 x y c hin'
      have hx : x < S.w := hin'.1
      have hy : y < S.h := hin'.2
      rw [hrc, Image.readChan_ofPixels _ hx hy] at a
      rw [resampledImage, Image.readChan_ofPixels _ hx hy] at b
      rw [List.getElem?_map] at a
      cases hk : (resampled C S.w S.h)[y * S.w + x]? with
      | none => rw [hk] at b; simp at b
      | some p =>
        rw [hk] at a b
        simp only [Option.map_some, Option.some.injEq] at a b
        rw [← a, ← b]
        rcases colours_cases hc with rfl | rfl | rfl <;> rfl
    cases c
    · simp [packPlanes, hRR .r (by decide)]
    · simp [packPlanes, hRR .g (by decide)]
    · simp [packPlanes, hRR .b (by decide)]
    · rfl

end Machine

end Sys2Proof
end

