-- ==== Sys2Proof/Laws/Sequencer.lean ====
section
/-! SUPPORT. The sequencer's steps, said once per phase, and the four commands run to their end. -/

namespace Sys2Proof

open Machine

namespace Machine

variable {s : State}

theorem State.advance_eq (s : State) (w : Nat) :
    s.advance w = { s with
      x := if s.x + 1 = w then 0 else s.x + 1, y := if s.x + 1 = w then s.y + 1 else s.y } := by
  unfold State.advance; split <;> simp

theorem stepPhase_dscan (h : s.phase = .dscan) : stepPhase s = stepDscan s := by rw [stepPhase, h]
theorem stepPhase_rsz (h : s.phase = .rsz) : stepPhase s = stepRsz s := by rw [stepPhase, h]
theorem stepPhase_mux (h : s.phase = .mux) : stepPhase s = stepMux s := by rw [stepPhase, h]
theorem stepPhase_ext (h : s.phase = .ext) : stepPhase s = stepExt s := by rw [stepPhase, h]
theorem stepPhase_fin (h : s.phase = .fin) : stepPhase s = stepFin s := by rw [stepPhase, h]

theorem stepFin_dither (h : s.op = .dither) : stepFin s = .next (finishDither s) := by rw [stepFin, h]
theorem stepFin_resize (h : s.op = .resize) : stepFin s = .next (finishResize s) := by rw [stepFin, h]
theorem stepFin_encode (h : s.op = .encode) : stepFin s = .next (finishEncode s) := by rw [stepFin, h]
theorem stepFin_decode (h : s.op = .decode) : stepFin s = .next (finishDecode s) := by rw [stepFin, h]

theorem stepDscan_done_dither (hd : scanDone s.dw.img.w s.dw.img.h s.y) (h : s.op = .dither) :
    stepDscan s = .next (s.setPc .fin 0 0) := by rw [stepDscan, if_pos hd, h]

theorem stepDscan_done_encode (hd : scanDone s.dw.img.w s.dw.img.h s.y) (h : s.op = .encode) :
    stepDscan s = .next (s.setPc .rsz 0 0) := by rw [stepDscan, if_pos hd, h]

theorem stepDscan_visit (hd : ¬ scanDone s.dw.img.w s.dw.img.h s.y) {img : Image} {e : ErrLatch}
    (h : visit s.x s.y (s.dw.img, s.e) = some (img, e)) :
    stepDscan s = .next ({ s with dw := { s.dw with img := img }, e := e }.advance s.dw.img.w) := by
  rw [stepDscan, if_neg hd, h]

theorem stepMux_done (hd : scanDone s.io.img.w s.io.img.h s.y) : stepMux s = .next (s.setPc .fin 0 0) := by
  rw [stepMux, if_pos hd]

theorem stepMux_pixel (hd : ¬ scanDone s.io.img.w s.io.img.h s.y) {img : Image}
    (h : packPixel s.dw.img s.rc.img s.x s.y s.io.img = some img) :
    stepMux s = .next ({ s with io := { s.io with img := img } }.advance s.io.img.w) := by
  rw [stepMux, if_neg hd, h]

theorem stepExt_done (hd : scanDone s.io.img.w s.io.img.h s.y) : stepExt s = .next (s.setPc .fin 0 0) := by
  rw [stepExt, if_pos hd]

theorem stepExt_pixel (hd : ¬ scanDone s.io.img.w s.io.img.h s.y) {img : Image}
    (h : extractPixel s.ia.img s.x s.y s.io.img = some img) :
    stepExt s = .next ({ s with io := { s.io with img := img } }.advance s.io.img.w) := by
  rw [stepExt, if_neg hd, h]

/-- The resampler step of RESIZE (R103). -/
theorem stepRsz_resize (h : s.op = .resize) :
    stepRsz s = .next ({ s with rc := { valid := true, img := resampledImage s.ia.img s.tw s.th } }.setPc .fin 0 0) := by
  simp only [stepRsz, resizeOperands, h]
  rfl

/-- The resampler step of ENCODE (R103, R113): the dimension check never fails (R120). -/
theorem stepRsz_encode (h : s.op = .encode) :
    stepRsz s = .next ({ s with
      rc := { valid := true, img := resampledImage s.ib.img s.dw.img.w s.dw.img.h },
      io := { valid := false, img := Image.blank s.dw.img.w s.dw.img.h } }.setPc .mux 0 0) := by
  simp only [stepRsz, resizeOperands, h, encodeAfterResize]
  rw [if_pos trivial, if_neg (by simp [resampledImage])]

end Machine

/-- An image filled to n pixels holds some planes that far. -/
theorem Image.filledTo.exists_holdsTo {img : Image} {n : Nat} (h : img.filledTo n) : ∃ P : Planes, img.holdsTo n P := by
  refine ⟨fun c x y => (img.readChan x y c).getD 0, h, fun x y c hin hlt => ?_⟩
  have : (img.px.read (chanAddr img.w x y c)).isSome := by
    rw [(filledTo_iff.1 h).2]
    have := c.idx_lt
    simp only [chanAddr]; omega
  obtain ⟨v, hv⟩ := Option.isSome_iff_exists.1 this
  simp [readChan_inside hin, hv]

/-- Writing the next pixel of a partly filled image: it is there, the image is filled one pixel further,
and every other channel is as before. -/
theorem Image.filledTo.next {img : Image} {x y : Nat} (hf : img.filledTo (y * img.w + x)) (hin : img.inside x y)
    (T : Planes) :
    ∃ i1 i2 i3 i4, img.writeChan x y .r (T .r x y) = some i1 ∧ i1.writeChan x y .g (T .g x y) = some i2 ∧
      i2.writeChan x y .b (T .b x y) = some i3 ∧ i3.writeChan x y .a (T .a x y) = some i4 ∧
      i4.sameDims img ∧ i4.filledTo (y * img.w + x + 1) ∧ (∀ c, i4.readChan x y c = some (T c x y)) ∧
      ∀ x' y' c, ¬ (x' = x ∧ y' = y) → i4.readChan x' y' c = img.readChan x' y' c := by
  obtain ⟨Q, hQ⟩ := hf.exists_holdsTo
  have hP : img.holdsTo (y * img.w + x) (fun c => (Q c).set x y (T c x y)) := by
    refine ⟨hQ.1, fun x' y' c hin' hlt => ?_⟩
    rw [hQ.2 x' y' c hin' hlt]
    have : ¬ (x' = x ∧ y' = y) := by rintro ⟨rfl, rfl⟩; omega
    simp [Plane.set_apply, this]
  obtain ⟨i1, i2, i3, i4, e1, e2, e3, e4, hd, hh⟩ := hP.next hin
  simp only [Plane.set_apply, and_self, if_true] at e1 e2 e3 e4
  refine ⟨i1, i2, i3, i4, e1, e2, e3, e4, hd, hh.1, fun c => ?_, fun x' y' c hne => ?_⟩
  · rw [hh.2 x y c (hd.inside.2 hin) (by rw [hd.1]; omega)]
    simp [Plane.set_apply]
  · have hne' : ∀ c', ¬ (x' = x ∧ y' = y ∧ c = c') := fun c' h => hne ⟨h.1, h.2.1⟩
    rw [readChan_writeChan e4, if_neg (hne' _), readChan_writeChan e3, if_neg (hne' _),
      readChan_writeChan e2, if_neg (hne' _), readChan_writeChan e1, if_neg (hne' _)]

/-- Packing the next pixel of a partly filled image (R115). -/
theorem packPixel_filledTo {d rc out : Image} (hd : d.full) (hr : rc.full) (h1 : out.sameDims d)
    (h2 : out.sameDims rc) {x y : Nat} (hin : out.inside x y) (hf : out.filledTo (y * out.w + x)) :
    ∃ out', packPixel d rc x y out = some out' ∧ out'.sameDims out ∧ out'.filledTo (y * out.w + x + 1) ∧
      out'.readChan x y .a = some 255 ∧
      (∀ c ∈ colours, ∃ vr vd, rc.readChan x y c = some vr ∧ d.readChan x y c = some vd ∧
        out'.readChan x y c = some (muxNib vr vd)) ∧
      ∀ x' y' c, ¬ (x' = x ∧ y' = y) → out'.readChan x' y' c = out.readChan x' y' c := by
  obtain ⟨D, hD⟩ := hd.exists_holds
  obtain ⟨R, hR⟩ := hr.exists_holds
  obtain ⟨i1, i2, i3, i4, e1, e2, e3, e4, d4, f4, r4, o4⟩ := hf.next hin (packPlanes D R)
  simp only [packPlanes] at e1 e2 e3 e4
  refine ⟨i4, ?_, d4, f4, r4 .a, fun c hc => ⟨R c x y, D c x y, hR.2 _ _ c (h2.inside.1 hin),
    hD.2 _ _ c (h1.inside.1 hin), ?_⟩, o4⟩
  · simp [packPixel, packChan, colours, List.foldlM_cons, hD.2 x y _ (h1.inside.1 hin),
      hR.2 x y _ (h2.inside.1 hin), e1, e2, e3]
    exact e4
  · rw [r4]; rcases colours_cases hc with rfl | rfl | rfl <;> rfl

/-- Extracting the next pixel of a partly filled image (R128). -/
theorem extractPixel_filledTo {src out : Image} (hs : src.full) (h1 : out.sameDims src) {x y : Nat}
    (hin : out.inside x y) (hf : out.filledTo (y * out.w + x)) :
    ∃ out', extractPixel src x y out = some out' ∧ out'.sameDims out ∧ out'.filledTo (y * out.w + x + 1) ∧
      out'.readChan x y .a = some 255 ∧
      (∀ c ∈ colours, ∃ v, src.readChan x y c = some v ∧ out'.readChan x y c = some (extNib v)) ∧
      ∀ x' y' c, ¬ (x' = x ∧ y' = y) → out'.readChan x' y' c = out.readChan x' y' c := by
  obtain ⟨P, hP⟩ := hs.exists_holds
  obtain ⟨i1, i2, i3, i4, e1, e2, e3, e4, d4, f4, r4, o4⟩ := hf.next hin (extractPlanes P)
  simp only [extractPlanes] at e1 e2 e3 e4
  refine ⟨i4, ?_, d4, f4, r4 .a, fun c hc => ⟨P c x y, hP.2 _ _ c (h1.inside.1 hin), ?_⟩, o4⟩
  · simp [extractPixel, extractChan, colours, List.foldlM_cons, hP.2 x y _ (h1.inside.1 hin), e1, e2, e3]
    exact e4
  · rw [r4]; rcases colours_cases hc with rfl | rfl | rfl <;> rfl

namespace Machine

variable {s : State}

/-- The dither phase, run to its end from where it stands (R89, R92). -/
theorem run_dscan (hs : s.script = []) (hb : s.status = .busy) (hp : s.phase = .dscan)
    (ho : s.op = .dither ∨ s.op = .encode) (hf : s.dw.img.full) (hat : scanAt s.dw.img.w s.dw.img.h s.x s.y)
    {out : Image} {e : ErrLatch}
    (h : ((Image.rowMajor s.dw.img.w s.dw.img.h).drop (s.y * s.dw.img.w + s.x)).foldlM
      (fun acc p => visit p.1 p.2 acc) (s.dw.img, s.e) = some (out, e)) :
    core.run (s.dw.img.w * s.dw.img.h - (s.y * s.dw.img.w + s.x) + 1) s
      = .next ({ s with dw := { s.dw with img := out }, e := e }.setPc (if s.op = Op.dither then .fin else .rsz) 0 0) := by
  have key := run_scan (w := s.dw.img.w) (h := s.dw.img.h) visit (fun t => (t.dw.img, t.e))
    (fun t a => { t with dw := { t.dw with img := a.1 }, e := a.2 })
    (fun t : State => t.setPc (if t.op = Op.dither then .fin else .rsz) 0 0)
    (fun t => t.script = [] ∧ t.status = .busy ∧ t.phase = .dscan ∧ (t.op = .dither ∨ t.op = .encode) ∧
      t.dw.img.full ∧ t.dw.img.sameDims s.dw.img)
    (fun t ⟨a, b, c, d, _, f⟩ hd => by
      rw [step_busy a b, stepPhase_dscan c]
      rw [← f.1, ← f.2] at hd
      rcases d with d | d
      · rw [stepDscan_done_dither hd d, if_pos d]
      · rw [stepDscan_done_encode hd d, if_neg (by rw [d]; decide)])
    (fun t a ⟨h1, h2, h3, h4, h5, h6⟩ hx hy hv => by
      obtain ⟨i, er⟩ := a
      have hin : t.dw.img.inside t.x t.y := h6.inside.2 ⟨hx, hy⟩
      have hnd : ¬ scanDone t.dw.img.w t.dw.img.h t.y := by
        unfold scanDone; have := hin.1; have := hin.2; omega
      refine ⟨by rw [step_busy h1 h2, stepPhase_dscan h3, stepDscan_visit hnd hv, h6.1], ?_⟩
      obtain ⟨P, hP⟩ := h5.exists_holds
      obtain ⟨i', hv', hd, hh⟩ := visit_holds hP hin t.e
      rw [hv] at hv'
      cases hv'
      simp only [State.advance_script, State.advance_status, State.advance_phase, State.advance_op, State.advance_dw]
      exact ⟨h1, h2, h3, h4, hh.1, hd.trans h6⟩)
    (fun t a => by simp) (fun t a => ⟨rfl, rfl⟩)
    (fun t a b => by rw [State.advance_eq]; rfl) (fun t => rfl)
    (s := s) ⟨hs, hb, hp, ho, hf, rfl, rfl⟩ hat h
  exact key

/-- The pack phase, run to its end from where it stands (R115). -/
theorem run_mux (hs : s.script = []) (hb : s.status = .busy) (hp : s.phase = .mux)
    (hd : s.dw.img.full) (hr : s.rc.img.full) (h1 : s.io.img.sameDims s.dw.img) (h2 : s.io.img.sameDims s.rc.img)
    (hf : s.io.img.filledTo (s.y * s.io.img.w + s.x)) (hat : scanAt s.io.img.w s.io.img.h s.x s.y) {out : Image}
    (h : ((Image.rowMajor s.io.img.w s.io.img.h).drop (s.y * s.io.img.w + s.x)).foldlM
      (fun acc p => packPixel s.dw.img s.rc.img p.1 p.2 acc) s.io.img = some out) :
    core.run (s.io.img.w * s.io.img.h - (s.y * s.io.img.w + s.x) + 1) s
      = .next ({ s with io := { s.io with img := out } }.setPc .fin 0 0) := by
  have key := run_scan (w := s.io.img.w) (h := s.io.img.h) (packPixel s.dw.img s.rc.img) (fun t => t.io.img)
    (fun t a => { t with io := { t.io with img := a } })
    (fun t => t.setPc .fin 0 0)
    (fun t => t.script = [] ∧ t.status = .busy ∧ t.phase = .mux ∧ t.dw = s.dw ∧ t.rc = s.rc ∧
      t.io.img.sameDims s.io.img ∧ t.io.img.filledTo (t.y * t.io.img.w + t.x))
    (fun t ⟨a, b, c, _, _, f, _⟩ hdn => by
      rw [step_busy a b, stepPhase_mux c]
      rw [← f.1, ← f.2] at hdn
      rw [stepMux_done hdn])
    (fun t a ⟨g1, g2, g3, g4, g5, g6, g7⟩ hx hy hv => by
      have hin : t.io.img.inside t.x t.y := g6.inside.2 ⟨hx, hy⟩
      have hnd : ¬ scanDone t.io.img.w t.io.img.h t.y := by
        unfold scanDone; have := hin.1; have := hin.2; omega
      refine ⟨by rw [step_busy g1 g2, stepPhase_mux g3, stepMux_pixel hnd (by rw [g4, g5]; exact hv), g6.1], ?_⟩
      obtain ⟨i', hv', hd', hh, -⟩ := packPixel_filledTo hd hr (g6.trans h1) (g6.trans h2) hin g7
      rw [hv] at hv'
      cases hv'
      have hpos := (advance_position (s := { t with io := { t.io with img := a } }) (w := s.io.img.w)
        (h := s.io.img.h) hx hy).2
      simp only [State.advance_script, State.advance_status, State.advance_phase, State.advance_dw,
        State.advance_rc, State.advance_io]
      refine ⟨g1, g2, g3, g4, g5, hd'.trans g6, ?_⟩
      rw [(hd'.trans g6).1, hpos]
      rw [g6.1] at hh
      exact hh)
    (fun t a => by simp) (fun t a => ⟨rfl, rfl⟩)
    (fun t a b => by rw [State.advance_eq]; rfl) (fun t => rfl)
    (s := s) ⟨hs, hb, hp, rfl, rfl, ⟨rfl, rfl⟩, hf⟩ hat h
  exact key

/-- The extract phase, run to its end from where it stands (R128). -/
theorem run_ext (hs : s.script = []) (hb : s.status = .busy) (hp : s.phase = .ext)
    (ha : s.ia.img.full) (h1 : s.io.img.sameDims s.ia.img)
    (hf : s.io.img.filledTo (s.y * s.io.img.w + s.x)) (hat : scanAt s.io.img.w s.io.img.h s.x s.y) {out : Image}
    (h : ((Image.rowMajor s.io.img.w s.io.img.h).drop (s.y * s.io.img.w + s.x)).foldlM
      (fun acc p => extractPixel s.ia.img p.1 p.2 acc) s.io.img = some out) :
    core.run (s.io.img.w * s.io.img.h - (s.y * s.io.img.w + s.x) + 1) s
      = .next ({ s with io := { s.io with img := out } }.setPc .fin 0 0) := by
  have key := run_scan (w := s.io.img.w) (h := s.io.img.h) (extractPixel s.ia.img) (fun t => t.io.img)
    (fun t a => { t with io := { t.io with img := a } })
    (fun t => t.setPc .fin 0 0)
    (fun t => t.script = [] ∧ t.status = .busy ∧ t.phase = .ext ∧ t.ia = s.ia ∧
      t.io.img.sameDims s.io.img ∧ t.io.img.filledTo (t.y * t.io.img.w + t.x))
    (fun t ⟨a, b, c, _, f, _⟩ hdn => by
      rw [step_busy a b, stepPhase_ext c]
      rw [← f.1, ← f.2] at hdn
      rw [stepExt_done hdn])
    (fun t a ⟨g1, g2, g3, g4, g6, g7⟩ hx hy hv => by
      have hin : t.io.img.inside t.x t.y := g6.inside.2 ⟨hx, hy⟩
      have hnd : ¬ scanDone t.io.img.w t.io.img.h t.y := by
        unfold scanDone; have := hin.1; have := hin.2; omega
      refine ⟨by rw [step_busy g1 g2, stepPhase_ext g3, stepExt_pixel hnd (by rw [g4]; exact hv), g6.1], ?_⟩
      obtain ⟨i', hv', hd', hh, -⟩ := extractPixel_filledTo ha (g6.trans h1) hin g7
      rw [hv] at hv'
      cases hv'
      have hpos := (advance_position (s := { t with io := { t.io with img := a } }) (w := s.io.img.w)
        (h := s.io.img.h) hx hy).2
      simp only [State.advance_script, State.advance_status, State.advance_phase, State.advance_ia, State.advance_io]
      refine ⟨g1, g2, g3, g4, hd'.trans g6, ?_⟩
      rw [(hd'.trans g6).1, hpos]
      rw [g6.1] at hh
      exact hh)
    (fun t a => by simp) (fun t a => ⟨rfl, rfl⟩)
    (fun t a b => by rw [State.advance_eq]; rfl) (fun t => rfl)
    (s := s) ⟨hs, hb, hp, rfl, ⟨rfl, rfl⟩, hf⟩ hat h
  exact key

/-- The finish step, run (R91, R105, R117, R129). -/
theorem run_fin {s t : State} (hs : s.script = []) (hb : s.status = .busy) (hp : s.phase = .fin) (h : stepFin s = .next t) :
  core.run 1 s = .next t :=
  (core_run_succ 0 ((step_busy hs hb).trans ((stepPhase_fin hp).trans h))).trans rfl

/-- The dither phase, run from its first pixel. -/
theorem run_dscan_whole {s : State} (hs : s.script = []) (hb : s.status = .busy) (hp : s.phase = .dscan)
    (ho : s.op = .dither ∨ s.op = .encode) (hx : s.x = 0) (hy : s.y = 0) (hf : s.dw.img.full)
    {out : Image} {e : ErrLatch}
    (h : scanAll s.dw.img.w s.dw.img.h visit (s.dw.img, s.e) = some (out, e)) :
    core.run (s.dw.img.area + 1) s
      = .next ({ s with dw := { s.dw with img := out }, e := e }.setPc (if s.op = Op.dither then .fin else .rsz) 0 0) := by
  have hr := run_dscan (out := out) (e := e) hs hb hp ho hf (by rw [hx, hy]; exact scanAt_zero _ _)
    (by rw [hx, hy]; simpa [scanAll] using h)
  rwa [hx, hy, Nat.zero_mul, Nat.zero_add, Nat.sub_zero] at hr

/-- The extract phase, run from its first pixel. -/
theorem run_ext_whole {s : State} (hs : s.script = []) (hb : s.status = .busy) (hp : s.phase = .ext)
    (ha : s.ia.img.full) (h1 : s.io.img.sameDims s.ia.img) (hx : s.x = 0) (hy : s.y = 0)
    (hf : s.io.img.filledTo 0) {out : Image}
    (h : scanAll s.io.img.w s.io.img.h (extractPixel s.ia.img) s.io.img = some out) :
    core.run (s.io.img.area + 1) s = .next ({ s with io := { s.io with img := out } }.setPc .fin 0 0) := by
  have hr := run_ext (out := out) hs hb hp ha h1 (by rw [hx, hy]; simpa using hf) (by rw [hx, hy]; exact scanAt_zero _ _)
    (by rw [hx, hy]; simpa [scanAll] using h)
  rwa [hx, hy, Nat.zero_mul, Nat.zero_add, Nat.sub_zero] at hr

/-- The pack phase, run from its first pixel. -/
theorem run_mux_whole {s : State} (hs : s.script = []) (hb : s.status = .busy) (hp : s.phase = .mux)
    (hd : s.dw.img.full) (hr : s.rc.img.full) (h1 : s.io.img.sameDims s.dw.img) (h2 : s.io.img.sameDims s.rc.img)
    (hx : s.x = 0) (hy : s.y = 0)
    (hf : s.io.img.filledTo 0) {out : Image}
    (h : scanAll s.io.img.w s.io.img.h (packPixel s.dw.img s.rc.img) s.io.img = some out) :
    core.run (s.io.img.area + 1) s = .next ({ s with io := { s.io with img := out } }.setPc .fin 0 0) := by
  have hr := run_mux (out := out) hs hb hp hd hr h1 h2 (by rw [hx, hy]; simpa using hf) (by rw [hx, hy]; exact scanAt_zero _ _)
    (by rw [hx, hy]; simpa [scanAll] using h)
  rwa [hx, hy, Nat.zero_mul, Nat.zero_add, Nat.sub_zero] at hr

end Machine

end Sys2Proof
end

