-- ==== Sys2Proof/Laws/Step.lean ====
section
/-! SUPPORT. What a step can do, said once: every transaction, every sequencer step, every script line. -/

namespace Sys2Proof.Machine

variable {s t u : State}

theorem sameBlock.refl (s : State) : sameBlock s s := rfl

theorem sameBlock.noted (s : State) (m : TxMark) (r : Reply) : sameBlock s (s.noted m r) := rfl

theorem sameBlock.trans (h : sameBlock s t) (h' : sameBlock t u) : sameBlock s u := by
  rw [sameBlock] at *; rw [h', h]

/-- A free answer leaves the block and the moment of free values as they are (R54). -/
theorem answeredFree_sameBlock {m : TxMark} {r : Reply} (h : answeredFree m r s = .next t) : sameBlock s t := by
  cases h; rfl

theorem sameBlock.reg (h : sameBlock s t) (r : ImgName) : t.reg r = s.reg r := by
  rw [sameBlock] at h; rw [h]; cases r <;> rfl
theorem sameBlock.status (h : sameBlock s t) : t.status = s.status := by rw [sameBlock] at h; rw [h]
theorem sameBlock.err (h : sameBlock s t) : t.err = s.err := by rw [sameBlock] at h; rw [h]
theorem sameBlock.tw (h : sameBlock s t) : t.tw = s.tw := by rw [sameBlock] at h; rw [h]
theorem sameBlock.th (h : sameBlock s t) : t.th = s.th := by rw [sameBlock] at h; rw [h]
theorem sameBlock.script (h : sameBlock s t) : t.script = s.script := by rw [sameBlock] at h; rw [h]

theorem hostGetAs_sameBlock {out : Pixel → Reply} {r : ImgName} {x y : Nat}
    (h : hostGetAs out r x y s = .next t) : sameBlock s t := by
  unfold hostGetAs at h
  split at h
  · exact answeredFree_sameBlock h
  · split at h
    · split at h
      · cases h; rfl
      · exact answeredFree_sameBlock h
    · exact answeredFree_sameBlock h

theorem hostReadValid_sameBlock {r : ImgName} (h : hostReadValid r s = .next t) : sameBlock s t := by
  unfold hostReadValid at h
  split at h <;> (cases h; rfl)

theorem hostReadDim_sameBlock {f : HostReg} {g : Image → Nat} {r : ImgName} (h : hostReadDim f g r s = .next t) :
    sameBlock s t := by
  unfold hostReadDim at h
  split at h
  · exact answeredFree_sameBlock h
  · split at h <;> (cases h; rfl)

theorem hostReadNowhere_sameBlock {n : Nat} (h : hostReadNowhere n s = .next t) : sameBlock s t := by
  unfold hostReadNowhere at h
  split at h <;> exact answeredFree_sameBlock h

theorem hostDims_sameBlock {r : ImgName} (h : hostDims r s = .next t) : sameBlock s t := by
  unfold hostDims at h
  split at h
  · exact answeredFree_sameBlock h
  · split at h
    · cases h; rfl
    · exact answeredFree_sameBlock h

/-- A read by number changes nothing of the block (R54). -/
theorem hostReadNum_sameBlock {n x y : Nat} (h : hostReadNum n x y s = .next t) : sameBlock s t := by
  unfold hostReadNum at h
  split at h
  · cases h; rfl
  · cases h; rfl
  · cases h; rfl
  · cases h; rfl
  · cases h; rfl
  · exact hostReadValid_sameBlock h
  · exact hostReadDim_sameBlock h
  · exact hostReadDim_sameBlock h
  · exact hostGetAs_sameBlock h
  · exact hostReadNowhere_sameBlock h

/-- A read whose needs are met answers the pixel, in the form asked for (R8, R66). -/
theorem hostGetAs_answers {out : Pixel → Reply} {r : ImgName} {x y : Nat} {p : Pixel}
    (hb : s.status ≠ .busy) (hv : (s.reg r).valid = true) (hp : (s.reg r).img.readPixel x y = some p) :
    hostGetAs out r x y s = .next (s.noted .done (out p)) := by
  simp only [hostGetAs, if_neg hb, if_pos hv, hp, answered]

/-- A read whose needs are met answers the pixel (R8). -/
theorem hostGet_answers {r : ImgName} {x y : Nat} {p : Pixel} (hb : s.status ≠ .busy) (hv : (s.reg r).valid = true)
    (hp : (s.reg r).img.readPixel x y = some p) : hostGet r x y s = .next (s.noted .done (.pixel p)) :=
  hostGetAs_answers hb hv hp

/-- VALID read by number answers the bit (R53). -/
theorem hostReadValid_answers {r : ImgName} (hb : s.status ≠ .busy) :
    hostReadValid r s = .next (s.noted .done (.word (s.reg r).valid.toNat)) := by
  simp only [hostReadValid, if_neg hb, answered]

/-- W or H of a register that holds an image, read by number (R53). -/
theorem hostReadDim_answers {f : HostReg} {g : Image → Nat} {r : ImgName} (hb : s.status ≠ .busy)
    (hv : (s.reg r).valid = true) : hostReadDim f g r s = .next (s.noted .done (.word (g (s.reg r).img))) := by
  simp only [hostReadDim, if_neg hb, if_pos hv, answered]

/-- The dimensions of a register that holds an image (R8, R28). -/
theorem hostDims_answers {r : ImgName} (hb : s.status ≠ .busy) (hv : (s.reg r).valid = true) :
    hostDims r s = .next (s.noted .done (.dims true (s.reg r).img.w (s.reg r).img.h)) := by
  simp only [hostDims, if_neg hb, if_pos hv, answered]

/-- A command byte does what its command's acceptance, or the illegal word's, does (R62, R65). -/
theorem hostWriteCmd_cases {v : Byte} (h : hostWriteCmd v s = .next t) :
    (∃ i, decodeByte v = some i ∧ exec i (s.noted .done .none) = .next t) ∨
    (decodeByte v = none ∧ illegalCommand (s.noted .done .none) = .next t) := by
  unfold hostWriteCmd at h
  split at h
  · rename_i i hi; exact .inl ⟨i, hi, h⟩
  · rename_i hi; exact .inr ⟨hi, h⟩

/-- The acceptance of a command, said once for all four: the operands it needs, and the state it starts from. -/
theorem exec_cases {i : Instr} (h : exec i s = .next t) :
    (s.status = .busy ∧ t = s.noted .ignored .none) ∨
    (s.status ≠ .busy ∧ t = (s.beginCommand (Op.ofInstr i)).raise .invalidImage) ∨
    (s.status ≠ .busy ∧ i = .dither ∧ s.ia.valid = true ∧
      t = { s.beginCommand .dither with dw := s.ia }.start .dscan) ∨
    (s.status ≠ .busy ∧ i = .resize ∧ s.ia.valid = true ∧ canSample s.ia.img s.tw s.th ∧
      t = (s.beginCommand .resize).start .rsz) ∨
    (s.status ≠ .busy ∧ i = .encode ∧ s.ia.valid = true ∧ s.ib.valid = true ∧
      canSample s.ib.img s.ia.img.w s.ia.img.h ∧ t = { s.beginCommand .encode with dw := s.ia }.start .dscan) ∨
    (s.status ≠ .busy ∧ i = .decode ∧ s.ia.valid = true ∧
      t = { s.beginCommand .decode with
        io := { valid := false, img := Image.blank s.ia.img.w s.ia.img.h } }.start .ext) := by
  cases i <;> simp only [exec, execDither, execResize, execEncode, execDecode] at h <;>
    rcases acceptCommand_cases h with ⟨hb, rfl⟩ | ⟨hb, e, he, rfl⟩ | ⟨hb, hc, rfl⟩
  · exact .inl ⟨hb, rfl⟩
  · cases check_some.1 he; exact .inr (.inl ⟨hb, rfl⟩)
  · exact .inr (.inr (.inl ⟨hb, rfl, checkDither_none.1 hc, rfl⟩))
  · exact .inl ⟨hb, rfl⟩
  · cases check_some.2.1 he; exact .inr (.inl ⟨hb, rfl⟩)
  · obtain ⟨h1, h2⟩ := checkResize_none.1 hc
    exact .inr (.inr (.inr (.inl ⟨hb, rfl, h1, h2, rfl⟩)))
  · exact .inl ⟨hb, rfl⟩
  · cases check_some.2.2.1 he; exact .inr (.inl ⟨hb, rfl⟩)
  · obtain ⟨h1, h2, h3⟩ := checkEncode_none.1 hc
    exact .inr (.inr (.inr (.inr (.inl ⟨hb, rfl, h1, h2, h3, rfl⟩))))
  · exact .inl ⟨hb, rfl⟩
  · cases check_some.2.2.2 he; exact .inr (.inl ⟨hb, rfl⟩)
  · exact .inr (.inr (.inr (.inr (.inr ⟨hb, rfl, checkDecode_none.1 hc, rfl⟩))))

/-- The acceptance of a byte that is no command (R65). -/
theorem illegalCommand_cases (h : illegalCommand s = .next t) :
    (s.status = .busy ∧ t = s.noted .ignored .none) ∨
    (s.status ≠ .busy ∧ t = (s.beginCommand .none).raise .illegalCommand) := by
  rcases acceptCommand_cases h with ⟨hb, rfl⟩ | ⟨hb, e, he, rfl⟩ | ⟨hb, hc, rfl⟩
  · exact .inl ⟨hb, rfl⟩
  · cases he; exact .inr ⟨hb, rfl⟩
  · cases hc

/-- What a host transaction can do (R8): nothing to the block; while not BUSY, a load, an invalidate or a put
of an operand register it names, a new TW or TH; or a CMD write. -/
theorem hostTx_cases {tx : HostTx} (h : hostTx tx s = .next t) :
    sameBlock s t ∨
    (s.status ≠ .busy ∧ ∃ r w hh px, tx = .load r w hh px ∧ r.hostOwned = true ∧
      t = (s.setReg r { valid := true, img := Image.ofPixels w hh px }).noted .done .none) ∨
    (s.status ≠ .busy ∧ ∃ r, tx.writesImage = some r ∧ r.hostOwned = true ∧
      t = (s.setReg r ImgReg.empty).noted .done .none) ∨
    (s.status ≠ .busy ∧ ∃ r x y p img, tx.writesImage = some r ∧ r.hostOwned = true ∧ (s.reg r).valid = true ∧
      (s.reg r).img.writePixel x y p = some img ∧
      t = (s.setReg r { valid := true, img := img }).noted .done .none) ∨
    (s.status ≠ .busy ∧ ∃ v, (tx.argsOk = true → fitsDim v) ∧
      (t = { s with tw := v }.noted .done .none ∨ t = { s with th := v }.noted .done .none)) ∨
    (tx.writesCmd = true ∧ ∃ v, hostWriteCmd v s = .next t) := by
  have same : ∀ {m r}, (Host.Outcome.next (s.noted m r) : Host.Outcome State Fault Refusal) = .next t →
      sameBlock s t := by intro m r h; cases h; rfl
  have put : ∀ r x y p, tx.writesImage = some r → hostPut r x y p s = .next t → sameBlock s t ∨
      (s.status ≠ .busy ∧ ∃ r x y p img, tx.writesImage = some r ∧ r.hostOwned = true ∧ (s.reg r).valid = true ∧
        (s.reg r).img.writePixel x y p = some img ∧
        t = (s.setReg r { valid := true, img := img }).noted .done .none) := by
    intro r x y p hw h
    unfold hostPut at h
    split at h
    · exact .inl (same h)
    · rename_i hb
      split at h
      · rename_i ho
        split at h
        · rename_i img hi; cases h; exact .inr ⟨hb, r, x, y, p, img, hw, ho.1, ho.2, hi, rfl⟩
        · exact .inl (same h)
      · exact .inl (same h)
  have inv : ∀ r, tx.writesImage = some r → hostInvalidate r s = .next t → sameBlock s t ∨
      (s.status ≠ .busy ∧ ∃ r, tx.writesImage = some r ∧ r.hostOwned = true ∧
        t = (s.setReg r ImgReg.empty).noted .done .none) := by
    intro r hw h
    unfold hostInvalidate at h
    split at h
    · exact .inl (same h)
    · rename_i hb
      split at h
      · rename_i ho; cases h; exact .inr ⟨hb, r, hw, ho, rfl⟩
      · exact .inl (same h)
  have tw : ∀ v, (tx.argsOk = true → fitsDim v) → hostWriteTw v s = .next t → sameBlock s t ∨
      (s.status ≠ .busy ∧ ∃ v, (tx.argsOk = true → fitsDim v) ∧
        (t = { s with tw := v }.noted .done .none ∨ t = { s with th := v }.noted .done .none)) := by
    intro v hv h
    unfold hostWriteTw at h
    split at h
    · exact .inl (same h)
    · rename_i hb; cases h; exact .inr ⟨hb, v, hv, .inl rfl⟩
  have th : ∀ v, (tx.argsOk = true → fitsDim v) → hostWriteTh v s = .next t → sameBlock s t ∨
      (s.status ≠ .busy ∧ ∃ v, (tx.argsOk = true → fitsDim v) ∧
        (t = { s with tw := v }.noted .done .none ∨ t = { s with th := v }.noted .done .none)) := by
    intro v hv h
    unfold hostWriteTh at h
    split at h
    · exact .inl (same h)
    · rename_i hb; cases h; exact .inr ⟨hb, v, hv, .inr rfl⟩
  have refused : hostWriteRefused s = .next t → sameBlock s t := by
    intro h
    unfold hostWriteRefused at h
    split at h <;> exact same h
  cases tx with
  | load r w hh px =>
    simp only [hostTx, hostLoad] at h
    split at h
    · exact .inl (same h)
    · rename_i hb
      split at h
      · rename_i ho; cases h; exact .inr (.inl ⟨hb, r, w, hh, px, rfl, ho, rfl⟩)
      · exact .inl (same h)
  | invalidate r => exact (inv r rfl h).imp_right fun h => .inr (.inl h)
  | put r x y p => exact (put r x y p rfl h).imp_right fun h => .inr (.inr (.inl h))
  | get r x y => exact .inl (hostGetAs_sameBlock h)
  | dims r => exact .inl (hostDims_sameBlock h)
  | writeTw v => exact (tw v (fun ha => of_decide_eq_true ha) h).imp_right fun h => .inr (.inr (.inr (.inl h)))
  | writeTh v => exact (th v (fun ha => of_decide_eq_true ha) h).imp_right fun h => .inr (.inr (.inr (.inl h)))
  | writeCmd v => exact .inr (.inr (.inr (.inr (.inr ⟨rfl, v, h⟩))))
  | readStatus => exact .inl (same h)
  | readErr => exact .inl (same h)
  | readTw => exact .inl (same h)
  | readTh => exact .inl (same h)
  | readCmd => exact .inl (same h)
  | readNum n x y => exact .inl (hostReadNum_sameBlock h)
  | writeNum n x y v =>
    simp only [hostTx, hostWriteNum] at h
    split at h
    · rename_i hn
      refine .inr (.inr (.inr (.inr (.inr ⟨?_, _, h⟩))))
      have : n = 0 := by
        unfold HostReg.ofNumber at hn
        split at hn
        · rfl
        all_goals try (cases hn)
        split at hn
        · cases hn
        · simp only [Option.map_eq_some_iff] at hn
          obtain ⟨r, -, hr⟩ := hn
          split at hr <;> cases hr
      simp [HostTx.writesCmd, this]
    · rename_i hn
      refine (tw v (fun ha => ?_) h).imp_right fun h => .inr (.inr (.inr (.inl h)))
      simp only [HostTx.argsOk, hn, Bool.and_eq_true, decide_eq_true_eq] at ha
      exact ha.1
    · rename_i hn
      refine (th v (fun ha => ?_) h).imp_right fun h => .inr (.inr (.inr (.inl h)))
      simp only [HostTx.argsOk, hn, Bool.and_eq_true, decide_eq_true_eq] at ha
      exact ha.1
    · rename_i r hn
      split at h
      · exact (inv r (by simp only [HostTx.writesImage, hn]) h).imp_right fun h => .inr (.inl h)
      · exact .inl (refused h)
    · rename_i r hn
      exact (put r x y _ (by simp only [HostTx.writesImage, hn]) h).imp_right fun h => .inr (.inr (.inl h))
    all_goals exact .inl (refused h)

/-- No transaction stops the machine. -/
theorem hostTx_next (tx : HostTx) (s : State) : ∃ t, hostTx tx s = .next t := by
  have cmd : ∀ v, ∃ t, hostWriteCmd v s = .next t := by
    intro v
    unfold hostWriteCmd
    split
    · rename_i i _
      cases i <;> simp only [exec, execDither, execResize, execEncode, execDecode] <;> exact acceptCommand_next _ _ _ _
    · exact acceptCommand_next _ _ _ _
  cases tx <;>
    simp only [hostTx, hostLoad, hostInvalidate, hostPut, hostGet, hostGetAs, hostDims, hostWriteTw, hostWriteTh,
      hostReadStatus, hostReadErr, hostReadTw, hostReadTh, hostReadCmd, hostReadNum, hostReadValid, hostReadDim, hostReadNowhere, hostWriteNum,
      hostWriteRefused, ignored, refusedTx, answered, answeredFree] <;>
    first
      | exact cmd _
      | exact ⟨_, rfl⟩
      | (repeat' split) <;> first | exact ⟨_, rfl⟩ | exact cmd _

/-- What the sequencer's step can do (R23): its pixel, its resampler call, or the change of phase. -/
theorem stepPhase_cases (h : stepPhase s = .next t) :
    (s.phase = .dscan ∧ scanDone s.dw.img.w s.dw.img.h s.y ∧ s.op = .dither ∧ t = s.setPc .fin 0 0) ∨
    (s.phase = .dscan ∧ scanDone s.dw.img.w s.dw.img.h s.y ∧ s.op = .encode ∧ t = s.setPc .rsz 0 0) ∨
    (s.phase = .dscan ∧ ¬ scanDone s.dw.img.w s.dw.img.h s.y ∧
      ∃ img e, visit s.x s.y (s.dw.img, s.e) = some (img, e) ∧
        t = { s with dw := { s.dw with img := img }, e := e }.advance s.dw.img.w) ∨
    (s.phase = .rsz ∧ s.op = .resize ∧
      t = { s with rc := { valid := true, img := resampledImage s.ia.img s.tw s.th } }.setPc .fin 0 0) ∨
    (s.phase = .rsz ∧ s.op = .encode ∧
      t = { s with
        rc := { valid := true, img := resampledImage s.ib.img s.dw.img.w s.dw.img.h },
        io := { valid := false, img := Image.blank s.dw.img.w s.dw.img.h } }.setPc .mux 0 0) ∨
    (s.phase = .mux ∧ scanDone s.io.img.w s.io.img.h s.y ∧ t = s.setPc .fin 0 0) ∨
    (s.phase = .mux ∧ ¬ scanDone s.io.img.w s.io.img.h s.y ∧
      ∃ img, packPixel s.dw.img s.rc.img s.x s.y s.io.img = some img ∧
        t = { s with io := { s.io with img := img } }.advance s.io.img.w) ∨
    (s.phase = .ext ∧ scanDone s.io.img.w s.io.img.h s.y ∧ t = s.setPc .fin 0 0) ∨
    (s.phase = .ext ∧ ¬ scanDone s.io.img.w s.io.img.h s.y ∧
      ∃ img, extractPixel s.ia.img s.x s.y s.io.img = some img ∧
        t = { s with io := { s.io with img := img } }.advance s.io.img.w) ∨
    (s.phase = .fin ∧ s.op = .dither ∧ t = s.publish s.dw.img) ∨
    (s.phase = .fin ∧ s.op = .resize ∧ t = s.publish { s.rc.img with px := s.rc.img.px.alphaTo255 }) ∨
    (s.phase = .fin ∧ (s.op = .encode ∨ s.op = .decode) ∧ t = s.publish s.io.img) := by
  obtain ⟨p, hp⟩ : ∃ p, s.phase = p := ⟨_, rfl⟩
  obtain ⟨o, ho⟩ : ∃ o, s.op = o := ⟨_, rfl⟩
  cases p with
  | none => rw [stepPhase, hp] at h; cases h
  | dscan =>
    rw [stepPhase_dscan hp] at h
    by_cases hd : scanDone s.dw.img.w s.dw.img.h s.y
    · cases o with
      | dither => rw [stepDscan_done_dither hd ho] at h; cases h; exact .inl ⟨hp, hd, ho, rfl⟩
      | encode => rw [stepDscan_done_encode hd ho] at h; cases h; exact .inr (.inl ⟨hp, hd, ho, rfl⟩)
      | _ => rw [stepDscan, if_pos hd, ho] at h; cases h
    · cases hv : visit s.x s.y (s.dw.img, s.e) with
      | none => rw [stepDscan, if_neg hd, hv] at h; cases h
      | some a => rw [stepDscan_visit hd hv] at h; cases h; exact .inr (.inr (.inl ⟨hp, hd, a.1, a.2, rfl, rfl⟩))
  | rsz =>
    rw [stepPhase_rsz hp] at h
    cases o with
    | resize => rw [stepRsz_resize ho] at h; cases h; exact .inr (.inr (.inr (.inl ⟨hp, ho, rfl⟩)))
    | encode => rw [stepRsz_encode ho] at h; cases h; exact .inr (.inr (.inr (.inr (.inl ⟨hp, ho, rfl⟩))))
    | _ => simp only [stepRsz, resizeOperands, ho] at h; cases h
  | mux =>
    rw [stepPhase_mux hp] at h
    refine .inr (.inr (.inr (.inr (.inr ?_))))
    by_cases hd : scanDone s.io.img.w s.io.img.h s.y
    · rw [stepMux_done hd] at h; cases h; exact .inl ⟨hp, hd, rfl⟩
    · cases hv : packPixel s.dw.img s.rc.img s.x s.y s.io.img with
      | none => rw [stepMux, if_neg hd, hv] at h; cases h
      | some a => rw [stepMux_pixel hd hv] at h; cases h; exact .inr (.inl ⟨hp, hd, a, rfl, rfl⟩)
  | ext =>
    rw [stepPhase_ext hp] at h
    refine .inr (.inr (.inr (.inr (.inr (.inr (.inr ?_))))))
    by_cases hd : scanDone s.io.img.w s.io.img.h s.y
    · rw [stepExt_done hd] at h; cases h; exact .inl ⟨hp, hd, rfl⟩
    · cases hv : extractPixel s.ia.img s.x s.y s.io.img with
      | none => rw [stepExt, if_neg hd, hv] at h; cases h
      | some a => rw [stepExt_pixel hd hv] at h; cases h; exact .inr (.inl ⟨hp, hd, a, rfl, rfl⟩)
  | fin =>
    rw [stepPhase_fin hp] at h
    refine .inr (.inr (.inr (.inr (.inr (.inr (.inr (.inr (.inr ?_))))))))
    cases o with
    | none => rw [stepFin, ho] at h; cases h
    | dither => rw [stepFin_dither ho] at h; cases h; exact .inl ⟨hp, ho, rfl⟩
    | resize => rw [stepFin_resize ho] at h; cases h; exact .inr (.inl ⟨hp, ho, rfl⟩)
    | encode => rw [stepFin_encode ho] at h; cases h; exact .inr (.inr ⟨hp, .inl ho, rfl⟩)
    | decode => rw [stepFin_decode ho] at h; cases h; exact .inr (.inr ⟨hp, .inr ho, rfl⟩)

/-- The step takes the script's first line when that is a transaction with well-formed arguments (R8, R71), and
counts it unless it is a read. -/
theorem step_tx {tx : HostTx} {rest : List ScriptLine} (hs : s.script = .tx tx :: rest) (ha : tx.argsOk = true) :
    step s = hostTx tx { s with script := rest, freeCtr := if tx.isRead then s.freeCtr else s.freeCtr + 1 } := by
  simp only [step, advanceScript, hs, scriptLine, ha, if_true, State.counted]

/-- What a step can do: a move of the script's bookkeeping alone, the platform's reset, one transaction, or one
step of the running command (log entry 4). -/
theorem step_cases (h : step s = .next t) :
    (∃ sc m r, t = { s with script := sc, mark := m, reply := r }) ∨
    (∃ rest, s.script = .reset :: rest ∧ t = resetBlock { s with script := rest }) ∨
    (∃ tx rest, s.script = .tx tx :: rest ∧ tx.argsOk = true ∧
      hostTx tx { s with script := rest, freeCtr := if tx.isRead then s.freeCtr else s.freeCtr + 1 } = .next t) ∨
    (s.status = .busy ∧ ∃ sc m r, stepPhase { s with script := sc, mark := m, reply := r } = .next t) := by
  have block : ∀ {sc m r}, runBlock { s with script := sc, mark := m, reply := r } = .next t →
      (∃ sc m r, t = { s with script := sc, mark := m, reply := r }) ∨
      (s.status = .busy ∧ ∃ sc m r, stepPhase { s with script := sc, mark := m, reply := r } = .next t) := by
    intro sc m r h
    unfold runBlock at h
    split at h
    · rename_i hb; exact .inr ⟨hb, sc, m, r, h⟩
    · cases h; exact .inl ⟨sc, m, r, rfl⟩
  unfold step advanceScript at h
  cases hs : s.script with
  | nil =>
    rw [hs] at h
    exact (block (sc := s.script) (m := s.mark) (r := s.reply) h).imp_right fun h => .inr (.inr h)
  | cons line rest =>
    rw [hs] at h
    cases line with
    | tx tx =>
      simp only [scriptLine] at h
      split at h
      · rename_i ha; exact .inr (.inr (.inl ⟨tx, rest, rfl, ha, h⟩))
      · cases h; exact .inl ⟨rest, _, _, rfl⟩
    | wait =>
      simp only [scriptLine, scriptWait] at h
      split at h
      · exact (block (sc := .wait :: rest) (m := .done) (r := .word s.status.code.toNat) h).imp_right fun h => .inr (.inr h)
      · cases h; exact .inl ⟨rest, _, _, rfl⟩
    | seq =>
      exact (block (sc := rest) (m := s.mark) (r := s.reply) h).imp_right fun h => .inr (.inr h)
    | reset => cases h; exact .inr (.inl ⟨rest, rfl, rfl⟩)
    | move r src =>
      simp only [scriptLine] at h
      split at h
      · split at h
        · cases h; exact .inl ⟨_, _, _, rfl⟩
        · cases h; exact .inl ⟨rest, _, _, rfl⟩
      · cases h; exact .inl ⟨rest, _, _, rfl⟩

end Sys2Proof.Machine
end

