-- ==== Sys2Proof/Laws/Invariant.lean ====
section
/-! SUPPORT. The invariant, part by part: which changes of the state keep it. -/

namespace Sys2Proof.Machine

/-- An image register that holds no image has a store in canonical form. -/
theorem ImgReg.empty_wf : ImgReg.empty.img.px.wf := List.Pairwise.nil

/-- The host's side is no part of the invariant. -/
theorem BlockInv.same {s t : State} (h : BlockInv s) (ht : ∃ sc m r f, t = { s with script := sc, mark := m, reply := r, freeCtr := f }) : BlockInv t := by
  obtain ⟨sc, m, r, f, rfl⟩ := ht
  exact ⟨fun r => by have := h.stores r; cases r <;> exact this, fun r => by have := h.images r; cases r <;> exact this, h.target, h.ioValid, h.errCode, h.running, h.order, h.alpha, h.work⟩

/-- The sequencer is idle unless BUSY (R23). -/
theorem BlockInv.phase_none {s : State} (h : BlockInv s) (hb : s.status ≠ .busy) : s.phase = .none := by
  by_contra hc; exact hb (h.running.1 hc)

/-- A host write of an operand register while not BUSY keeps the invariant (R16). -/
theorem BlockInv.setOperand {s : State} (h : BlockInv s) (hb : s.status ≠ .busy) {r : ImgName} (ho : r.hostOwned = true) {v : ImgReg}
    (hw : v.img.px.wf) (hv : v.valid = true → v.img.full ∧ v.img.fits) : BlockInv (s.setReg r v) := by
  have hreg : ∀ r', (s.setReg r v).reg r' = if r' = r then v else s.reg r' := fun r' => State.reg_setReg s r r' v
  have hio : (s.setReg r v).io = s.io := by cases r <;> first | rfl | cases ho
  have hp := h.phase_none hb
  have hwk := h.work
  simp only [workDone, hp] at hwk
  refine ⟨fun r' => ?_, fun r' => ?_, ?_, ?_, ?_, ?_, ?_, ?_, ?_⟩
  · rw [hreg]; split
    · exact hw
    · exact h.stores r'
  · rw [hreg]; split
    · exact hv
    · exact h.images r'
  · simpa using h.target
  · rw [hio]; simpa using h.ioValid
  · simpa using h.errCode
  · simpa using h.running
  · simpa using h.order
  · rw [hio]; exact h.alpha
  · simp only [workDone, State.setReg_phase, hp]; simpa using hwk

/-- Error entry keeps the invariant (R141). -/
theorem BlockInv.raise {s : State} (h : BlockInv s) {e : ErrCode} {o : Op} (he : e ≠ .none) : BlockInv ((s.beginCommand o).raise e) := by
  refine ⟨fun r => ?_, fun r => ?_, h.target, ?_, ?_, ?_, rfl, ?_, ⟨rfl, rfl⟩⟩
  · cases r
    · exact h.stores .ia
    · exact h.stores .ib
    all_goals exact ImgReg.empty_wf
  · cases r
    · exact h.images .ia
    · exact h.images .ib
    all_goals (intro h; cases h)
  · simp
  · simp [he]
  · simp
  · intro h; cases h

/-- A command's start keeps the invariant, whatever its first phase (R62). -/
theorem BlockInv.start {s : State} (h : BlockInv s) {o : Op} {dw io : ImgReg} {p : Phase} (hp : p ≠ .none) (ho : phaseOf p o = true)
   (hdw : dw = ImgReg.empty ∨ dw = s.ia) (hio : io.valid = false ∧ io.img.px = [])
   (hw : workDone ({ s.beginCommand o with dw := dw, io := io }.start p)) : BlockInv ({ s.beginCommand o with dw := dw, io := io }.start p) := by
  have hdw1 : dw.img.px.wf := by rcases hdw with rfl | rfl; exact ImgReg.empty_wf; exact h.stores .ia
  have hdw2 : dw.valid = true → dw.img.full ∧ dw.img.fits := by rcases hdw with rfl | rfl; (intro h; cases h); exact h.images .ia
  refine ⟨fun r => ?_, fun r => ?_, h.target, ?_, ?_, ?_, ho, ?_, hw⟩
  · cases r
    · exact h.stores .ia
    · exact h.stores .ib
    · exact hdw1
    · exact ImgReg.empty_wf
    · show io.img.px.wf
      rw [hio.2]; exact List.Pairwise.nil
  · cases r
    · exact h.images .ia
    · exact h.images .ib
    · exact hdw2
    · intro h; cases h
    · intro h'; exact absurd (hio.1.symm.trans h') (by decide)
  · simp [hio.1]
  · simp
  · simp [hp]
  · intro h'; exact absurd (hio.1.symm.trans h') (by decide)

/-- The acceptance of a command keeps the invariant. -/
theorem exec_keeps {s t : State} {i : Instr} (h : BlockInv s) (hx : exec i s = .next t) : BlockInv t := by
  rcases exec_cases hx with ⟨hb, rfl⟩ | ⟨hb, rfl⟩ | ⟨hb, _, hv, rfl⟩ | ⟨hb, _, hv, hc, rfl⟩ | ⟨hb, _, hv, hv', hc, rfl⟩ | ⟨hb, _, hv, rfl⟩
  · exact h.same ⟨_, _, _, _, rfl⟩
  · exact BlockInv.raise h (by decide)
  · refine BlockInv.start (io := ImgReg.empty) h (by decide) rfl (.inr rfl) ⟨rfl, rfl⟩ ?_
    exact ⟨hv, hv, ⟨rfl, rfl⟩, scanAt_zero _ _, fun x y _ hlt => absurd (show y * s.ia.img.w + x < 0 * s.ia.img.w + 0 from hlt) (by simp), fun h => absurd (show Op.dither = .encode from h) (by decide)⟩
  · refine BlockInv.start (dw := ImgReg.empty) (io := ImgReg.empty) h (by decide) rfl (.inl rfl) ⟨rfl, rfl⟩ ?_
    exact ⟨rfl, rfl, fun _ => ⟨hv, hc⟩, fun h => absurd (show Op.resize = .encode from h) (by decide)⟩
  · refine BlockInv.start (io := ImgReg.empty) h (by decide) rfl (.inr rfl) ⟨rfl, rfl⟩ ?_
    exact ⟨hv, hv, ⟨rfl, rfl⟩, scanAt_zero _ _, fun x y _ hlt => absurd (show y * s.ia.img.w + x < 0 * s.ia.img.w + 0 from hlt) (by simp), fun _ => ⟨hv', hc⟩⟩
  · refine BlockInv.start (dw := ImgReg.empty) h (by decide) rfl (.inl rfl) ⟨rfl, rfl⟩ ?_
    exact ⟨hv, ⟨rfl, rfl⟩, scanAt_zero _ _, by show (Image.blank s.ia.img.w s.ia.img.h).filledTo (0 * s.ia.img.w + 0); simp,
      fun x y _ hlt => absurd (show y * s.ia.img.w + x < 0 * s.ia.img.w + 0 from hlt) (by simp)⟩

/-- A transaction the script layer lets through keeps the invariant. -/
theorem hostTx_keeps {s t : State} {tx : HostTx} (h : BlockInv s) (ha : tx.argsOk = true) (hx : hostTx tx s = .next t) : BlockInv t := by
  rcases hostTx_cases hx with h' | ⟨hb, r, w, hh, px, rfl, ho, rfl⟩ | ⟨hb, r, _, ho, rfl⟩ | ⟨hb, r, x, y, p, img, _, ho, hv, hi, rfl⟩ | ⟨hb, v, hv, ht⟩ | ⟨_, v, hc⟩
  · refine h.same ⟨s.script, t.mark, t.reply, s.freeCtr, ?_⟩; rw [sameBlock] at h'; exact h'
  · simp only [HostTx.argsOk, Bool.and_eq_true, beq_iff_eq, decide_eq_true_eq] at ha
    have hf : (Image.ofPixels w hh px).full := Image.full_ofPixels ha.1.1.1
    exact (BlockInv.setOperand h hb ho hf.wf fun _ => ⟨hf, ha.1.1.2, ha.1.2⟩).same ⟨_, _, _, _, rfl⟩
  · exact (BlockInv.setOperand h hb ho ImgReg.empty_wf fun h => by cases h).same ⟨_, _, _, _, rfl⟩
  · obtain ⟨-, hd, hf, hw, -⟩ := Image.writePixel_cases hi
    obtain ⟨h1, h2⟩ := h.images r hv
    refine (BlockInv.setOperand h hb ho (hw (h.stores r)) fun _ => ⟨hf h1, ?_⟩).same ⟨_, _, _, _, rfl⟩
    unfold Image.fits; rw [hd.1, hd.2]; exact h2
  · have hp := h.phase_none hb
    have hwk := h.work
    simp only [workDone, hp] at hwk
    have key : ∀ tw th, fitsDim tw ∧ fitsDim th → BlockInv { s with tw := tw, th := th } := fun tw th hf =>
      ⟨fun r => by have := h.stores r; cases r <;> exact this, fun r => by have := h.images r; cases r <;> exact this, hf, h.ioValid, h.errCode, h.running, h.order, h.alpha, by simp only [workDone, hp]; exact hwk⟩
    rcases ht with rfl | rfl
    · exact (key v s.th ⟨hv ha, h.target.2⟩).same ⟨_, _, _, _, rfl⟩
    · exact (key s.tw v ⟨h.target.1, hv ha⟩).same ⟨_, _, _, _, rfl⟩
  · rcases hostWriteCmd_cases hc with ⟨i, -, hc⟩ | ⟨-, hc⟩
    · exact exec_keeps (h.same ⟨_, _, _, _, rfl⟩) hc
    · rcases illegalCommand_cases hc with ⟨hb, rfl⟩ | ⟨hb, rfl⟩
      · exact h.same ⟨_, _, _, _, rfl⟩
      · exact BlockInv.raise (h.same ⟨_, _, _, _, rfl⟩) (by decide)

/-- A step that stays BUSY keeps the invariant when it keeps the operands and what its phase has done. -/
theorem BlockInv.going {s t : State} (h : BlockInv s) (hb : s.status = .busy) (hia : t.ia = s.ia) (hib : t.ib = s.ib) (htw : t.tw = s.tw) (hth : t.th = s.th)
   (hst : t.status = .busy) (herr : t.err = s.err) (hdw : t.dw.img.px.wf ∧ (t.dw.valid = true → t.dw.img.full ∧ t.dw.img.fits))
   (hrc : t.rc.img.px.wf ∧ (t.rc.valid = true → t.rc.img.full ∧ t.rc.img.fits)) (hio : t.io.valid = false ∧ t.io.img.px.wf)
   (hp : t.phase ≠ .none) (ho : phaseOf t.phase t.op = true) (hw : workDone t) : BlockInv t := by
  refine ⟨fun r => ?_, fun r => ?_, by rw [htw, hth]; exact h.target, ?_, ?_, ?_, ho, ?_, hw⟩
  · cases r
    · exact (congrArg (fun r : ImgReg => r.img.px.wf) hia).mpr (h.stores .ia)
    · exact (congrArg (fun r : ImgReg => r.img.px.wf) hib).mpr (h.stores .ib)
    · exact hdw.1
    · exact hrc.1
    · exact hio.2
  · cases r
    · exact (congrArg (fun r : ImgReg => r.valid = true → r.img.full ∧ r.img.fits) hia).mpr (h.images .ia)
    · exact (congrArg (fun r : ImgReg => r.valid = true → r.img.full ∧ r.img.fits) hib).mpr (h.images .ib)
    · exact hdw.2
    · exact hrc.2
    · intro hv; exact absurd (hio.1.symm.trans hv) (by decide)
  · rw [hio.1, hst]; simp
  · rw [herr, hst, h.errCode, hb]
  · rw [hst]; simp [hp]
  · intro hv; exact absurd (hio.1.symm.trans hv) (by decide)

/-- While BUSY no result is published (R19). -/
theorem BlockInv.notDone {s : State} (h : BlockInv s) (hb : s.status = .busy) : s.io.valid = false := by
  by_contra hc
  have := h.ioValid.1 (by simpa using hc)
  rw [hb] at this; cases this

/-- A finish step gives the invariant back. -/
theorem BlockInv.publish {s : State} (h : BlockInv s) (hb : s.status = .busy) {img : Image} (hf : img.full) (hfit : img.fits) (ha : img.opaqueAlpha) : BlockInv (s.publish img) := by
  have herr : s.err = .none := by
    by_contra hc
    have := h.errCode.1 hc
    rw [hb] at this; cases this
  refine ⟨fun r => ?_, fun r => ?_, h.target, ?_, ?_, ?_, rfl, fun _ => ha, ⟨rfl, rfl⟩⟩
  · have := h.stores r
    cases r <;> first | exact this | exact hf.wf
  · have := h.images r
    cases r <;> first | exact this | exact fun _ => ⟨hf, hfit⟩
  · simp
  · simp [herr]
  · simp

/-- A Dithered image has alpha 255 (R31). -/
theorem dithered_opaqueAlpha {img : Image} (h : img.Dithered) : img.opaqueAlpha := fun x y hin => (h x y hin).2

/-- A finished scan has passed every pixel (R24). -/
theorem scan_end {img : Image} {n : Nat} {x y : Nat} (hin : img.inside x y) (h : n = img.w * img.h) : y * img.w + x < n := by
  rw [h]; exact rowMajor_lt hin.1 hin.2

/-- One step of the running command goes on and keeps the invariant. -/
theorem stepPhase_keeps {s : State} (h : BlockInv s) (hb : s.status = .busy) : ∃ t, stepPhase s = .next t ∧ BlockInv t := by
  have hord := h.order
  have hwk := h.work
  have hiov := h.notDone hb
  obtain ⟨p, hp⟩ : ∃ p, s.phase = p := ⟨_, rfl⟩
  rw [workDone, hp] at hwk
  rw [hp] at hord
  cases p with
  | none => exact absurd hb (fun hb => (h.running.2 hb) hp)
  | dscan =>
    obtain ⟨hia, hdw, hsd, hat, hdi, hen⟩ := hwk
    obtain ⟨hfd, hfit⟩ : s.dw.img.full ∧ s.dw.img.fits := h.images .dw hdw
    rcases hat.cases with ⟨hnd, hx, hy⟩ | ⟨hd, hx0, hpos⟩
    · obtain ⟨i, e, hv, hf, hs, hdd⟩ := visit_dithers hfd (x := s.x) (y := s.y) ⟨hx, hy⟩ s.e hdi
      refine ⟨_, (stepPhase_dscan hp).trans (stepDscan_visit hnd hv), ?_⟩
      have hap := advance_position (s := { s with dw := { s.dw with img := i }, e := e }) (w := s.dw.img.w) (h := s.dw.img.h) hx hy
      refine h.going hb (by simp) (by simp) (by simp) (by simp) (by simpa using hb) (by simp) ?_ (by simpa using ⟨h.stores .rc, h.images .rc⟩) ?_ (by simp [hp]) (by simp [hp]; exact hord) ?_
      · simp only [State.advance_dw]
        refine ⟨hf.wf, fun _ => ⟨hf, ?_⟩⟩
        unfold Image.fits; rw [hs.1, hs.2]; exact hfit
      · simp only [State.advance_io]; exact ⟨hiov, h.stores .io⟩
      · have hph : (State.advance { s with dw := { s.dw with img := i }, e := e } s.dw.img.w).phase = .dscan := by simp [hp]
        rw [workDone, hph]
        simp only [State.advance_ia, State.advance_ib, State.advance_dw, State.advance_op]
        rw [hs.1, hs.2, hap.2]
        refine ⟨hia, hdw, hs.trans hsd, hap.1, ?_, hen⟩
        rw [hs.1] at hdd
        exact hdd
    · have hD : s.dw.img.Dithered := fun x y hin => hdi x y hin (scan_end hin hpos)
      cases ho : s.op with
      | dither =>
        refine ⟨_, (stepPhase_dscan hp).trans (stepDscan_done_dither hd ho), ?_⟩
        refine h.going hb rfl rfl rfl rfl hb rfl ⟨h.stores .dw, h.images .dw⟩ ⟨h.stores .rc, h.images .rc⟩ ⟨hiov, h.stores .io⟩ (by simp) (by simp [ho, phaseOf]) ?_
        exact ⟨rfl, rfl, fun _ => ⟨hdw, hD⟩, fun h => absurd (ho.symm.trans h) (by decide), fun h => absurd h (by simp [ho])⟩
      | encode =>
        refine ⟨_, (stepPhase_dscan hp).trans (stepDscan_done_encode hd ho), ?_⟩
        refine h.going hb rfl rfl rfl rfl hb rfl ⟨h.stores .dw, h.images .dw⟩ ⟨h.stores .rc, h.images .rc⟩ ⟨hiov, h.stores .io⟩ (by simp) (by simp [ho, phaseOf]) ?_
        exact ⟨rfl, rfl, fun h => absurd (ho.symm.trans h) (by decide), fun _ => ⟨hia, (hen ho).1, hdw, hsd, hD, (hen ho).2⟩⟩
      | _ => rw [ho] at hord; cases hord
  | rsz =>
    obtain ⟨-, -, hre, hen⟩ := hwk
    cases ho : s.op with
    | resize =>
      refine ⟨_, (stepPhase_rsz hp).trans (stepRsz_resize ho), ?_⟩
      refine h.going hb rfl rfl rfl rfl hb rfl ⟨h.stores .dw, h.images .dw⟩ ?_ ⟨hiov, h.stores .io⟩ (by simp) (by simp [ho, phaseOf]) ?_
      · exact ⟨(full_resampledImage _ _ _).wf, fun _ => ⟨full_resampledImage _ _ _, h.target⟩⟩
      · exact ⟨rfl, rfl, fun h => absurd (ho.symm.trans h) (by decide), fun _ => rfl, fun h => absurd h (by simp [ho])⟩
    | encode =>
      obtain ⟨hia, hib, hdw, hsd, hD, hc⟩ := hen ho
      refine ⟨_, (stepPhase_rsz hp).trans (stepRsz_encode ho), ?_⟩
      refine h.going hb rfl rfl rfl rfl hb rfl ⟨h.stores .dw, h.images .dw⟩ ?_ ⟨rfl, List.Pairwise.nil⟩ (by simp) (by simp [ho, phaseOf]) ?_
      · exact ⟨(full_resampledImage _ _ _).wf, fun _ => ⟨full_resampledImage _ _ _, (h.images .dw hdw).2⟩⟩
      · refine ⟨hdw, rfl, hD, hsd, ⟨rfl, rfl⟩, ⟨rfl, rfl⟩, scanAt_zero _ _, ?_, fun x y _ hlt => absurd (show y * s.dw.img.w + x < 0 * s.dw.img.w + 0 from hlt) (by simp)⟩
        show (Image.blank s.dw.img.w s.dw.img.h).filledTo (0 * s.dw.img.w + 0)
        simp
    | _ => rw [ho] at hord; cases hord
  | mux =>
    obtain ⟨hdw, hrc, hD, hsd, h2, h3, hat, hfil, hal⟩ := hwk
    have ho : s.op = .encode := by
      cases ho : s.op <;> rw [ho] at hord <;> first | rfl | cases hord
    rcases hat.cases with ⟨hnd, hx, hy⟩ | ⟨hd, hx0, hpos⟩
    · obtain ⟨i, hv, hs, hf, ha, -, hoth⟩ := packPixel_filledTo (h.images .dw hdw).1 (h.images .rc hrc).1 h3 (h3.trans ⟨h2.1.symm, h2.2.symm⟩) (x := s.x) (y := s.y) ⟨hx, hy⟩ hfil
      refine ⟨_, (stepPhase_mux hp).trans (stepMux_pixel hnd hv), ?_⟩
      have hap := advance_position (s := { s with io := { s.io with img := i } }) (w := s.io.img.w) (h := s.io.img.h) hx hy
      refine h.going hb (by simp) (by simp) (by simp) (by simp) (by simpa using hb) (by simp) (by simpa using ⟨h.stores .dw, h.images .dw⟩) (by simpa using ⟨h.stores .rc, h.images .rc⟩) ?_ (by simp [hp]) (by simp [hp]; exact hord) ?_
      · simp only [State.advance_io]; exact ⟨hiov, (Image.filledTo_iff.1 hf).1⟩
      · have hph : (State.advance { s with io := { s.io with img := i } } s.io.img.w).phase = .mux := by simp [hp]
        rw [workDone, hph]
        simp only [State.advance_ia, State.advance_dw, State.advance_rc, State.advance_io]
        rw [hs.1, hs.2, hap.2]
        refine ⟨hdw, hrc, hD, hsd, h2, hs.trans h3, hap.1, hf, fun x y hin hlt => ?_⟩
        by_cases hxy : x = s.x ∧ y = s.y
        · rw [hxy.1, hxy.2]; exact ha
        · rw [hoth x y .a hxy]
          refine hal x y (hs.inside.1 hin) ?_
          have : y * s.io.img.w + x ≠ s.y * s.io.img.w + s.x := fun he =>
            hxy (rowMajor_inj (hs.inside.1 hin).1 hx he)
          have hlt' : y * s.io.img.w + x < s.y * s.io.img.w + s.x + 1 := hlt
          omega
    · refine ⟨_, (stepPhase_mux hp).trans (stepMux_done hd), ?_⟩
      refine h.going hb rfl rfl rfl rfl hb rfl ⟨h.stores .dw, h.images .dw⟩ ⟨h.stores .rc, h.images .rc⟩ ⟨hiov, h.stores .io⟩ (by simp) (by simp [ho, phaseOf]) ?_
      refine ⟨rfl, rfl, fun h => absurd (ho.symm.trans h) (by decide), fun h => absurd (ho.symm.trans h) (by decide), fun _ => ⟨?_, ?_, fun x y hin => hal x y hin (scan_end hin hpos)⟩⟩
      · rw [hpos] at hfil; exact hfil
      · have := (h.images .dw hdw).2
        simp only [State.setPc_io]
        unfold Image.fits; rw [h3.1, h3.2]; exact this
  | ext =>
    obtain ⟨hia, h3, hat, hfil, hal⟩ := hwk
    have ho : s.op = .decode := by
      cases ho : s.op <;> rw [ho] at hord <;> first | rfl | cases hord
    rcases hat.cases with ⟨hnd, hx, hy⟩ | ⟨hd, hx0, hpos⟩
    · obtain ⟨i, hv, hs, hf, ha, -, hoth⟩ := extractPixel_filledTo (h.images .ia hia).1 h3 (x := s.x) (y := s.y) ⟨hx, hy⟩ hfil
      refine ⟨_, (stepPhase_ext hp).trans (stepExt_pixel hnd hv), ?_⟩
      have hap := advance_position (s := { s with io := { s.io with img := i } }) (w := s.io.img.w) (h := s.io.img.h) hx hy
      refine h.going hb (by simp) (by simp) (by simp) (by simp) (by simpa using hb) (by simp) (by simpa using ⟨h.stores .dw, h.images .dw⟩) (by simpa using ⟨h.stores .rc, h.images .rc⟩) ?_ (by simp [hp]) (by simp [hp]; exact hord) ?_
      · simp only [State.advance_io]; exact ⟨hiov, (Image.filledTo_iff.1 hf).1⟩
      · have hph : (State.advance { s with io := { s.io with img := i } } s.io.img.w).phase = .ext := by simp [hp]
        rw [workDone, hph]
        simp only [State.advance_ia, State.advance_io]
        rw [hs.1, hs.2, hap.2]
        refine ⟨hia, hs.trans h3, hap.1, hf, fun x y hin hlt => ?_⟩
        by_cases hxy : x = s.x ∧ y = s.y
        · rw [hxy.1, hxy.2]; exact ha
        · rw [hoth x y .a hxy]
          refine hal x y (hs.inside.1 hin) ?_
          have : y * s.io.img.w + x ≠ s.y * s.io.img.w + s.x := fun he =>
            hxy (rowMajor_inj (hs.inside.1 hin).1 hx he)
          have hlt' : y * s.io.img.w + x < s.y * s.io.img.w + s.x + 1 := hlt
          omega
    · refine ⟨_, (stepPhase_ext hp).trans (stepExt_done hd), ?_⟩
      refine h.going hb rfl rfl rfl rfl hb rfl ⟨h.stores .dw, h.images .dw⟩ ⟨h.stores .rc, h.images .rc⟩ ⟨hiov, h.stores .io⟩ (by simp) (by simp [ho, phaseOf]) ?_
      refine ⟨rfl, rfl, fun h => absurd (ho.symm.trans h) (by decide), fun h => absurd (ho.symm.trans h) (by decide), fun _ => ⟨?_, ?_, fun x y hin => hal x y hin (scan_end hin hpos)⟩⟩
      · rw [hpos] at hfil; exact hfil
      · have := (h.images .ia hia).2
        simp only [State.setPc_io]
        unfold Image.fits; rw [h3.1, h3.2]; exact this
  | fin =>
    obtain ⟨-, -, hdi, hre, hio⟩ := hwk
    cases ho : s.op with
    | none => rw [ho] at hord; cases hord
    | dither =>
      refine ⟨_, (stepPhase_fin hp).trans (stepFin_dither ho), ?_⟩
      obtain ⟨hv, hD⟩ := hdi ho
      obtain ⟨h1, h2⟩ := h.images .dw hv
      exact h.publish hb h1 h2 (dithered_opaqueAlpha hD)
    | resize =>
      refine ⟨_, (stepPhase_fin hp).trans (stepFin_resize ho), ?_⟩
      have hv := hre ho
      obtain ⟨h1, h2⟩ := h.images .rc hv
      refine h.publish hb ?_ h2 ?_
      · show (s.rc.img.px.alphaTo255).map Prod.fst = _
        rw [Memory.keys_alphaTo255]; exact h1
      · intro x y hin
        have hin' : s.rc.img.inside x y := hin
        obtain ⟨v, hv⟩ : ∃ v, s.rc.img.readChan x y .a = some v := h1.readChan hin' .a
        rw [Image.readChan_inside hin] 
        show (s.rc.img.px.alphaTo255).read (chanAddr s.rc.img.w x y .a) = _
        rw [Memory.read_alphaTo255]
        rw [Image.readChan_inside hin'] at hv
        rw [hv]
        have : chanAddr s.rc.img.w x y .a % 4 = 3 := by simp only [chanAddr, Chan.idx]; omega
        simp [this]
    | encode =>
      refine ⟨_, (stepPhase_fin hp).trans (stepFin_encode ho), ?_⟩
      obtain ⟨h1, h2, h3⟩ := hio (.inl ho)
      exact h.publish hb h1 h2 h3
    | decode =>
      refine ⟨_, (stepPhase_fin hp).trans (stepFin_decode ho), ?_⟩
      obtain ⟨h1, h2, h3⟩ := hio (.inr ho)
      exact h.publish hb h1 h2 h3

end Sys2Proof.Machine
end

