-- ==== Sys2Proof/Laws/PerInstr.lean ====
section
/-! SUPPORT. What is said of each command as syntax, one lemma per constructor: its word and its OP value (R25, R60, R61). -/

namespace Sys2Proof.Laws.Encoding

open Sys2Proof Sys2Proof.Machine

/-- A command is well formed, its word is one byte whose low three bits are its OP value, and the decoder
reads the command back from the word, whatever byte follows. -/
def Statement (i : Instr) : Prop :=
  i.wf = true ∧ encode i = [encodeByte i] ∧ (encodeByte i).extractLsb' 0 3 = (Op.ofInstr i).code ∧
    (encodeByte i).extractLsb' 3 5 = 0 ∧ ∀ v : Byte, decode (encode i ++ [v]) = .ok (i, [v])

theorem dither : Statement .dither := ⟨rfl, rfl, rfl, rfl, fun _ => rfl⟩

theorem resize : Statement .resize := ⟨rfl, rfl, rfl, rfl, fun _ => rfl⟩

theorem encode : Statement .encode := ⟨rfl, rfl, rfl, rfl, fun _ => rfl⟩

theorem decode : Statement .decode := ⟨rfl, rfl, rfl, rfl, fun _ => rfl⟩

end Sys2Proof.Laws.Encoding
end

