-- ==== Sys2Proof/Tests/Slice0.lean ====
section
/-! SUPPORT. The model's own tests, with values from spec/95_test_vectors.md, and a witness for every statement that has hypotheses. -/

namespace Sys2Proof.Tests

open Sys2Proof Sys2Proof.Machine

/-- A grey pixel, `g(v)` of 95_test_vectors.md. -/
def grey (v : Byte) : Pixel := ⟨v, v, v, 255⟩

/-- An image register that holds the image of those pixels. -/
def loaded (w h : Nat) (px : List Pixel) : ImgReg := { valid := true, img := Image.ofPixels w h px }

/-- IA and IB loaded, nothing else done since reset. -/
def operands (a b : ImgReg) : State := { State.reset with ia := a, ib := b }

/-- A command at work, in that phase. -/
def working (o : Op) (p : Phase) (a b : ImgReg) : State := { operands a b with op := o, phase := p, status := .busy }

/-- The 1×1 image of program P3. -/
def px1 : ImgReg := loaded 1 1 [⟨63, 128, 7, 0⟩]

/-! ## The command word: words written out from R60 and R61 -/

theorem test_decode_dither_word : decodeTableWord 8 0b00000001 = some .dither := by decide
theorem test_decode_resize_word : decodeTableWord 8 0b00000010 = some .resize := by decide
theorem test_decode_encode_word : decodeTableWord 8 0b00000011 = some .encode := by decide
theorem test_decode_decode_word : decodeTableWord 8 0b00000100 = some .decode := by decide
theorem test_decode_illegal_words :
    [0x00, 0x05, 0x07, 0x81, 0xFF].map (decodeTableWord 8) = [none, none, none, none, none] := by decide
theorem test_decode_reads_one_byte : decode [0x03, 0x07] = .ok (.encode, [0x07]) := by decide
theorem test_decode_nothing : decode [] = .error .noByte := by decide
theorem test_opcode_rows_apart :
    opcodeTable.Pairwise fun a b => a.pattern &&& a.mask &&& b.mask ≠ b.pattern &&& a.mask &&& b.mask := by decide

/-! ## Well-formedness: each check with a line it refuses (R64, R71, R72) -/

theorem test_wf_load_wrong_count : (ScriptLine.tx (.load .ia 2 1 [grey 0])).wf = false := rfl
theorem test_wf_load_wide : (ScriptLine.tx (.load .ia (2 ^ Config.dimBits) 0 [])).wf = false := by
  simp [ScriptLine.wf, HostTx.argsOk, fitsDim]
theorem test_wf_load_high : (ScriptLine.tx (.load .ia 0 (2 ^ Config.dimBits) [])).wf = false := by
  simp [ScriptLine.wf, HostTx.argsOk, fitsDim]
theorem test_wf_setw : (ScriptLine.tx (.writeTw (2 ^ Config.dimBits))).wf = false := by
  simp [ScriptLine.wf, HostTx.argsOk, fitsDim]
theorem test_wf_seth : (ScriptLine.tx (.writeTh (2 ^ Config.dimBits))).wf = false := by
  simp [ScriptLine.wf, HostTx.argsOk, fitsDim]
theorem test_wf_cmd_by_number : (ScriptLine.tx (.writeNum 0x00 0 0 256)).wf = false := by decide
theorem test_wf_tw_by_number : (ScriptLine.tx (.writeNum 0x03 0 0 (2 ^ Config.dimBits))).wf = false := by
  simp [ScriptLine.wf, HostTx.argsOk, HostReg.ofNumber, HostReg.bits]
theorem test_wf_th_by_number : (ScriptLine.tx (.writeNum 0x04 0 0 (2 ^ Config.dimBits))).wf = false := by
  simp [ScriptLine.wf, HostTx.argsOk, HostReg.ofNumber, HostReg.bits]
theorem test_wf_pixel_by_number : (ScriptLine.tx (.writeNum 0x13 0 0 (2 ^ 32))).wf = false := by decide
theorem test_wf_status_by_number : (ScriptLine.tx (.writeNum 0x01 0 0 4)).wf = false := by decide
theorem test_wf_err_by_number : (ScriptLine.tx (.writeNum 0x02 0 0 256)).wf = false := by decide
theorem test_wf_valid_by_number : (ScriptLine.tx (.writeNum 0x10 0 0 2)).wf = false := by decide
theorem test_wf_dims_by_number :
    (ScriptLine.tx (.writeNum 0x11 0 0 (2 ^ Config.dimBits))).wf = false ∧
    (ScriptLine.tx (.writeNum 0x12 0 0 (2 ^ Config.dimBits))).wf = false := by
  simp [ScriptLine.wf, HostTx.argsOk, HostReg.ofNumber, ImgName.ofIndex, HostReg.bits]
theorem test_wf_load_dw : (ScriptLine.tx (.load .dw 0 0 [])).wf = false := by
  simp [ScriptLine.wf, HostTx.argsOk, ImgName.hostOwned]
theorem test_wf_inval_io : (ScriptLine.tx (.invalidate .io)).wf = false := rfl
theorem test_wf_put_coordinates :
    (ScriptLine.tx (.put .ia (2 ^ Config.dimBits) 0 (grey 0))).wf = false ∧
    (ScriptLine.tx (.put .ia 0 (2 ^ Config.dimBits) (grey 0))).wf = false := by
  simp [ScriptLine.wf, HostTx.argsOk, coordsFit, fitsDim]
theorem test_wf_get_coordinates :
    (ScriptLine.tx (.get .io (2 ^ Config.dimBits) 0)).wf = false ∧
    (ScriptLine.tx (.get .io 0 (2 ^ Config.dimBits))).wf = false := by
  simp [ScriptLine.wf, HostTx.argsOk, coordsFit, fitsDim]
theorem test_wf_window_coordinates :
    (ScriptLine.tx (.readNum 0x23 (2 ^ Config.dimBits) 0)).wf = false ∧
    (ScriptLine.tx (.writeNum 0x17 0 (2 ^ Config.dimBits) 0)).wf = false := by
  simp [ScriptLine.wf, HostTx.argsOk, HostReg.ofNumber, ImgName.ofIndex, HostReg.bits, HostReg.coordsOk, coordsFit, fitsDim]
theorem test_wf_move_to_dw : (ScriptLine.move .dw .ia).wf = false := rfl
theorem test_wf_lets_through : (ScriptLine.tx (.load .ia 0 0 [])).wf = true ∧ (ScriptLine.move .ia .io).wf = true := by
  simp [ScriptLine.wf, HostTx.argsOk, fitsDim, ImgName.hostOwned]

/-! ## Channel arithmetic: 95_test_vectors.md, 2.1, 2.2, 2.4 and 2.5 -/

theorem test_threshold :
    [0, 1, 127, 128, 254, 255].map (fun v : Byte => (threshold v, (quantError v (threshold v)).toInt))
      = [(0, 0), (0, 1), (0, 127), (255, -127), (255, -1), (255, 0)] := by decide

theorem test_diffuse :
    diffuse 100 7 100 = 143 ∧ diffuse 10 7 (-1) = 9 ∧ diffuse 200 1 (-1) = 199 ∧ diffuse 0 1 (-1) = 0 ∧
    diffuse 0 7 (-127) = 0 ∧ diffuse 41 5 (-127) = 1 ∧ diffuse 255 7 127 = 255 ∧ diffuse 255 1 (-16) = 254 ∧
    diffuse 255 7 (-1) = 254 ∧ diffuse 0 1 15 = 0 ∧ diffuse 0 1 16 = 1 := by decide

theorem test_muxNib :
    muxNib 0xAB 0xFF = 0xAF ∧ muxNib 0xAB 0x00 = 0xA0 ∧ muxNib 0x0F 0xF0 = 0x0F ∧ muxNib 0x5A 0x3C = 0x53 := by decide

theorem test_extNib : extNib 0x01 = 0x10 ∧ extNib 0xAF = 0xF0 ∧ extNib 0xA0 = 0x00 ∧ extNib 0x3C = 0xC0 := by decide

/-! ## One step of each command -/

/-- Vector V13, the visit of (0, 0): three channels apart, alpha 255 at the visit only. -/
theorem test_dither_visit :
    visit 0 0 (Image.ofPixels 2 2 [⟨200, 100, 50, 7⟩, ⟨30, 130, 127, 0⟩, ⟨128, 128, 128, 128⟩, ⟨0, 255, 64, 255⟩], ErrLatch.zero)
      = some (Image.ofPixels 2 2 [⟨255, 0, 0, 255⟩, ⟨5, 173, 148, 0⟩, ⟨110, 159, 143, 128⟩, ⟨0, 255, 67, 255⟩],
          { r := -55, g := 100, b := 50 }) := by decide

/-- Vector V9, the visit of (1, 1), where all four neighbours are inside. -/
theorem test_dither_visit_interior :
    visit 1 1 (Image.ofPixels 3 3 ([255, 0, 255, 0, 168, 102, 159, 134, 128].map grey), { r := 101, g := 101, b := 101 })
      = some (Image.ofPixels 3 3 ([255, 0, 255, 0, 255, 63, 142, 106, 122].map grey), { r := -87, g := -87, b := -87 }) := by
  decide

/-- Vector Z2: no source pixels, a target that has some. -/
theorem test_resize_refused :
    exec .resize { operands (loaded 0 3 []) ImgReg.empty with tw := 2, th := 2 }
      = .next { operands (loaded 0 3 []) ImgReg.empty with
          tw := 2, th := 2, status := .error, err := .invalidImage, op := .resize } := by rfl

/-- Vector Z3: an empty target needs no source pixel. -/
theorem test_resize_empty_target :
    stepRsz { working .resize .rsz (loaded 0 3 []) ImgReg.empty with tw := 0, th := 5 }
      = .next { working .resize .fin (loaded 0 3 []) ImgReg.empty with
          tw := 0, th := 5, rc := { valid := true, img := ⟨0, 5, []⟩ } } := by rfl

/-- Vector Z7: the carrier has no pixel, the secret has one. -/
theorem test_encode_refused :
    exec .encode (operands (loaded 1 1 [grey 200]) (loaded 0 4 []))
      = .next { operands (loaded 1 1 [grey 200]) (loaded 0 4 []) with
          status := .error, err := .invalidImage, op := .encode } := by rfl

/-- Program P2, the second pixel of the combined image. -/
theorem test_encode_pixel :
    packPixel (Image.ofPixels 2 1 [grey 0, grey 255])
        (Image.ofPixels 2 1 [⟨0xA7, 0xC8, 0xE1, 0x12⟩, ⟨0xB0, 0xDF, 0xFF, 0x34⟩]) 1 0
        { w := 2, h := 1, px := Memory.ofBytes 0 [0xA0, 0xC0, 0xE0, 0xFF] }
      = some (Image.ofPixels 2 1 [⟨0xA0, 0xC0, 0xE0, 0xFF⟩, ⟨0xBF, 0xDF, 0xFF, 0xFF⟩]) := by decide

/-- Program P3: the last DECODE, its pixel step. -/
theorem test_decode_pixel :
    extractPixel px1.img 0 0 (Image.blank 1 1) = some (Image.ofPixels 1 1 [⟨240, 0, 112, 255⟩]) := by decide

/-- Vector Z5: nothing loaded. -/
theorem test_decode_refused :
    exec .decode State.reset = .next { State.reset with status := .error, err := .invalidImage, op := .decode } := by rfl

/-! ## The host's side -/

/-- Vector Z10: the opcode check comes first. -/
theorem test_illegal_command :
    hostTx (.writeCmd 0x07) State.reset
      = .next { State.reset with status := .error, err := .illegalCommand } := by rfl

theorem test_put_by_number :
    hostTx (.writeNum 0x13 0 0 0x04030201) (operands px1 ImgReg.empty)
      = .next (operands (loaded 1 1 [⟨1, 2, 3, 4⟩]) ImgReg.empty) := by rfl

/-- R53: number 0x1C is RC's VALID, 0 for a register that holds no image; 0x12 is IA's H. -/
theorem test_read_by_number :
    hostTx (.readNum 0x1C 0 0) (operands px1 ImgReg.empty) = .next { operands px1 ImgReg.empty with reply := .word 0 } ∧
    hostTx (.readNum 0x12 0 0) (operands (loaded 2 1 [grey 1, grey 2]) ImgReg.empty)
      = .next { operands (loaded 2 1 [grey 1, grey 2]) ImgReg.empty with reply := .word 1 } := ⟨by rfl, by rfl⟩

theorem test_get_outside :
    hostTx (.get .ia 1 0) (operands px1 ImgReg.empty)
      = .next { operands px1 ImgReg.empty with
          mark := .refused, reply := .pixel ((operands px1 ImgReg.empty).freePixel .ia 1 0) } := by rfl

/-- The tables of R21 and R22. -/
theorem test_status_and_err_codes :
    [Status.idle, .busy, .done, .error].map Status.code = [0, 1, 2, 3] ∧
    [ErrCode.none, .invalidImage, .invalidInput, .illegalCommand].map ErrCode.code = [0, 1, 2, 3] := by decide

/-- The tables of R23 and R25. -/
theorem test_phase_and_op_codes :
    [Phase.none, .dscan, .rsz, .mux, .ext, .fin].map Phase.code = [0, 1, 2, 3, 4, 5] ∧
    [Op.none, .dither, .resize, .encode, .decode].map Op.code = [0, 1, 2, 3, 4] := by decide

/-- R54: the dimensions of a register that holds no image, read twice with no write between, by name and by number. -/
theorem test_free_dims_repeat :
    step { operands px1 ImgReg.empty with script := [.tx (.dims .ib), .tx (.dims .ib)] }
      = .next { operands px1 ImgReg.empty with
          script := [.tx (.dims .ib)], reply := (operands px1 ImgReg.empty).freeDims false .ib } ∧
    step { operands px1 ImgReg.empty with
        script := [.tx (.dims .ib)], reply := (operands px1 ImgReg.empty).freeDims false .ib }
      = .next { operands px1 ImgReg.empty with reply := (operands px1 ImgReg.empty).freeDims false .ib } ∧
    hostTx (.readNum 0x15 0 0) (operands px1 ImgReg.empty)
      = .next { operands px1 ImgReg.empty with reply := .word ((operands px1 ImgReg.empty).freeDim (.width .ib)) } :=
  ⟨by rfl, by rfl, by rfl⟩

theorem test_pixel_word : (Pixel.mk 0x11 0x22 0x33 0x44).toWord = 0x44332211 := by decide

theorem test_register_numbers :
    [0x00, 0x04, 0x05, 0x0F, 0x10, 0x12, 0x17, 0x20, 0x23, 0x24].map HostReg.ofNumber
      = [some .cmd, some .th, none, none, some (.valid .ia), some (.height .ia), some (.pix .ib), some (.valid .io),
          some (.pix .io), none] := by decide

/-! ## Witnesses: every statement's hypotheses are met, clause by clause -/

/-- IA = IB = the 1×1 image, TW = TH = 1, that script. -/
def ready (script : List ScriptLine) : State := { operands px1 px1 with tw := 1, th := 1, script := script }

theorem one_fits : fitsDim 1 := by
  have : 1 < 2 ^ Config.dimBits := Nat.one_lt_two_pow (by unfold Config.dimBits; omega)
  exact this

theorem zero_fits : fitsDim 0 := by unfold fitsDim; positivity

theorem px1_full : px1.img.full := by rfl

theorem px1_fits : px1.img.fits := ⟨one_fits, one_fits⟩

theorem ready_inv (script : List ScriptLine) : BlockInv (ready script) where
  stores r := by cases r <;> first | exact px1_full.wf | exact ImgReg.empty_wf
  images r := by cases r <;> first | exact fun _ => ⟨px1_full, px1_fits⟩ | (intro h; cases h)
  target := ⟨one_fits, one_fits⟩
  ioValid := by simp [ready, operands, State.reset, ImgReg.empty]
  errCode := by simp [ready, operands, State.reset]
  running := by simp [ready, operands, State.reset]
  order := rfl
  alpha := by intro h; cases h
  work := ⟨rfl, rfl⟩

/-- The state of an accepted ENCODE. -/
def busyEncode : State := { working .encode .dscan px1 px1 with dw := px1, tw := 1, th := 1 }

theorem busyEncode_inv : BlockInv busyEncode :=
  exec_keeps (i := .encode) (ready_inv []) (by rfl)

theorem witness_OpcodeMap : 0x00#8 ∉ [0x01#8, 0x02#8, 0x03#8, 0x04#8] ∧ 0x05#8 ∉ [0x01#8, 0x02#8, 0x03#8, 0x04#8] := by decide

theorem witness_DecodeAndEncodeAgree : Instr.decode.wf = true ∧ decode [0x04, 0x09] = .ok (.decode, [0x09]) := by decide

theorem witness_StepRunsDecodedCommand :
    (ready [.tx .readErr]).script = .tx .readErr :: [] ∧ HostTx.readErr.argsOk = true ∧
      (ready [.tx (.writeCmd 0x01)]).script = .tx (.writeCmd 0x01) :: [] ∧ Instr.dither.wf = true ∧
      decode [0x01] = .ok (.dither, []) ∧ (ready [.tx (.writeCmd 0x05)]).script = .tx (.writeCmd 0x05) :: [] ∧
      decode [0x05] = .error (.illegalCommand 0x05) := by decide

theorem witness_OnlyCmdWriteStartsCommand :
    (∃ t, (ready [.tx (.writeNum 0 0 0 1)]).status ≠ .busy ∧ step (ready [.tx (.writeNum 0 0 0 1)]) = .next t ∧
      t.status = .busy) ∧ (ready []).script = [] ∧ (ready []).status ≠ .busy :=
  ⟨⟨_, by decide, by rfl, rfl⟩, rfl, by decide⟩

theorem witness_DitherAcceptance :
    (ready []).status ≠ .busy ∧ (ready []).ia.valid = true ∧ State.reset.status ≠ .busy ∧ State.reset.ia.valid = false := by decide

theorem witness_ResizeAcceptance :
    (ready []).status ≠ .busy ∧ ((ready []).ia.valid = true ∧ ((ready []).ia.img.area = 0 → (ready []).tw * (ready []).th = 0)) ∧
      State.reset.ia.valid = false ∧
      ((loaded 0 3 []).img.area = 0 ∧ 2 * 2 ≠ 0) ∧ ((loaded 0 3 []).img.area = 0 → 0 * 5 = 0) := by decide

theorem witness_EncodeAcceptance :
    (ready []).status ≠ .busy ∧ ((ready []).ia.valid = true ∧ (ready []).ib.valid = true ∧
        ((ready []).ib.img.area = 0 → (ready []).ia.img.area = 0)) ∧
      State.reset.ia.valid = false ∧ (operands px1 ImgReg.empty).ib.valid = false ∧
      ((loaded 0 4 []).img.area = 0 ∧ px1.img.area ≠ 0) ∧ (loaded 0 4 []).img.area = 0 ∧ (loaded 0 0 []).img.area = 0 := by decide

theorem witness_DecodeAcceptance :
    (ready []).status ≠ .busy ∧ (ready []).ia.valid = true ∧ State.reset.status ≠ .busy ∧ State.reset.ia.valid = false := by decide

theorem witness_IllegalCommandRaises : (ready []).status ≠ .busy ∧ 0xFF#8 ∉ [0x01#8, 0x02#8, 0x03#8, 0x04#8] := by decide

theorem witness_CmdWriteIgnoredWhileBusy : busyEncode.status = .busy := rfl

theorem witness_AcceptanceFrame : ∀ i : Instr, ∃ t, (ready []).status ≠ .busy ∧ exec i (ready []) = .next t ∧ t.status = .busy := by
  intro i; cases i <;> exact ⟨_, by decide, by rfl, rfl⟩

theorem witness_CommandReadsOnlyItsOperands :
    (ready []).status ≠ .busy ∧ { ready [] with err := .illegalCommand, status := .error, io := px1, rc := px1 }.status ≠ .busy := by
  decide

theorem witness_ThresholdAndError : (127#8).toNat ≤ 127 ∧ 128 ≤ (128#8).toNat := by decide

theorem witness_IntegerUpdateIsExact :
    diffuseSum 0 1 (-1) < 0 ∧ 4080 ≤ diffuseSum 255 0 0 ∧ (0 ≤ diffuseSum 0 0 0 ∧ diffuseSum 255 7 (-1) < 4080) ∧
      (7 ≤ 7 ∧ -127 ≤ (-127#9 : BitVec 9).toInt ∧ (127#9).toInt ≤ 127) := by decide

theorem witness_ExtractNibble : (0x10#8).extractLsb' 0 4 = 0x0#4 ∧ (0x1F#8).extractLsb' 0 4 = 0xF#4 := by decide

theorem witness_NeighbourTable : 0 < 1 ∧ 1 < 2 := by decide

theorem witness_VisitPixel : px1.img.full ∧ px1.img.inside 0 0 := ⟨px1_full, by decide⟩

/-- The corners of a 2×2 image: all neighbour clauses, inside and outside, and a pixel that is none of them. -/
theorem witness_VisitPixel_neighbours :
    (loaded 2 2 [grey 1, grey 2, grey 3, grey 4]).img.full ∧ (loaded 2 2 [grey 1, grey 2, grey 3, grey 4]).img.inside 1 0 ∧
      neighbours.map (neighbourAt 2 2 0 0) = [some (1, 0), none, some (0, 1), some (1, 1)] ∧
      neighbours.map (neighbourAt 2 2 1 0) = [none, some (0, 1), some (1, 1), none] ∧
      (∀ n ∈ neighbours, neighbourAt 2 2 1 0 n ≠ some (0, 0)) := ⟨by rfl, by decide, by decide, by decide, by decide⟩

theorem witness_NeighbourOrderIrrelevant :
    px1.img.full ∧ px1.img.inside 0 0 ∧ neighbours.reverse.Perm neighbours := ⟨px1_full, by decide, neighbours.reverse_perm⟩

theorem witness_DitherScanStep :
    busyEncode.script = [] ∧ busyEncode.status = .busy ∧ busyEncode.phase = .dscan ∧
      ¬ (busyEncode.dw.img.w = 0 ∨ busyEncode.y = busyEncode.dw.img.h) ∧
      (visit busyEncode.x busyEncode.y (busyEncode.dw.img, busyEncode.e)).isSome = true ∧
      { busyEncode with y := 1 }.y = busyEncode.dw.img.h ∧ (loaded 0 5 []).img.w = 0 := by decide

theorem witness_ResamplerStep :
    (0 * 5 = 0 ∧ 1 * 1 ≠ 0) ∧ (∀ o, (working o .rsz px1 px1).script = [] ∧ (working o .rsz px1 px1).status = .busy ∧
      (working o .rsz px1 px1).phase = .rsz ∧ (working o .rsz px1 px1).op = o) := ⟨by decide, fun _ => ⟨rfl, rfl, rfl, rfl⟩⟩

/-- A command at its first pixel of packing or extracting. -/
def atPixel (p : Phase) : State :=
  { working (if p = .mux then .encode else .decode) p px1 px1 with
    dw := px1, rc := px1, io := { valid := false, img := Image.blank 1 1 } }

theorem witness_PackAndExtractStep :
    ∀ p, (atPixel p).script = [] ∧ (atPixel p).status = .busy ∧
      (atPixel p).io.img.filledTo ((atPixel p).y * (atPixel p).io.img.w + (atPixel p).x) ∧
      (atPixel p).x < (atPixel p).io.img.w ∧ (atPixel p).y < (atPixel p).io.img.h ∧ (atPixel p).phase = p ∧
      (atPixel p).dw.img.full ∧ (atPixel p).rc.img.full ∧ (atPixel p).ia.img.full ∧
      (atPixel p).io.img.sameDims (atPixel p).dw.img ∧ (atPixel p).io.img.sameDims (atPixel p).rc.img ∧
      (atPixel p).io.img.sameDims (atPixel p).ia.img :=
  fun _ => ⟨rfl, rfl, rfl, Nat.zero_lt_one, Nat.zero_lt_one, rfl, px1_full, px1_full, px1_full, ⟨rfl, rfl⟩, ⟨rfl, rfl⟩, ⟨rfl, rfl⟩⟩

/-- The scan done: past the last row, and in an image without a column. -/
theorem witness_PackAndExtractStep_done :
    ∀ p, { atPixel p with y := 1 }.script = [] ∧ { atPixel p with y := 1 }.status = .busy ∧
      { atPixel p with y := 1 }.y = { atPixel p with y := 1 }.io.img.h ∧ { atPixel p with y := 1 }.phase = p ∧
      { atPixel p with io := { valid := false, img := Image.blank 0 5 } }.io.img.w = 0 :=
  fun _ => ⟨rfl, rfl, rfl, rfl, rfl⟩

theorem witness_FinishStep :
    ∀ o, (working o .fin px1 px1).script = [] ∧ (working o .fin px1 px1).status = .busy ∧
      (working o .fin px1 px1).phase = .fin ∧ (working o .fin px1 px1).op = o := fun _ => ⟨rfl, rfl, rfl, rfl⟩

theorem witness_InvalidInputNeverRaised :
    ∃ t, step (working .encode .rsz px1 px1) = .next t ∧ (working .encode .rsz px1 px1).err ≠ .invalidInput :=
  ⟨_, by rfl, by decide⟩

theorem witness_StatusMoves :
    (∃ t, step (ready [.reset]) = .next t ∧ t.status = .idle) ∧
      (∃ t, step (ready [.tx (.writeCmd 0x01)]) = .next t ∧ t.status = .busy) ∧
      (∃ t, step (ready [.tx (.writeCmd 0x05)]) = .next t ∧ t.status = .error) ∧
      ∃ t, step (working .dither .fin px1 px1) = .next t ∧ t.status = .done :=
  ⟨⟨_, by rfl, rfl⟩, ⟨_, by rfl, rfl⟩, ⟨_, by rfl, rfl⟩, ⟨_, by rfl, rfl⟩⟩

theorem witness_OperandsAreTheHosts :
    ∃ t, step (ready [.tx (.invalidate .ia)]) = .next t ∧ ImgName.ia.hostOwned = true ∧
      t.reg .ia ≠ (ready [.tx (.invalidate .ia)]).reg .ia := ⟨_, by rfl, rfl, by decide⟩

theorem witness_Completes :
    (ready []).status ≠ .busy ∧ (ready []).script = [] ∧ (ready []).ia.valid = true ∧ (ready []).ib.valid = true ∧
      (ready []).ia.img.full ∧ ((ready []).ia.img.area = 0 → (ready []).tw * (ready []).th = 0) ∧
      ((ready []).ib.img.area = 0 → (ready []).ia.img.area = 0) :=
  ⟨by decide, rfl, rfl, rfl, px1_full, by decide, by decide⟩

theorem witness_RunningCommandEnds : BlockInv busyEncode ∧ busyEncode.status = .busy ∧ busyEncode.script = [] :=
  ⟨busyEncode_inv, rfl, rfl⟩

theorem witness_RunScriptEnds :
    ∀ i, BlockInv (ready (scriptRun i)) ∧ (ready (scriptRun i)).status ≠ .busy ∧ (ready (scriptRun i)).script = scriptRun i :=
  fun i => ⟨ready_inv _, by simp [ready, operands, State.reset], rfl⟩

theorem witness_DitherIsIdempotent :
    px1.img.full ∧ (ditherImage px1.img).isSome = true ∧
      (loaded 1 1 [grey 255]).img.full ∧
      (∀ x y, (loaded 1 1 [grey 255]).img.inside x y → ∀ c ∈ colours,
        (loaded 1 1 [grey 255]).img.readChan x y c = some 0 ∨ (loaded 1 1 [grey 255]).img.readChan x y c = some 255) := by
  refine ⟨px1_full, by decide, by rfl, fun x y h => ?_⟩
  obtain ⟨rfl, rfl⟩ : x = 0 ∧ y = 0 := ⟨Nat.lt_one_iff.1 h.1, Nat.lt_one_iff.1 h.2⟩
  decide

theorem witness_DitherIsThreeLanes :
    px1.img.full ∧ (ditherImage px1.img).isSome = true ∧ Chan.g ∈ colours ∧
      ∀ x y, px1.img.inside x y → px1.img.readChan x y .g = some ((fun _ _ => 128 : Plane) x y) := by
  refine ⟨px1_full, by decide, by decide, fun x y h => ?_⟩
  obtain ⟨rfl, rfl⟩ : x = 0 ∧ y = 0 := ⟨Nat.lt_one_iff.1 h.1, Nat.lt_one_iff.1 h.2⟩
  decide

theorem witness_ResizeContract :
    ((loaded 0 3 []).img.area = 0 ∧ 2 * 2 ≠ 0) ∧ ¬ ((loaded 0 3 []).img.area = 0 ∧ 0 * 5 ≠ 0) ∧
      ¬ (px1.img.area = 0 ∧ 1 * 1 ≠ 0) := by decide

theorem witness_PackIsCombined :
    (px1.img.w ≠ (loaded 2 1 [grey 0, grey 0]).img.w ∨ px1.img.h ≠ (loaded 2 1 [grey 0, grey 0]).img.h) ∧
      px1.img.full ∧ px1.img.sameDims px1.img := ⟨by decide, px1_full, rfl, rfl⟩

/-- A secret and a carrier: of EncodeKeepsNibbles, RoundTrip and UniformRoundTrips, with each uniform secret. -/
theorem witness_RoundTrip :
    px1.img.full ∧ (px1.img.area = 0 → px1.img.area = 0) ∧ (loaded 0 5 []).img.full ∧
      ((loaded 0 4 []).img.area = 0 → (loaded 0 5 []).img.area = 0) ∧
      (loaded 1 1 [grey 255]).img.Uniform ⟨255, 255, 255, 255⟩ ∧ (loaded 1 1 [grey 0]).img.Uniform ⟨0, 0, 0, 255⟩ := by
  refine ⟨px1_full, by decide, by rfl, by decide, fun x y h => ?_, fun x y h => ?_⟩ <;>
  · obtain ⟨rfl, rfl⟩ : x = 0 ∧ y = 0 := ⟨Nat.lt_one_iff.1 h.1, Nat.lt_one_iff.1 h.2⟩
    intro c; cases c <;> decide

theorem witness_CarrierLeavesNoTrace :
    ∃ out, (loaded 0 5 []).img.full ∧ encodeImages (loaded 0 5 []).img px1.img = some (.ok out) ∧
      encodeImages (loaded 0 5 []).img (loaded 0 4 []).img = some (.ok out) := ⟨_, by rfl, by rfl, by rfl⟩

theorem witness_CarrierLeavesNoTrace_of_pixels :
    ∃ out1 out2, px1.img.full ∧ encodeImages px1.img px1.img = some (.ok out1) ∧
      encodeImages px1.img (loaded 1 1 [grey 9]).img = some (.ok out2) := by
  obtain ⟨_, o1, _, _, _, _, _, _, _, h1, _⟩ := encodeImages_holds (S := px1.img) (C := px1.img) px1_full (by decide)
  obtain ⟨_, o2, _, _, _, _, _, _, _, h2, _⟩ :=
    encodeImages_holds (S := px1.img) (C := (loaded 1 1 [grey 9]).img) px1_full (by decide)
  exact ⟨o1, o2, px1_full, h1, h2⟩

theorem witness_ZeroAreaImages : (loaded 5 0 []).img.full ∧ (loaded 5 0 []).img.area = 0 ∧ 0 * 5 = 0 := ⟨by rfl, rfl, rfl⟩

theorem witness_StepKeepsInvariant : ∃ t, BlockInv busyEncode ∧ step busyEncode = .next t := ⟨_, busyEncode_inv, by rfl⟩

theorem witness_ResetAndAfter : { busyEncode with script := [.reset] }.script = .reset :: [] := rfl

theorem witness_ReadsHaveNoSideEffect : (HostTx.get .ia 0 0).isRead = true ∧ (HostTx.readNum 0x24 0 0).isRead = true := by decide

theorem witness_BusyIgnoresHost :
    busyEncode.status = .busy ∧ (HostTx.dims .io).alwaysAllowed = false ∧ (HostTx.readNum 5 0 0).alwaysAllowed = false := by decide

theorem witness_UnmetNeedsAreRefused :
    (ready []).status ≠ .busy ∧ ((ready []).reg .dw).valid = false ∧ ¬ ((ready []).reg .ia).img.inside 1 0 ∧
      ¬ ((ready []).reg .ia).img.inside 0 1 ∧ ImgName.dw.hostOwned = false ∧ HostReg.ofNumber 0x05 = none ∧
      HostReg.ofNumber 0x24 = none ∧ 0x01 = HostReg.status.number ∧ 0x02 = HostReg.err.number ∧
      0x11 = (HostReg.width .ia).number ∧ 0x22 = (HostReg.height .io).number ∧
      (0x14 = (HostReg.valid .ib).number ∧ 2 ≠ 0) ∧ (0x20 = (HostReg.valid .io).number ∧ ImgName.io.hostOwned = false) ∧
      (0x1B = (HostReg.pix .dw).number ∧ ImgName.dw.hostOwned = false) := by decide

theorem witness_LoadThenGet :
    (ready []).status ≠ .busy ∧ ImgName.ib.hostOwned = true ∧ [grey 1, grey 2].length = 2 * 1 ∧ 1 < 2 ∧ 0 < 1 ∧
      [grey 1, grey 2][0 * 2 + 1]? = some (grey 2) := by decide

theorem witness_PutThenGet :
    (ready []).status ≠ .busy ∧ ImgName.ia.hostOwned = true ∧ ((ready []).reg .ia).valid = true ∧
      ((ready []).reg .ia).img.full ∧ ((ready []).reg .ia).img.inside 0 0 := ⟨by decide, rfl, rfl, px1_full, by decide⟩

theorem witness_HostWrites : (ready []).status ≠ .busy := by decide

theorem witness_RegisterNumbers :
    HostReg.ofNumber 0x23 = some (.pix .io) ∧ (ready []).status ≠ .busy ∧ ((ready []).reg .ia).valid = true ∧
      ((ready []).reg .ia).img.readPixel 0 0 = some ⟨63, 128, 7, 0⟩ ∧ ((ready []).reg .rc).valid = false ∧
      0x1D = (HostReg.width .rc).number ∧ 0x1E = (HostReg.height .rc).number := by decide

theorem witness_PixelLayout : 0 < 1 := by decide

theorem witness_MalformedLinesReachNothing :
    (ready [.tx (.load .ia 1 1 [])]).script = .tx (.load .ia 1 1 []) :: [] ∧ (HostTx.load .ia 1 1 []).argsOk = false ∧
      ([] : List Pixel).length ≠ 1 * 1 ∧ ImgName.dw.hostOwned = false ∧
      2 ^ Config.dimBits ≤ 2 ^ Config.dimBits ∧ (fitsDim 0 ∧ fitsDim 1) ∧ 2 ^ 8 ≤ 256 ∧ 2 ^ 2 ≤ 4 ∧ 2 ^ 1 ≤ 2 ∧
      2 ^ 32 ≤ 4294967296 :=
  ⟨rfl, rfl, by decide, rfl, Nat.le_refl _, ⟨zero_fits, one_fits⟩, by decide, by decide, by decide, by decide⟩

theorem witness_MoveCopiesImage :
    (ready [.move .ib .ia]).status ≠ .busy ∧ ImgName.ib.hostOwned = true ∧
      ((ready [.move .ib .ia]).reg .ia).valid = true ∧ ((ready [.move .ib .ia]).reg .ia).img.full ∧
      ((ready [.move .ib .ia]).reg .ia).img.fits ∧ (ready [.move .ib .ia]).script = [.move .ib .ia] :=
  ⟨by decide, rfl, rfl, px1_full, px1_fits, rfl⟩

end Sys2Proof.Tests
end

section
/-! PROOFS. The register map (R53): numbers and registers name each other, and what an access by number does. -/

namespace Sys2Proof.Machine

theorem ImgName.index_of_ofIndex {i : Nat} {r : ImgName} (h : ImgName.ofIndex i = some r) : r.index = i := by
  unfold ImgName.ofIndex at h
  split at h <;> cases h <;> rfl

/-- The number of a host register names that register (R53). -/
@[simp] theorem HostReg.ofNumber_number (f : HostReg) : HostReg.ofNumber f.number = some f := by
  cases f with
  | cmd | status | err | tw | th => rfl
  | valid r | width r | height r | pix r => cases r <;> rfl

/-- A number names at most one host register (R53). -/
theorem HostReg.number_of_ofNumber {n : Nat} {f : HostReg} (h : HostReg.ofNumber n = some f) : f.number = n := by
  unfold HostReg.ofNumber at h
  split at h
  case h_6 =>
    split at h
    · cases h
    · obtain ⟨r, hr, rfl⟩ := Option.map_eq_some_iff.1 h
      have hi := ImgName.index_of_ofIndex hr
      split <;> simp only [HostReg.number]
      case h_4 h0 h1 h2 =>
        rw [imp_false] at h0 h1 h2
        omega
      all_goals omega
  all_goals cases h; rfl

/-! ## What an access by number stands for -/

section

variable (s : State) (r : ImgName) (x y v : Nat)

theorem hostTx_readNum_cmd : hostTx (.readNum HostReg.cmd.number x y) s = hostTx .readCmd s := by
  simp only [hostTx, hostReadNum, HostReg.ofNumber_number]

theorem hostTx_readNum_status : hostTx (.readNum HostReg.status.number x y) s = hostTx .readStatus s := by
  simp only [hostTx, hostReadNum, HostReg.ofNumber_number]

theorem hostTx_readNum_err : hostTx (.readNum HostReg.err.number x y) s = hostTx .readErr s := by
  simp only [hostTx, hostReadNum, HostReg.ofNumber_number]

theorem hostTx_readNum_tw : hostTx (.readNum HostReg.tw.number x y) s = hostTx .readTw s := by
  simp only [hostTx, hostReadNum, HostReg.ofNumber_number]

theorem hostTx_readNum_th : hostTx (.readNum HostReg.th.number x y) s = hostTx .readTh s := by
  simp only [hostTx, hostReadNum, HostReg.ofNumber_number]

theorem hostTx_readNum_valid : hostTx (.readNum (HostReg.valid r).number x y) s = hostReadValid r s := by
  simp only [hostTx, hostReadNum, HostReg.ofNumber_number]

theorem hostTx_readNum_width :
    hostTx (.readNum (HostReg.width r).number x y) s = hostReadDim (.width r) (fun img => img.w) r s := by
  simp only [hostTx, hostReadNum, HostReg.ofNumber_number]

theorem hostTx_readNum_height :
    hostTx (.readNum (HostReg.height r).number x y) s = hostReadDim (.height r) (fun img => img.h) r s := by
  simp only [hostTx, hostReadNum, HostReg.ofNumber_number]

theorem hostTx_readNum_pix :
    hostTx (.readNum (HostReg.pix r).number x y) s = hostGetAs (fun p => .word p.toWord.toNat) r x y s := by
  simp only [hostTx, hostReadNum, HostReg.ofNumber_number]

theorem hostTx_writeNum_cmd :
    hostTx (.writeNum HostReg.cmd.number x y v) s = hostTx (.writeCmd (BitVec.ofNat 8 v)) s := by
  simp only [hostTx, hostWriteNum, HostReg.ofNumber_number]

theorem hostTx_writeNum_tw : hostTx (.writeNum HostReg.tw.number x y v) s = hostTx (.writeTw v) s := by
  simp only [hostTx, hostWriteNum, HostReg.ofNumber_number]

theorem hostTx_writeNum_th : hostTx (.writeNum HostReg.th.number x y v) s = hostTx (.writeTh v) s := by
  simp only [hostTx, hostWriteNum, HostReg.ofNumber_number]

theorem hostTx_writeNum_valid_zero :
    hostTx (.writeNum (HostReg.valid r).number x y 0) s = hostTx (.invalidate r) s := by
  simp only [hostTx, hostWriteNum, HostReg.ofNumber_number, if_true]

theorem hostTx_writeNum_pix :
    hostTx (.writeNum (HostReg.pix r).number x y v) s = hostTx (.put r x y (Pixel.ofWord (BitVec.ofNat 32 v))) s := by
  simp only [hostTx, hostWriteNum, HostReg.ofNumber_number]

end

/-! ## Dimensions of a register that holds no image: free values that are DIM_BITS wide (R28, U4) -/

variable {s : State} {r : ImgName}

theorem State.freeDim_fits (s : State) (f : HostReg) : fitsDim (s.freeDim f) := BitVec.isLt _

theorem hostDims_invalid (hb : s.status ≠ .busy) (hv : (s.reg r).valid = false) :
    hostDims r s = .next (s.noted .done (s.freeDims false r)) := by
  simp [hostDims, hb, hv, answeredFree]

theorem hostReadDim_invalid {f : HostReg} {g : Image → Nat} (hb : s.status ≠ .busy) (hv : (s.reg r).valid = false) :
    hostReadDim f g r s = .next (s.noted .done (.word (s.freeDim f))) := by
  simp [hostReadDim, hb, hv, answeredFree]

end Sys2Proof.Machine
end

section
/-! PROOFS. The host's writes whose needs are met (R8, R62): what each answers. -/

namespace Sys2Proof

/-- A byte that decodes to a command is a byte of the table (R61). -/
theorem decodeByte_of_decode_ok {v : Byte} {i : Instr} (h : decode [v] = .ok (i, [])) : decodeByte v = some i := by
  rw [decode] at h
  split at h <;> cases h
  assumption

/-- A byte that does not decode is no byte of the table (R65). -/
theorem decodeByte_of_decode_error {v : Byte} {e : DecodeError} (h : decode [v] = .error e) :
    decodeByte v = none := by
  rw [decode] at h
  split at h <;> cases h
  assumption

/-- A pixel write inside the image answers an image (R42, R44). -/
theorem Image.exists_writePixel {img : Image} {x y : Nat} (hin : img.inside x y) (p : Pixel) :
    ∃ img', img.writePixel x y p = some img' :=
  ⟨_, if_pos hin⟩

namespace Machine

@[simp] theorem State.noted_reg (s : State) (m : TxMark) (a : Reply) (r : ImgName) : (s.noted m a).reg r = s.reg r :=
  (sameBlock.noted s m a).reg r

variable {s : State} {r : ImgName}

/-- What a write of an image register leaves: the register replaced and the answer noted, nothing else (R12). -/
theorem State.setReg_noted_frame (s : State) (r : ImgName) (v : ImgReg) :
    ∃ u, (s.setReg r v).noted .done .none = u ∧ u.status = s.status ∧ u.reg r = v ∧
      (∀ r', r' ≠ r → u.reg r' = s.reg r') ∧ u = { s.setReg r v with mark := .done, reply := .none } := by
  refine ⟨_, rfl, by simp, ?_, fun r' hr' => ?_, rfl⟩
  · rw [State.noted_reg, State.reg_setReg, if_pos rfl]
  · rw [State.noted_reg, State.reg_setReg, if_neg hr']

theorem hostTx_load (hb : s.status ≠ .busy) (ho : r.hostOwned = true) (w h : Nat) (px : List Pixel) :
    hostTx (.load r w h px) s
      = .next ((s.setReg r { valid := true, img := Image.ofPixels w h px }).noted .done .none) := by
  simp only [hostTx, hostLoad, if_neg hb, if_pos ho]

theorem hostTx_invalidate (hb : s.status ≠ .busy) (ho : r.hostOwned = true) :
    hostTx (.invalidate r) s = .next ((s.setReg r ImgReg.empty).noted .done .none) := by
  simp only [hostTx, hostInvalidate, if_neg hb, if_pos ho]

theorem hostTx_put {x y : Nat} {p : Pixel} {img : Image} (hb : s.status ≠ .busy) (ho : r.hostOwned = true)
    (hv : (s.reg r).valid = true) (hw : (s.reg r).img.writePixel x y p = some img) :
    hostTx (.put r x y p) s = .next ((s.setReg r { valid := true, img := img }).noted .done .none) := by
  simp only [hostTx, hostPut, if_neg hb, if_pos (And.intro ho hv), hw]

theorem hostWriteCmd_of_some {v : Byte} {i : Instr} (h : decodeByte v = some i) (s : State) :
    hostWriteCmd v s = exec i (s.noted .done .none) := by
  rw [hostWriteCmd, h]

theorem hostWriteCmd_of_none {v : Byte} (h : decodeByte v = none) (s : State) :
    hostWriteCmd v s = illegalCommand (s.noted .done .none) := by
  rw [hostWriteCmd, h]

theorem hostTx_writeTw (hb : s.status ≠ .busy) (v : Nat) :
    hostTx (.writeTw v) s = .next ({ s with tw := v }.noted .done .none) := by
  simp only [hostTx, hostWriteTw, if_neg hb]

theorem hostTx_writeTh (hb : s.status ≠ .busy) (v : Nat) :
    hostTx (.writeTh v) s = .next ({ s with th := v }.noted .done .none) := by
  simp only [hostTx, hostWriteTh, if_neg hb]

end Machine

end Sys2Proof
end

section
/-! PROOFS. The script layer's check (R64, R71): when each transaction's arguments are well formed, and what a line
with malformed ones does. -/

namespace Sys2Proof.Machine

/-- A line with malformed arguments is taken off the script and marked rejected (R71). -/
theorem step_tx_malformed {s : State} {tx : HostTx} {rest : List ScriptLine} (hs : s.script = .tx tx :: rest)
    (ha : tx.argsOk = false) : step s = .next { s with script := rest, mark := .rejected, reply := .none } := by
  simp only [step, advanceScript, hs, scriptLine, ha, Bool.false_eq_true, if_false]
  rfl

theorem coordsFit_iff {x y : Nat} : coordsFit x y = true ↔ fitsDim x ∧ fitsDim y := by
  simp [coordsFit]

theorem coordsFit_eq_false {x y : Nat} (h : ¬ fitsDim x ∨ ¬ fitsDim y) : coordsFit x y = false := by
  rw [Bool.eq_false_iff, Ne, coordsFit_iff]
  tauto

theorem HostTx.argsOk_load_iff {r : ImgName} {w h : Nat} {px : List Pixel} :
    (HostTx.load r w h px).argsOk = true ↔
      px.length = w * h ∧ fitsDim w ∧ fitsDim h ∧ r.hostOwned = true := by
  simp [HostTx.argsOk, and_assoc]

/-- A LOAD line is malformed when one of its four needs fails (R71). -/
theorem HostTx.argsOk_load_eq_false {r : ImgName} {w h : Nat} {px : List Pixel}
    (hn : px.length ≠ w * h ∨ ¬ fitsDim w ∨ ¬ fitsDim h ∨ r.hostOwned = false) :
    (HostTx.load r w h px).argsOk = false := by
  rw [Bool.eq_false_iff, Ne, argsOk_load_iff]
  rw [← Bool.not_eq_true] at hn
  tauto

theorem HostTx.argsOk_readNum_pix (r : ImgName) (x y : Nat) :
    (HostTx.readNum (HostReg.pix r).number x y).argsOk = coordsFit x y := by
  simp only [HostTx.argsOk, HostReg.ofNumber_number, HostReg.coordsOk]

theorem HostTx.argsOk_writeNum (f : HostReg) (x y v : Nat) :
    (HostTx.writeNum f.number x y v).argsOk = (decide (v < 2 ^ f.bits) && f.coordsOk x y) := by
  simp only [HostTx.argsOk, HostReg.ofNumber_number]

/-- A value wider than the register it is written to is malformed (R53, R71). -/
theorem HostTx.argsOk_writeNum_wide (f : HostReg) (x y : Nat) {v : Nat} (hv : 2 ^ f.bits ≤ v) :
    (HostTx.writeNum f.number x y v).argsOk = false := by
  rw [argsOk_writeNum, decide_eq_false (Nat.not_lt.2 hv), Bool.false_and]

/-- A pixel written through a PIX window whose coordinates do not fit is malformed (R6, R53). -/
theorem HostTx.argsOk_writeNum_pix_coords (r : ImgName) {x y : Nat} (v : Nat) (h : ¬ fitsDim x ∨ ¬ fitsDim y) :
    (HostTx.writeNum (HostReg.pix r).number x y v).argsOk = false := by
  rw [argsOk_writeNum, HostReg.coordsOk, coordsFit_eq_false h, Bool.and_false]

end Sys2Proof.Machine
end

section
/-! PROOFS. The statements of 00_scope.md: the host's transactions by name and by number, and the script layer. -/

namespace Sys2Proof.Machine

/-! ## Reading back what was written -/

/-- Settles O54: the loaded register is the full image of the list's pixels, and every read answers from it. -/
theorem loadThenGet : Obligations.LoadThenGet := by
  intro s r w h px hb ho hl
  have hload := hostTx_load hb ho w h px
  obtain ⟨u, hu, hstatus, hreg, hother, heq⟩ :=
    State.setReg_noted_frame s r { valid := true, img := Image.ofPixels w h px }
  rw [hu] at hload
  have hub : u.status ≠ .busy := by rwa [hstatus]
  have hvalid : (u.reg r).valid = true := by rw [hreg]
  have himg : (u.reg r).img = Image.ofPixels w h px := by rw [hreg]
  have hw : (u.reg r).img.w = w := by rw [himg, Image.ofPixels_w]
  have hh : (u.reg r).img.h = h := by rw [himg, Image.ofPixels_h]
  have hdims : hostTx (.dims r) u = .next (u.noted .done (.dims true w h)) := by
    rw [hostTx, hostDims_answers hub hvalid, hw, hh]
  have hnums : ∀ x y,
      hostTx (.readNum (HostReg.valid r).number x y) u = .next (u.noted .done (.word 1)) ∧
      hostTx (.readNum (HostReg.width r).number x y) u = .next (u.noted .done (.word w)) ∧
      hostTx (.readNum (HostReg.height r).number x y) u = .next (u.noted .done (.word h)) := by
    intro x y
    rw [hostTx_readNum_valid, hostReadValid_answers hub, hostTx_readNum_width, hostReadDim_answers hub hvalid,
      hostTx_readNum_height, hostReadDim_answers hub hvalid, hvalid, hw, hh]
    exact ⟨rfl, rfl, rfl⟩
  refine ⟨u, hload, hvalid, ?_, hother, ?_, hdims, hnums, fun x y p hx hy hp => ?_⟩
  · rw [himg]
    exact Image.full_ofPixels hl
  · rwa [hreg]
  · have hread : (u.reg r).img.readPixel x y = some p := by rw [himg]; exact Image.readPixel_ofPixels hx hy hp
    exact ⟨hostGet_answers hub hvalid hread, (hostTx_readNum_pix u r x y).trans (hostGetAs_answers hub hvalid hread)⟩

/-- Settles O55: a put is one pixel write of the register's image, and a pixel write changes that pixel only. -/
theorem putThenGet : Obligations.PutThenGet := by
  intro s r x y p hb ho hv hf hin
  obtain ⟨img, himg⟩ := Image.exists_writePixel hin p
  obtain ⟨-, hdims, hfull, -, hread⟩ := Image.writePixel_cases himg
  have hput := hostTx_put hb ho hv himg
  obtain ⟨u, hu, hstatus, hreg, hother, heq⟩ := State.setReg_noted_frame s r { valid := true, img := img }
  rw [hu] at hput
  have hub : u.status ≠ .busy := by rwa [hstatus]
  have hvalid : (u.reg r).valid = true := by rw [hreg]
  have hin' : img.inside x y := by rwa [Image.inside, hdims.1, hdims.2]
  have hpixel : (u.reg r).img.readPixel x y = some p := by
    rw [hreg, Image.readPixel_eq hin']
    intro c
    rw [hread, if_pos ⟨rfl, rfl⟩]
  refine ⟨u, hput, hvalid, ?_, ?_, hostGet_answers hub hvalid hpixel, fun x' y' c hne => ?_, hother, ?_⟩
  · rw [hreg]
    exact hfull hf
  · rwa [hreg]
  · rw [hreg, hread, if_neg (by simpa using hne)]
  · rwa [hreg]

/-! ## Reads and writes by number -/

/-- Settles O57: by the number of each register, and the reads of a register that holds an image and of one that
holds none. -/
theorem registerNumbers : Obligations.RegisterNumbers := by
  refine ⟨HostReg.ofNumber_number, fun n f => HostReg.number_of_ofNumber, ⟨rfl, rfl, rfl, rfl, rfl⟩,
    ⟨rfl, rfl, rfl, rfl, rfl⟩, fun r => ⟨rfl, rfl, rfl, rfl⟩, fun s r x y hb => ⟨fun hv => ?_, fun hv => ?_⟩⟩
  · have hvalid : hostReadValid r s = .next (s.noted .done (.word 1)) := by rw [hostReadValid_answers hb, hv]; rfl
    exact ⟨hostDims_answers hb hv, (hostTx_readNum_valid s r x y).trans hvalid,
      (hostTx_readNum_width s r x y).trans (hostReadDim_answers hb hv),
      (hostTx_readNum_height s r x y).trans (hostReadDim_answers hb hv),
      fun p hp => ⟨hostGet_answers hb hv hp, (hostTx_readNum_pix s r x y).trans (hostGetAs_answers hb hv hp)⟩⟩
  · have hvalid : hostReadValid r s = .next (s.noted .done (.word 0)) := by rw [hostReadValid_answers hb, hv]; rfl
    refine ⟨(hostTx_readNum_valid s r x y).trans hvalid, ?_, ?_⟩
    · exact ⟨_, _, _, hostDims_invalid hb hv, sameBlock.noted _ _ _, rfl, rfl, s.freeDim_fits _, s.freeDim_fits _⟩
    · rintro n (rfl | rfl)
      · rw [hostTx_readNum_width, hostReadDim_invalid hb hv]
        exact ⟨_, _, rfl, sameBlock.noted _ _ _, rfl, rfl, s.freeDim_fits _⟩
      · rw [hostTx_readNum_height, hostReadDim_invalid hb hv]
        exact ⟨_, _, rfl, sameBlock.noted _ _ _, rfl, rfl, s.freeDim_fits _⟩

/-- Settles O50: each of the five reads answers its register, and its number names it. -/
theorem alwaysAllowedReads : Obligations.AlwaysAllowedReads := by
  refine ⟨⟨rfl, rfl, rfl, rfl⟩, ⟨rfl, rfl, rfl, rfl⟩, fun s => ⟨rfl, rfl, rfl, rfl, rfl, fun x y => ?_⟩⟩
  exact ⟨hostTx_readNum_cmd s x y, hostTx_readNum_status s x y, hostTx_readNum_err s x y, hostTx_readNum_tw s x y,
    hostTx_readNum_th s x y⟩

/-- Settles O56: each write whose needs are met, and the write by number that stands for it. -/
theorem hostWrites : Obligations.HostWrites := by
  intro s hb
  refine ⟨fun v => ⟨hostTx_writeTw hb v, hostTx_writeTh hb v⟩, hostTx_invalidate hb rfl, hostTx_invalidate hb rfl,
    fun x y v => ?_⟩
  exact ⟨hostTx_writeNum_tw s x y v, hostTx_writeNum_th s x y v, hostTx_writeNum_valid_zero s .ia x y,
    hostTx_writeNum_valid_zero s .ib x y, hostTx_writeNum_cmd s x y v, hostTx_writeNum_pix s .ia x y v,
    hostTx_writeNum_pix s .ib x y v⟩

/-! ## Script lines -/

/-- Settles O4: a step takes the transaction, and a CMD write decodes its one byte. -/
theorem stepRunsDecodedCommand : Obligations.StepRunsDecodedCommand := by
  refine ⟨fun s tx rest => step_tx, fun s v rest hs => ?_⟩
  have hstep := step_tx hs rfl
  refine ⟨fun i _ hd => ?_, fun e hd => ?_⟩
  · rw [hstep, hostTx, hostWriteCmd_of_some (decodeByte_of_decode_ok hd)]
    rfl
  · rw [hstep, hostTx, hostWriteCmd_of_none (decodeByte_of_decode_error hd)]
    rfl

/-- Settles O59: each malformed form fails the one check it names. -/
theorem malformedLinesReachNothing : Obligations.MalformedLinesReachNothing := by
  refine ⟨fun s tx rest => step_tx_malformed, fun r w h px hl => HostTx.argsOk_load_eq_false (.inl hl),
    fun r ho => ⟨fun w h px => HostTx.argsOk_load_eq_false (.inr (.inr (.inr ho))), ho⟩, fun v hv => ?_,
    fun r x y p hx hy => ⟨coordsFit_iff.2 ⟨hx, hy⟩, coordsFit_iff.2 ⟨hx, hy⟩⟩, fun x y v => ?_⟩
  · have hnf : ¬ fitsDim v := Nat.not_lt.2 hv
    have hleft : ∀ c, coordsFit v c = false := fun c => coordsFit_eq_false (.inl hnf)
    have hright : ∀ c, coordsFit c v = false := fun c => coordsFit_eq_false (.inr hnf)
    refine ⟨decide_eq_false hnf, decide_eq_false hnf, fun r w px => ⟨?_, ?_⟩,
      fun r c p => ⟨hleft c, hright c, hleft c, hright c⟩, fun r c w => ⟨?_, ?_, ?_, ?_⟩⟩
    · exact HostTx.argsOk_load_eq_false (.inr (.inl hnf))
    · exact HostTx.argsOk_load_eq_false (.inr (.inr (.inl hnf)))
    · exact (HostTx.argsOk_readNum_pix r v c).trans (hleft c)
    · exact (HostTx.argsOk_readNum_pix r c v).trans (hright c)
    · exact HostTx.argsOk_writeNum_pix_coords r w (.inl hnf)
    · exact HostTx.argsOk_writeNum_pix_coords r w (.inr hnf)
  · have wide := fun f : HostReg => HostTx.argsOk_writeNum_wide f x y (v := v)
    exact ⟨fun hv => ⟨wide .cmd hv, wide .err hv⟩, wide .status, fun hv => ⟨wide .tw hv, wide .th hv⟩, fun r =>
      ⟨wide (.valid r), fun hv => ⟨wide (.width r) hv, wide (.height r) hv⟩, wide (.pix r)⟩⟩

end Sys2Proof.Machine
end

section
/-! PROOFS. What acceptance, a transaction and a sequencer step do to STATUS and to the operand registers (R16, R21). -/

namespace Sys2Proof.Machine

variable {s t : State}

/-- The acceptance of a command taken while not BUSY, as one state: it leaves the operands and the host's side
alone, and DW is a copy of IA exactly when DITHER or ENCODE started (R62, R141). -/
theorem exec_accepts {i : Instr} (hb : s.status ≠ .busy) (h : exec i s = .next t) :
    ∃ dw io status err phase,
      t = { s with dw := dw, rc := ImgReg.empty, io := io, status := status, err := err, phase := phase,
                   x := 0, y := 0, op := Op.ofInstr i, e := ErrLatch.zero } ∧
      dw = (if status = .busy ∧ (i = .dither ∨ i = .encode) then s.ia else ImgReg.empty) ∧ io.img.px = [] ∧
      (status = .busy ∧ err = .none ∨ status = .error) := by
  rcases exec_cases h with ⟨hb', -⟩ | ⟨-, rfl⟩ | ⟨-, rfl, -, rfl⟩ | ⟨-, rfl, -, -, rfl⟩ | ⟨-, rfl, -, -, -, rfl⟩ |
    ⟨-, rfl, -, rfl⟩
  · exact absurd hb' hb
  · exact ⟨_, _, _, _, _, rfl, rfl, rfl, .inr rfl⟩
  all_goals exact ⟨_, _, _, _, _, rfl, rfl, rfl, .inl ⟨rfl, rfl⟩⟩

/-- A CMD write leaves the operands alone, and takes STATUS to BUSY or ERROR if it changes it (R16, R62). -/
theorem hostWriteCmd_frame {v : Byte} (h : hostWriteCmd v s = .next t) :
    t.ia = s.ia ∧ t.ib = s.ib ∧
      (t.status = s.status ∨ s.status ≠ .busy ∧ (t.status = .busy ∨ t.status = .error)) := by
  rcases hostWriteCmd_cases h with ⟨i, -, hx⟩ | ⟨-, hx⟩
  · by_cases hb : s.status = .busy
    · rcases exec_cases hx with ⟨-, rfl⟩ | ⟨hb', -⟩ | ⟨hb', -⟩ | ⟨hb', -⟩ | ⟨hb', -⟩ | ⟨hb', -⟩
      · exact ⟨rfl, rfl, .inl rfl⟩
      all_goals exact absurd hb hb'
    · obtain ⟨_, _, _, _, _, rfl, -, -, hst⟩ := exec_accepts (s := s.noted .done .none) hb hx
      exact ⟨rfl, rfl, .inr ⟨hb, hst.imp_left And.left⟩⟩
  · rcases illegalCommand_cases hx with ⟨-, rfl⟩ | ⟨hb, rfl⟩
    · exact ⟨rfl, rfl, .inl rfl⟩
    · exact ⟨rfl, rfl, .inr ⟨hb, .inr rfl⟩⟩

/-- Among the transactions only a CMD write moves STATUS (R21, R62). -/
theorem hostTx_status {tx : HostTx} (h : hostTx tx s = .next t) :
    t.status = s.status ∨
      s.status ≠ .busy ∧ (t.status = .busy ∨ t.status = .error) ∧ tx.writesCmd = true := by
  rcases hostTx_cases h with hsame | ⟨-, r, w, hh, px, -, -, rfl⟩ | ⟨-, r, -, -, rfl⟩ |
    ⟨-, r, x, y, p, img, -, -, -, -, rfl⟩ | ⟨-, v, -, rfl | rfl⟩ | ⟨hcmd, v, hw⟩
  · exact .inl hsame.status
  · exact .inl (by simp)
  · exact .inl (by simp)
  · exact .inl (by simp)
  · exact .inl rfl
  · exact .inl rfl
  · exact (hostWriteCmd_frame hw).2.2.imp_right fun ⟨hb, hst⟩ => ⟨hb, hst, hcmd⟩

/-- Writing one image register changes no other, so a register that reads otherwise is the one written (R12). -/
theorem State.eq_of_setReg_noted_ne {r r' : ImgName} {v : ImgReg} {m : TxMark} {a : Reply}
    (hne : ((s.setReg r v).noted m a).reg r' ≠ s.reg r') : r' = r := by
  by_contra hr
  rw [State.noted_reg, State.reg_setReg, if_neg hr] at hne
  exact hne rfl

/-- The host owns IA and IB and no other image register (R14, R16). -/
theorem State.operand_eq (hia : t.ia = s.ia) (hib : t.ib = s.ib) {r : ImgName} (ho : r.hostOwned = true) :
    t.reg r = s.reg r := by
  cases r with
  | ia => exact hia
  | ib => exact hib
  | dw | rc | io => cases ho

/-- A transaction changes an operand register only as a write of that register while not BUSY (R16). -/
theorem hostTx_operands {tx : HostTx} (h : hostTx tx s = .next t) {r : ImgName} (ho : r.hostOwned = true)
    (hne : t.reg r ≠ s.reg r) : s.status ≠ .busy ∧ tx.writesImage = some r := by
  rcases hostTx_cases h with hsame | ⟨hb, r', w, hh, px, rfl, -, rfl⟩ | ⟨hb, r', hw, -, rfl⟩ |
    ⟨hb, r', x, y, p, img, hw, -, -, -, rfl⟩ | ⟨-, v, -, rfl | rfl⟩ | ⟨-, v, hw⟩
  · exact absurd (hsame.reg r) hne
  · obtain rfl := State.eq_of_setReg_noted_ne hne
    exact ⟨hb, rfl⟩
  · obtain rfl := State.eq_of_setReg_noted_ne hne
    exact ⟨hb, hw⟩
  · obtain rfl := State.eq_of_setReg_noted_ne hne
    exact ⟨hb, hw⟩
  · exact absurd (State.operand_eq rfl rfl ho) hne
  · exact absurd (State.operand_eq rfl rfl ho) hne
  · obtain ⟨hia, hib, -⟩ := hostWriteCmd_frame hw
    exact absurd (State.operand_eq hia hib ho) hne

/-- A sequencer step leaves the operands alone and keeps STATUS, unless it is P_FIN's: that one publishes a result,
and takes BUSY to DONE (R16, R21). -/
theorem stepPhase_frame (h : stepPhase s = .next t) :
    t.ia = s.ia ∧ t.ib = s.ib ∧
      (t.status = s.status ∨ t.status = .done ∧ s.phase = .fin ∧ t.phase = .none ∧ t.io.valid = true) := by
  rcases stepPhase_cases h with ⟨-, -, -, rfl⟩ | ⟨-, -, -, rfl⟩ | ⟨-, -, img, e, -, rfl⟩ | ⟨-, -, rfl⟩ | ⟨-, -, rfl⟩ |
    ⟨-, -, rfl⟩ | ⟨-, -, img, -, rfl⟩ | ⟨-, -, rfl⟩ | ⟨-, -, img, -, rfl⟩ | ⟨hp, -, rfl⟩ | ⟨hp, -, rfl⟩ | ⟨hp, -, rfl⟩
  all_goals simp [*]

end Sys2Proof.Machine
end

section
/-! PROOFS. The statements of 10_state.md: the invariant, the moves of STATUS, the operand registers, reset. -/

namespace Sys2Proof.Machine

variable {s t : State}

/-! ## The invariant -/

theorem fitsDim_zero : fitsDim 0 := Nat.two_pow_pos _

/-- Settles O46: at reset no register holds an image and the sequencer is idle. -/
theorem resetMeetsInvariant : Obligations.ResetMeetsInvariant where
  stores r := by cases r <;> exact ImgReg.empty_wf
  images r h := by cases r <;> cases h
  target := ⟨fitsDim_zero, fitsDim_zero⟩
  ioValid := by decide
  errCode := by decide
  running := by decide
  order := rfl
  alpha h := by cases h
  work := ⟨rfl, rfl⟩

/-- Settles O47: a step is a move of the script's bookkeeping, the reset, one transaction or one sequencer step, and
each of them keeps the invariant. -/
theorem stepKeepsInvariant : Obligations.StepKeepsInvariant := by
  intro s t h hs
  rcases step_cases hs with ⟨_, _, _, rfl⟩ | ⟨_, -, rfl⟩ | ⟨_, _, -, ha, hx⟩ | ⟨hb, sc, m, r, hx⟩
  · exact h.same ⟨_, _, _, _, rfl⟩
  · exact resetMeetsInvariant.same ⟨_, _, _, _, rfl⟩
  · exact hostTx_keeps (h.same ⟨_, _, _, _, rfl⟩) ha hx
  · obtain ⟨u, hu, hinv⟩ := stepPhase_keeps (h.same ⟨sc, m, r, s.freeCtr, rfl⟩) hb
    cases hx.symm.trans hu
    exact hinv

/-- Under the invariant the block's own step goes on: a BUSY block's phase has a step, and an idle block keeps its
state (R149). -/
theorem BlockInv.runBlock_next (h : BlockInv s) : ∃ t, runBlock s = .next t := by
  unfold runBlock
  split
  · rename_i hb
    obtain ⟨t, ht, -⟩ := stepPhase_keeps h hb
    exact ⟨t, ht⟩
  · exact ⟨s, rfl⟩

/-- Under the invariant every script line goes on. -/
theorem BlockInv.scriptLine_next (h : BlockInv s) (line : ScriptLine) : ∃ t, scriptLine line s = .next t := by
  cases line with
  | tx tx =>
    rw [scriptLine]
    split
    · exact hostTx_next tx _
    · exact ⟨_, rfl⟩
  | wait =>
    rw [scriptLine, scriptWait]
    split
    · exact (h.same ⟨_, _, _, _, rfl⟩).runBlock_next
    · exact ⟨_, rfl⟩
  | seq => exact h.runBlock_next
  | reset => exact ⟨_, rfl⟩
  | move r src =>
    rw [scriptLine]
    split
    · split <;> exact ⟨_, rfl⟩
    · exact ⟨_, rfl⟩

/-- Settles O48: the block's own step and every script line go on, and what they answer keeps the invariant. -/
theorem invariantStepGoesOn : Obligations.InvariantStepGoesOn := by
  intro s h
  have hnext : ∃ t, step s = .next t := by
    rw [step, advanceScript]
    split
    · exact h.runBlock_next
    · exact (h.same ⟨_, _, _, _, rfl⟩).scriptLine_next _
  obtain ⟨t, ht⟩ := hnext
  exact ⟨t, ht, stepKeepsInvariant s t h ht⟩

/-! ## STATUS and the operands -/

/-- Settles O27: STATUS is moved by reset, by a CMD write and by P_FIN's step; INVALID_INPUT is never raised, so that
clause is never the one that holds. -/
theorem statusMoves : Obligations.StatusMoves := by
  intro s t hs
  rcases step_cases hs with ⟨_, _, _, rfl⟩ | ⟨rest, hrest, rfl⟩ | ⟨tx, rest, hrest, -, hx⟩ | ⟨hb, _, _, _, hx⟩
  · exact .inl rfl
  · exact .inr (.inr (.inr (.inr ⟨rfl, rest, hrest⟩)))
  · exact (hostTx_status hx).imp_right fun ⟨hb, hst, hcmd⟩ => .inl ⟨hb, hst, tx, rest, hrest, hcmd⟩
  · exact (stepPhase_frame hx).2.2.imp_right fun ⟨hst, hp, hpt, hio⟩ => .inr (.inl ⟨hb, hst, hp, hpt, hio⟩)

/-- Settles O28: only reset and a transaction that writes the register change an operand. -/
theorem operandsAreTheHosts : Obligations.OperandsAreTheHosts := by
  intro s t hs r ho hne
  rcases step_cases hs with ⟨_, _, _, rfl⟩ | ⟨rest, hrest, rfl⟩ | ⟨tx, rest, hrest, -, hx⟩ | ⟨-, _, _, _, hx⟩
  · exact absurd (State.operand_eq rfl rfl ho) hne
  · exact .inl ⟨rest, hrest⟩
  · have hne' : t.reg r ≠
        State.reg { s with script := rest, freeCtr := if tx.isRead then s.freeCtr else s.freeCtr + 1 } r := by
      cases r <;> exact hne
    obtain ⟨hb, hw⟩ := hostTx_operands hx ho hne'
    exact .inr ⟨hb, tx, rest, hrest, hw⟩
  · obtain ⟨hia, hib, -⟩ := stepPhase_frame hx
    exact absurd (State.operand_eq hia hib ho) hne

/-- Settles O5: of the moves of STATUS only the CMD write's leads from a block that is not BUSY to BUSY. -/
theorem onlyCmdWriteStartsCommand : Obligations.OnlyCmdWriteStartsCommand := by
  refine ⟨fun s t hb hs ht => ?_, fun s hs hb => ?_⟩
  · rcases statusMoves s t hs with hst | ⟨-, -, hcmd⟩ | ⟨hb', -⟩ | ⟨hb', -⟩ | ⟨hidle, -⟩
    · exact absurd (hst.symm.trans ht) hb
    · exact hcmd
    · exact absurd hb' hb
    · exact absurd hb' hb
    · cases hidle.symm.trans ht
  · rw [step_of_script_nil hs, runBlock, if_neg hb]

/-! ## Acceptance -/

/-- Settles O12: from what acceptance leaves as one state. -/
theorem acceptanceFrame : Obligations.AcceptanceFrame := by
  intro i s t hb hx
  obtain ⟨dw, io, status, err, phase, rfl, rfl, hio, hst⟩ := exec_accepts hb hx
  refine ⟨rfl, rfl, rfl, rfl, rfl, rfl, rfl, rfl, rfl, rfl, rfl, rfl, fun _ => rfl, fun _ => rfl, fun _ => rfl,
    fun a => ?_, fun a => ?_, fun hbusy => ?_⟩
  · rw [hio, Memory.read_nil]
  · dsimp only
    split <;> rfl
  · rcases hst with ⟨-, herr⟩ | herr
    · exact herr
    · cases herr.symm.trans hbusy

/-- Acceptance is the same from two states that are alike once the command has begun, but for STATUS and PHASE, when
its check and its start do not look at those two: every way acceptance ends overwrites them (R62, R141). -/
theorem acceptCommand_congr {o : Op} {check : State → Option ErrCode} {go : State → State} {s s' : State}
    (hb : s.status ≠ .busy) (hb' : s'.status ≠ .busy) {st : Status} {p : Phase}
    (hbegin : s'.beginCommand o = { s.beginCommand o with status := st, phase := p })
    (hcheck : ∀ u : State, check { u with status := st, phase := p } = check u)
    (hgo : ∀ u : State, go { u with status := st, phase := p } = go u) :
    acceptCommand o check go s = acceptCommand o check go s' := by
  rw [acceptCommand, acceptCommand, if_neg hb, if_neg hb', hbegin, hcheck, hgo]
  rfl

/-- Settles O13: once begun, the two commands are at states that differ in STATUS and PHASE only. -/
theorem commandReadsOnlyItsOperands : Obligations.CommandReadsOnlyItsOperands := by
  intro i s s' hb hb' hia hib htw hth hscript hreply hmark hctr
  have hbegin : ∀ o, s'.beginCommand o = { s.beginCommand o with status := s'.status, phase := s'.phase } := by
    intro o
    simp only [State.beginCommand, State.dropResults, hia, hib, htw, hth, hscript, hreply, hmark, hctr]
  cases i <;> simp only [exec, execDither, execResize, execEncode, execDecode] <;>
    exact acceptCommand_congr hb hb' (hbegin _) (fun _ => rfl) (fun _ => rfl)

/-! ## Reset -/

/-- Settles O49: reset is one script line, and right after it each command's check finds no image in IA (R161). -/
theorem resetAndAfter : Obligations.ResetAndAfter := by
  refine ⟨fun s rest hs => ?_, fun r => ?_, rfl, rfl, rfl, rfl, rfl, rfl, rfl, rfl, rfl, fun i => ?_⟩
  · rw [step, advanceScript, hs]
    rfl
  · cases r <;> rfl
  · cases i <;> rfl

end Sys2Proof.Machine
end

section
/-! PROOFS. The scan phases, one step at a time (R24, R89, R115, R128). -/

namespace Sys2Proof.Machine

variable {s : State}

/-- A scan that stands at a pixel is not done (R24). -/
theorem not_scanDone {w h x y : Nat} (hx : x < w) (hy : y < h) : ¬ scanDone w h y := by
  unfold scanDone
  omega

/-- Settles O22: the step of P_DSCAN, its scan done or at a pixel. -/
theorem ditherScanStep : Obligations.DitherScanStep := by
  intro s hs hb hp
  have hstep : step s = stepDscan s := (step_busy hs hb).trans (stepPhase_dscan hp)
  refine ⟨fun hd => ⟨fun ho => ?_, fun ho => ?_⟩, fun hd img e hv => ?_⟩
  · exact hstep.trans (stepDscan_done_dither hd ho)
  · exact hstep.trans (stepDscan_done_encode hd ho)
  · rw [hstep, stepDscan_visit hd hv, State.advance_eq]

/-- Settles O24: the steps of P_MUX and P_EXT, their scan done or at a pixel of a partly filled IO. -/
theorem packAndExtractStep : Obligations.PackAndExtractStep := by
  refine ⟨fun s hs hb hd hp => ?_, fun s hs hb hf hx hy => ⟨fun hp hdw hrc hsd hsr => ?_, fun hp hia hsi => ?_⟩⟩
  · rcases hp with hp | hp
    · exact (step_busy hs hb).trans ((stepPhase_mux hp).trans (stepMux_done hd))
    · exact (step_busy hs hb).trans ((stepPhase_ext hp).trans (stepExt_done hd))
  · obtain ⟨img, hpack, hdims, hfill, halpha, hcol, hother⟩ := packPixel_filledTo hdw hrc hsd hsr ⟨hx, hy⟩ hf
    refine ⟨img, ?_, hdims, hfill, halpha, hcol, fun x y c hne => hother x y c (by simpa using hne)⟩
    rw [step_busy hs hb, stepPhase_mux hp, stepMux_pixel (not_scanDone hx hy) hpack, State.advance_eq]
  · obtain ⟨img, hext, hdims, hfill, halpha, hcol, hother⟩ := extractPixel_filledTo hia hsi ⟨hx, hy⟩ hf
    refine ⟨img, ?_, hdims, hfill, halpha, hcol, fun x y c hne => hother x y c (by simpa using hne)⟩
    rw [step_busy hs hb, stepPhase_ext hp, stepExt_pixel (not_scanDone hx hy) hext, State.advance_eq]

end Sys2Proof.Machine
end

section
/-! PROOFS. Threshold, nibbles and images (R26, R31, R82, R84, R114, R127). -/

namespace Sys2Proof

namespace Machine

theorem threshold_of_le {cur : Byte} (h : cur.toNat ≤ 127) : threshold cur = 0 := if_neg (by omega)

theorem threshold_of_lt {cur : Byte} (h : 127 < cur.toNat) : threshold cur = 255 := if_pos h

/-- The latch holds the error itself: the difference of two bytes fits 9 bits of two's complement (R26, R84). -/
theorem toInt_quantError (cur out : Byte) : (quantError cur out).toInt = (cur.toNat : Int) - (out.toNat : Int) := by
  have hcur := cur.isLt
  have hout := out.isLt
  rw [quantError, BitVec.toInt_ofInt]
  exact Int.bmod_eq_of_le (by omega) (by omega)

/-- Settles O15: below the threshold the error is the value, from it on the value less 255. -/
theorem thresholdAndError : Obligations.ThresholdAndError := by
  intro cur
  have hlt := cur.isLt
  have hzero : cur = 0 ↔ cur.toNat = 0 := BitVec.toNat_inj.symm
  have hmax : cur = 255 ↔ cur.toNat = 255 := BitVec.toNat_inj.symm
  refine ⟨threshold_of_le, threshold_of_lt, toInt_quantError _ _, ?_⟩
  rw [toInt_quantError, hzero, hmax]
  rcases Nat.lt_or_ge 127 cur.toNat with hc | hc
  · have hout : (threshold cur).toNat = 255 := by rw [threshold_of_lt hc]; rfl
    omega
  · have hout : (threshold cur).toNat = 0 := by rw [threshold_of_le hc]; rfl
    omega

/-- The high nibble of MUXNIB is the carrier's (R114). -/
theorem muxNib_high (rc d : Byte) : (muxNib rc d).extractLsb' 4 4 = rc.extractLsb' 4 4 := by
  ext i hi
  interval_cases i <;> simp [muxNib]

/-- The low nibble of MUXNIB is the high nibble of the dithered value (R114). -/
theorem muxNib_low (rc d : Byte) : (muxNib rc d).extractLsb' 0 4 = d.extractLsb' 4 4 := by
  ext i hi
  interval_cases i <;> simp [muxNib]

/-- Extracting what was muxed gives back the high nibble of the dithered value (R114, R127). -/
theorem extNib_muxNib (rc d : Byte) : extNib (muxNib rc d) = d &&& 0xF0#8 := by
  ext i hi
  interval_cases i <;> simp [extNib, muxNib]

end Machine

open Machine

namespace Image

variable {img out d rc : Image} {P D R : Planes}

/-- Planes with alpha 255 make every pixel of their image opaque (R13). -/
theorem holds.opaqueAlpha (h : img.holds P) (ha : ∀ x y, P .a x y = 255) : img.opaqueAlpha := by
  intro x y hin
  rw [h.2 x y .a hin, ha]

/-- An image of the combined planes of two others is Combined of them (R31, R118). -/
theorem holds.combined (h : out.holds (packPlanes D R)) (hd : d.holds D) (hr : rc.holds R) (hsd : out.sameDims d)
    (hsr : out.sameDims rc) : out.Combined d rc := by
  refine ⟨hsd, hsr, h.opaqueAlpha fun _ _ => rfl, fun x y hin c hc => ?_⟩
  refine ⟨muxNib (R c x y) (D c x y), D c x y, R c x y, ?_, hd.2 x y c (hsd.inside.1 hin),
    hr.2 x y c (hsr.inside.1 hin), muxNib_high _ _, muxNib_low _ _⟩
  rw [h.2 x y c hin]
  rcases colours_cases hc with rfl | rfl | rfl <;> rfl

/-- A channel of a Dithered image is 0 or 255 (R31). -/
theorem Dithered.value {x y : Nat} {c : Chan} (h : img.Dithered) (hP : img.holds P) (hin : img.inside x y)
    (hc : c ∈ colours) : P c x y = 0 ∨ P c x y = 255 := by
  have hchan := (h x y hin).1 c hc
  rw [hP.2 x y c hin] at hchan
  simpa using hchan

/-- What decoding a combined image gives back in each colour channel (R130). -/
theorem extractPlanes_packPlanes {x y : Nat} {c : Chan} (hc : c ∈ colours) :
    extractPlanes (packPlanes D R) c x y = D c x y &&& 0xF0#8 := by
  rcases colours_cases hc with rfl | rfl | rfl <;> exact extNib_muxNib _ _

end Image

namespace Machine

/-- Settles O35: the dither scan, run from zero latches. -/
theorem ditherResultIsDithered : Obligations.DitherResultIsDithered := by
  intro img hf
  obtain ⟨out, _, hscan, hfull, hdims, hdithered⟩ := ditherScan_dithered hf ErrLatch.zero
  exact ⟨out, ditherImage_of_scan hscan, hfull, hdims, hdithered⟩

/-- Settles O39: the check of the dimensions, and the packed planes. -/
theorem packIsCombined : Obligations.PackIsCombined := by
  refine fun d rc => ⟨fun hne => if_pos hne, fun hd hr hs => ?_⟩
  obtain ⟨D, hD⟩ := hd.exists_holds
  obtain ⟨R, hR⟩ := hr.exists_holds
  obtain ⟨out, hpack, hdims, hout⟩ := packImages_holds hD hR hs
  exact ⟨out, hpack, hout.1, hout.combined hD hR hdims (hdims.trans hs)⟩

/-- Settles O41: decoding the packed planes gives back the high nibble of the dithered secret, which is Dithered. -/
theorem roundTrip : Obligations.RoundTrip := by
  intro secret carrier hf hc
  obtain ⟨d, out, D, R, hdither, hdithered, hds, hD, -, hencode, hod, hout⟩ := encodeImages_holds hf hc
  obtain ⟨rec, hdecode, hro, hrec⟩ := decodeImage_holds hout
  have hrd : rec.sameDims d := hro.trans hod
  have hchan : ∀ x y, rec.inside x y → ∀ c ∈ colours,
      rec.readChan x y c = some (D c x y &&& 0xF0#8) ∧
        (D c x y = 0 ∧ rec.readChan x y c = some 0 ∨ D c x y = 255 ∧ rec.readChan x y c = some 240) := by
    intro x y hin c hcol
    have hread : rec.readChan x y c = some (D c x y &&& 0xF0#8) := by
      rw [hrec.2 x y c hin, Image.extractPlanes_packPlanes hcol]
    refine ⟨hread, ?_⟩
    rcases hdithered.value hD (hrd.inside.1 hin) hcol with hv | hv
    · exact .inl ⟨hv, by rw [hread, hv]; rfl⟩
    · exact .inr ⟨hv, by rw [hread, hv]; rfl⟩
  refine ⟨d, out, rec, hdither, hencode, hdecode, hrec.1, hrd.trans hds, ⟨hrec.opaqueAlpha fun _ _ => rfl, ?_⟩, ?_⟩
  · intro x y hin c hcol
    exact (hchan x y hin c hcol).2.imp And.right And.right
  · intro x y hin c hcol
    exact ⟨D c x y, hD.2 x y c (hrd.inside.1 hin), hchan x y hin c hcol⟩

end Machine

end Sys2Proof
end

section
/-! PROOFS. The pixel word (R66). -/

namespace Sys2Proof

/-- Each channel stands in the pixel word at eight times its index (R66). -/
theorem Pixel.extractLsb'_toWord (p : Pixel) (c : Chan) : p.toWord.extractLsb' (8 * c.idx) 8 = p.chan c := by
  refine BitVec.eq_of_getLsbD_eq fun k hk => ?_
  rw [BitVec.getLsbD_extractLsb', decide_eq_true hk, Bool.true_and, Pixel.getLsbD_toWord]
  generalize hi : 8 * c.idx + k = i
  cases c <;> rw [Chan.idx] at hi <;> rw [Pixel.chan]
  case r => rw [if_pos (by omega), show i = k by omega]
  case g => rw [if_neg (by omega), if_pos (by omega), show i - 8 = k by omega]
  case b => rw [if_neg (by omega), if_neg (by omega), if_pos (by omega), show i - 8 - 8 = k by omega]
  case a => rw [if_neg (by omega), if_neg (by omega), if_neg (by omega), show i - 8 - 8 - 8 = k by omega]

theorem Pixel.ofWord_toWord (p : Pixel) : Pixel.ofWord p.toWord = p := by
  have h := p.extractLsb'_toWord
  exact congr (congr (congr (congrArg Pixel.mk (h .r)) (h .g)) (h .b)) (h .a)

/-- Bit by bit: a bit of the word is the bit of the channel it stands in (R66). -/
theorem Pixel.toWord_ofWord (v : BitVec 32) : (Pixel.ofWord v).toWord = v := by
  refine BitVec.eq_of_getLsbD_eq fun i hi => ?_
  rw [Pixel.getLsbD_toWord]
  simp only [Pixel.ofWord, BitVec.getLsbD_extractLsb']
  split_ifs with h0 h1 h2
  all_goals
    rw [decide_eq_true (by omega), Bool.true_and]
    congr 1
    omega

end Sys2Proof
end

section
/-! PROOFS. Transactions that change nothing of the block: ignored while BUSY (R50), or refused for want of their
needs (R46). -/

namespace Sys2Proof.Machine

variable {s : State} {r : ImgName}

/-- A number names a host register or does not exist (R53). -/
theorem HostReg.ofNumber_none_or (n : Nat) : HostReg.ofNumber n = none ∨ ∃ f : HostReg, n = f.number := by
  cases h : HostReg.ofNumber n with
  | none => exact .inl rfl
  | some f => exact .inr ⟨f, (HostReg.number_of_ofNumber h).symm⟩

/-- An answer that is noted leaves the block as it is. -/
theorem exists_noted {o : Host.Outcome State Fault Refusal} {m : TxMark} {a : Reply} (h : o = .next (s.noted m a)) :
    ∃ u, o = .next u ∧ sameBlock s u ∧ u.mark = m :=
  ⟨_, h, sameBlock.noted s m a, rfl⟩

/-! ## What an access by number stands for, where it is not an access by name -/

theorem hostTx_readNum_none {n : Nat} (h : HostReg.ofNumber n = none) (s : State) (x y : Nat) :
    hostTx (.readNum n x y) s = hostReadNowhere n s := by
  simp only [hostTx, hostReadNum, h]

theorem hostTx_writeNum_none {n : Nat} (h : HostReg.ofNumber n = none) (s : State) (x y v : Nat) :
    hostTx (.writeNum n x y v) s = hostWriteRefused s := by
  simp only [hostTx, hostWriteNum, h]

/-- The registers that do not take `v` by number: STATUS, ERR, W and H, and VALID when `v` is not 0 (log entry 9). -/
def HostReg.readOnlyFor (f : HostReg) (v : Nat) : Prop :=
  f = .status ∨ f = .err ∨ ∃ r, f = .width r ∨ f = .height r ∨ f = .valid r ∧ v ≠ 0

theorem hostTx_writeNum_readOnly {f : HostReg} {v : Nat} (hf : f.readOnlyFor v) (s : State) (x y : Nat) :
    hostTx (.writeNum f.number x y v) s = hostWriteRefused s := by
  rcases hf with rfl | rfl | ⟨r, rfl | rfl | ⟨rfl, hv⟩⟩ <;>
    simp only [hostTx, hostWriteNum, HostReg.ofNumber_number]
  exact if_neg hv

/-! ## While BUSY (R50) -/

section
variable (hb : s.status = .busy)
include hb

theorem exec_busy {i : Instr} : exec i s = .next (s.noted .ignored .none) := by
  cases i <;> simp only [exec, execDither, execResize, execEncode, execDecode] <;> exact acceptCommand_busy hb

theorem hostWriteCmd_busy {v : Byte} : hostWriteCmd v s = .next (s.noted .ignored .none) := by
  cases h : decodeByte v with
  | some i => exact (hostWriteCmd_of_some h s).trans (exec_busy (s := s.noted .done .none) hb)
  | none => exact (hostWriteCmd_of_none h s).trans (acceptCommand_busy (s := s.noted .done .none) hb)

theorem hostWriteRefused_busy : hostWriteRefused s = .next (s.noted .ignored .none) := if_pos hb

theorem hostLoad_busy {w h : Nat} {px : List Pixel} :
    hostLoad r w h px s = .next (s.noted .ignored .none) := if_pos hb

theorem hostInvalidate_busy : hostInvalidate r s = .next (s.noted .ignored .none) := if_pos hb

theorem hostPut_busy {x y : Nat} {p : Pixel} :
    hostPut r x y p s = .next (s.noted .ignored .none) := if_pos hb

theorem hostWriteTw_busy {v : Nat} : hostWriteTw v s = .next (s.noted .ignored .none) := if_pos hb

theorem hostWriteTh_busy {v : Nat} : hostWriteTh v s = .next (s.noted .ignored .none) := if_pos hb

theorem hostGetAs_busy {out : Pixel → Reply} {x y : Nat} :
    hostGetAs out r x y s = .next (s.noted .ignored (out (s.freePixel r x y))) := if_pos hb

theorem hostDims_busy :
    hostDims r s = .next (s.noted .ignored (s.freeDims (s.freeBit r) r)) := if_pos hb

theorem hostReadValid_busy :
    hostReadValid r s = .next (s.noted .ignored (.word (s.freeBit r).toNat)) := if_pos hb

theorem hostReadDim_busy {f : HostReg} {g : Image → Nat} :
    hostReadDim f g r s = .next (s.noted .ignored (.word (s.freeDim f))) := if_pos hb

theorem hostReadNowhere_busy {n : Nat} :
    hostReadNowhere n s = .next (s.noted .ignored (.word (Config.freeWord (s.freeKey n 0 0)))) := if_pos hb

/-- A write by number is ignored like the write by name it stands for. -/
theorem hostTx_writeNum_busy (n x y v : Nat) : hostTx (.writeNum n x y v) s = .next (s.noted .ignored .none) := by
  rcases HostReg.ofNumber_none_or n with hn | ⟨f, rfl⟩
  · exact (hostTx_writeNum_none hn s x y v).trans (hostWriteRefused_busy hb)
  · cases f with
    | cmd => exact (hostTx_writeNum_cmd s x y v).trans (hostWriteCmd_busy hb)
    | tw => exact (hostTx_writeNum_tw s x y v).trans (hostWriteTw_busy hb)
    | th => exact (hostTx_writeNum_th s x y v).trans (hostWriteTh_busy hb)
    | pix r => exact (hostTx_writeNum_pix s r x y v).trans (hostPut_busy hb)
    | status | err | width r | height r =>
      exact (hostTx_writeNum_readOnly (by simp [HostReg.readOnlyFor]) s x y).trans (hostWriteRefused_busy hb)
    | valid r =>
      by_cases hv : v = 0
      · subst hv
        exact (hostTx_writeNum_valid_zero s r x y).trans (hostInvalidate_busy hb)
      · exact (hostTx_writeNum_readOnly (by simp [HostReg.readOnlyFor, hv]) s x y).trans (hostWriteRefused_busy hb)

/-- A read by number of anything but the five registers that may always be read is ignored, like the read by name
it stands for. -/
theorem hostTx_readNum_busy {n : Nat} (hn : ¬ n < 5) (x y : Nat) :
    ∃ a, hostTx (.readNum n x y) s = .next (s.noted .ignored a) := by
  rcases HostReg.ofNumber_none_or n with hnone | ⟨f, rfl⟩
  · exact ⟨_, (hostTx_readNum_none hnone s x y).trans (hostReadNowhere_busy hb)⟩
  · cases f with
    | cmd | status | err | tw | th => exact absurd (by decide) hn
    | valid r => exact ⟨_, (hostTx_readNum_valid s r x y).trans (hostReadValid_busy hb)⟩
    | width r => exact ⟨_, (hostTx_readNum_width s r x y).trans (hostReadDim_busy hb)⟩
    | height r => exact ⟨_, (hostTx_readNum_height s r x y).trans (hostReadDim_busy hb)⟩
    | pix r => exact ⟨_, (hostTx_readNum_pix s r x y).trans (hostGetAs_busy hb)⟩

end

/-! ## While not BUSY, without the needs (R46) -/

section
variable (hb : s.status ≠ .busy)
include hb

theorem hostLoad_refused (ho : r.hostOwned = false) {w h : Nat} {px : List Pixel} :
    hostLoad r w h px s = .next (s.noted .refused .none) := by
  simp [hostLoad, hb, ho, refusedTx]

theorem hostInvalidate_refused (ho : r.hostOwned = false) :
    hostInvalidate r s = .next (s.noted .refused .none) := by
  simp [hostInvalidate, hb, ho, refusedTx]

/-- HostPut needs a register of the host's that holds an image, and a pixel inside it (R8). -/
theorem hostPut_refused {x y : Nat}
    (hn : r.hostOwned = false ∨ (s.reg r).valid = false ∨ ¬ (s.reg r).img.inside x y) {p : Pixel} :
    hostPut r x y p s = .next (s.noted .refused .none) := by
  rcases hn with ho | hv | hin
  · simp [hostPut, hb, ho, refusedTx]
  · simp [hostPut, hb, hv, refusedTx]
  · simp [hostPut, hb, Image.writePixel_outside hin, refusedTx]

/-- HostGet needs a register that holds an image, and a pixel that is there (R8). -/
theorem hostGetAs_refused {x y : Nat}
    (hn : (s.reg r).valid = false ∨ (s.reg r).img.readPixel x y = none) {out : Pixel → Reply} :
    hostGetAs out r x y s = .next (s.noted .refused (out (s.freePixel r x y))) := by
  rcases hn with hv | hp
  · simp [hostGetAs, hb, hv, answeredFree]
  · simp [hostGetAs, hb, hp, answeredFree]

theorem hostReadNowhere_refused {n : Nat} :
    hostReadNowhere n s = .next (s.noted .refused (.word (Config.freeWord (s.freeKey n 0 0)))) := if_neg hb

theorem hostWriteRefused_refused : hostWriteRefused s = .next (s.noted .refused .none) := if_neg hb

theorem hostTx_writeNum_refused {f : HostReg} {v : Nat} (hf : f.readOnlyFor v) (x y : Nat) :
    hostTx (.writeNum f.number x y v) s = .next (s.noted .refused .none) :=
  (hostTx_writeNum_readOnly hf s x y).trans (hostWriteRefused_refused hb)

end

end Sys2Proof.Machine
end

section
/-! PROOFS. Reads (R54): their answer does not depend on the host's side of the state. -/

namespace Sys2Proof.Machine

/-- The block of `s` with another host's side: what the host still means to do, and what it was told. -/
def State.withHost (s : State) (script : List ScriptLine) (m : TxMark) (a : Reply) : State :=
  { s with script := script, mark := m, reply := a }

/-- From the block of `s`, whatever the host's side is, the transaction `f` notes one and the same mark and reply,
and changes nothing else (R54). -/
def answersAlike (f : State → Host.Outcome State Fault Refusal) (s : State) : Prop :=
  ∃ m a, ∀ script m' a', f (s.withHost script m' a') = .next (s.withHost script m a)

variable {f g : State → Host.Outcome State Fault Refusal} {s : State}

theorem answersAlike.congr (h : answersAlike g s) (hfg : ∀ u, f u = g u) : answersAlike f s := by
  rwa [funext hfg]

/-- Such a transaction changes nothing of the block, and made again it answers the same. -/
theorem answersAlike.repeats (h : answersAlike f s) : ∃ u, f s = .next u ∧ sameBlock s u ∧ f u = .next u := by
  obtain ⟨m, a, h⟩ := h
  exact ⟨s.noted m a, h s.script s.mark s.reply, sameBlock.noted s m a, h s.script m a⟩

theorem hostGetAs_alike (out : Pixel → Reply) (r : ImgName) (x y : Nat) (s : State) :
    answersAlike (hostGetAs out r x y) s := by
  by_cases hb : s.status = .busy
  · exact ⟨.ignored, out (s.freePixel r x y), fun sc m a => hostGetAs_busy (s := s.withHost sc m a) hb⟩
  cases hv : (s.reg r).valid with
  | false => exact ⟨.refused, out (s.freePixel r x y),
      fun sc m a => hostGetAs_refused (s := s.withHost sc m a) hb (.inl hv)⟩
  | true =>
    cases hp : (s.reg r).img.readPixel x y with
    | none => exact ⟨.refused, out (s.freePixel r x y),
        fun sc m a => hostGetAs_refused (s := s.withHost sc m a) hb (.inr hp)⟩
    | some p => exact ⟨.done, out p, fun sc m a => hostGetAs_answers (s := s.withHost sc m a) hb hv hp⟩

theorem hostDims_alike (r : ImgName) (s : State) : answersAlike (hostDims r) s := by
  by_cases hb : s.status = .busy
  · exact ⟨.ignored, s.freeDims (s.freeBit r) r, fun sc m a => hostDims_busy (s := s.withHost sc m a) hb⟩
  cases hv : (s.reg r).valid with
  | false => exact ⟨.done, s.freeDims false r, fun sc m a => hostDims_invalid (s := s.withHost sc m a) hb hv⟩
  | true => exact ⟨.done, .dims true (s.reg r).img.w (s.reg r).img.h,
      fun sc m a => hostDims_answers (s := s.withHost sc m a) hb hv⟩

theorem hostReadValid_alike (r : ImgName) (s : State) : answersAlike (hostReadValid r) s := by
  by_cases hb : s.status = .busy
  · exact ⟨.ignored, .word (s.freeBit r).toNat, fun sc m a => hostReadValid_busy (s := s.withHost sc m a) hb⟩
  · exact ⟨.done, .word (s.reg r).valid.toNat, fun sc m a => hostReadValid_answers (s := s.withHost sc m a) hb⟩

theorem hostReadDim_alike (d : HostReg) (field : Image → Nat) (r : ImgName) (s : State) :
    answersAlike (hostReadDim d field r) s := by
  by_cases hb : s.status = .busy
  · exact ⟨.ignored, .word (s.freeDim d), fun sc m a => hostReadDim_busy (s := s.withHost sc m a) hb⟩
  cases hv : (s.reg r).valid with
  | false => exact ⟨.done, .word (s.freeDim d), fun sc m a => hostReadDim_invalid (s := s.withHost sc m a) hb hv⟩
  | true => exact ⟨.done, .word (field (s.reg r).img), fun sc m a => hostReadDim_answers (s := s.withHost sc m a) hb hv⟩

theorem hostReadNowhere_alike (n : Nat) (s : State) : answersAlike (hostReadNowhere n) s := by
  by_cases hb : s.status = .busy
  · exact ⟨.ignored, .word (Config.freeWord (s.freeKey n 0 0)),
      fun sc m a => hostReadNowhere_busy (s := s.withHost sc m a) hb⟩
  · exact ⟨.refused, .word (Config.freeWord (s.freeKey n 0 0)),
      fun sc m a => hostReadNowhere_refused (s := s.withHost sc m a) hb⟩

/-- The five reads that are always allowed answer their register (R8, R20). -/
theorem alwaysAllowed_alike (s : State) :
    answersAlike (hostTx .readStatus) s ∧ answersAlike (hostTx .readErr) s ∧ answersAlike (hostTx .readTw) s ∧
      answersAlike (hostTx .readTh) s ∧ answersAlike (hostTx .readCmd) s :=
  ⟨⟨.done, .word s.status.code.toNat, fun _ _ _ => rfl⟩, ⟨.done, .word s.err.code.toNat, fun _ _ _ => rfl⟩,
    ⟨.done, .word s.tw, fun _ _ _ => rfl⟩, ⟨.done, .word s.th, fun _ _ _ => rfl⟩, ⟨.done, .word 0, fun _ _ _ => rfl⟩⟩

/-- A read by number answers like the read it stands for (R53). -/
theorem hostTx_readNum_alike (n x y : Nat) (s : State) : answersAlike (hostTx (.readNum n x y)) s := by
  obtain ⟨hstatus, herr, htw, hth, hcmd⟩ := alwaysAllowed_alike s
  rcases HostReg.ofNumber_none_or n with hn | ⟨f, rfl⟩
  · exact (hostReadNowhere_alike n s).congr fun u => hostTx_readNum_none hn u x y
  · cases f with
    | cmd => exact hcmd.congr fun u => hostTx_readNum_cmd u x y
    | status => exact hstatus.congr fun u => hostTx_readNum_status u x y
    | err => exact herr.congr fun u => hostTx_readNum_err u x y
    | tw => exact htw.congr fun u => hostTx_readNum_tw u x y
    | th => exact hth.congr fun u => hostTx_readNum_th u x y
    | valid r => exact (hostReadValid_alike r s).congr fun u => hostTx_readNum_valid u r x y
    | width r => exact (hostReadDim_alike _ _ r s).congr fun u => hostTx_readNum_width u r x y
    | height r => exact (hostReadDim_alike _ _ r s).congr fun u => hostTx_readNum_height u r x y
    | pix r => exact (hostGetAs_alike _ r x y s).congr fun u => hostTx_readNum_pix u r x y

/-- Every read answers alike (R54). -/
theorem hostTx_read_alike {tx : HostTx} (h : tx.isRead = true) (s : State) : answersAlike (hostTx tx) s := by
  obtain ⟨hstatus, herr, htw, hth, hcmd⟩ := alwaysAllowed_alike s
  cases tx with
  | get r x y => exact hostGetAs_alike .pixel r x y s
  | dims r => exact hostDims_alike r s
  | readStatus => exact hstatus
  | readErr => exact herr
  | readTw => exact htw
  | readTh => exact hth
  | readCmd => exact hcmd
  | readNum n x y => exact hostTx_readNum_alike n x y s
  | load | invalidate | put | writeTw | writeTh | writeCmd | writeNum => cases h

end Sys2Proof.Machine
end

section
/-! PROOFS. The statements of 20_memory.md: reads, BUSY, refusals, the pixel word and the offered command. -/

namespace Sys2Proof.Machine

/-- Settles O51: every read answers alike, whatever the host's side of the state holds. -/
theorem readsHaveNoSideEffect : Obligations.ReadsHaveNoSideEffect :=
  fun _ s h => ⟨(hostTx_read_alike h s).repeats, hostTx_read_alike h s⟩

/-- Settles O11: acceptance ignores a command while BUSY, and a byte that is no command as well. -/
theorem cmdWriteIgnoredWhileBusy : Obligations.CmdWriteIgnoredWhileBusy :=
  fun _ hb => ⟨fun _ => exec_busy hb, fun _ => hostWriteCmd_busy hb⟩

/-- Settles O52: each transaction that is not always allowed has its own BUSY answer. -/
theorem busyIgnoresHost : Obligations.BusyIgnoresHost := by
  intro tx s hb ha
  cases tx with
  | load r w h px => exact exists_noted (hostLoad_busy hb)
  | invalidate r => exact exists_noted (hostInvalidate_busy hb)
  | put r x y p => exact exists_noted (hostPut_busy hb)
  | get r x y => exact exists_noted (hostGetAs_busy hb)
  | dims r => exact exists_noted (hostDims_busy hb)
  | writeTw v => exact exists_noted (hostWriteTw_busy hb)
  | writeTh v => exact exists_noted (hostWriteTh_busy hb)
  | writeCmd v => exact exists_noted (hostWriteCmd_busy hb)
  | readStatus | readErr | readTw | readTh | readCmd => cases ha
  | readNum n x y =>
    obtain ⟨_, hread⟩ := hostTx_readNum_busy hb (of_decide_eq_false ha) x y
    exact exists_noted hread
  | writeNum n x y v => exact exists_noted (hostTx_writeNum_busy hb n x y v)

/-- Settles O53: each access by name whose needs fail, and the accesses by number that stand for it or for nothing. -/
theorem unmetNeedsAreRefused : Obligations.UnmetNeedsAreRefused := by
  intro s hb
  refine ⟨fun r x y hn => ?_, fun r ho => ?_, fun n x y hn => ?_, fun n x y v hn => ?_⟩
  · have hpx := hn.imp_right Image.readPixel_outside
    exact ⟨exists_noted (hostGetAs_refused hb hpx), fun p => exists_noted (hostPut_refused hb (.inr hn)),
      exists_noted ((hostTx_readNum_pix s r x y).trans (hostGetAs_refused hb hpx)),
      fun v => exists_noted ((hostTx_writeNum_pix s r x y v).trans (hostPut_refused hb (.inr hn)))⟩
  · exact ⟨fun w h px => exists_noted (hostLoad_refused hb ho),
      fun x y p => exists_noted (hostPut_refused hb (.inl ho)), exists_noted (hostInvalidate_refused hb ho)⟩
  · exact ⟨exists_noted ((hostTx_readNum_none hn s x y).trans (hostReadNowhere_refused hb)),
      fun v => exists_noted ((hostTx_writeNum_none hn s x y v).trans (hostWriteRefused_refused hb))⟩
  · rcases hn with rfl | rfl | ⟨r, rfl | rfl | ⟨rfl, hv⟩ | ⟨rfl, ho⟩⟩
    · exact exists_noted (hostTx_writeNum_refused hb (by simp [HostReg.readOnlyFor]) x y)
    · exact exists_noted (hostTx_writeNum_refused hb (by simp [HostReg.readOnlyFor]) x y)
    · exact exists_noted (hostTx_writeNum_refused hb (by simp [HostReg.readOnlyFor]) x y)
    · exact exists_noted (hostTx_writeNum_refused hb (by simp [HostReg.readOnlyFor]) x y)
    · by_cases hz : v = 0
      · subst hz
        have ho : r.hostOwned = false := hv.resolve_right fun h => h rfl
        exact exists_noted ((hostTx_writeNum_valid_zero s r x y).trans (hostInvalidate_refused hb ho))
      · exact exists_noted (hostTx_writeNum_refused hb (by simp [HostReg.readOnlyFor, hz]) x y)
    · exact exists_noted ((hostTx_writeNum_pix s r x y v).trans (hostPut_refused hb (.inl ho)))

/-- Settles O58: the word holds each channel at its place, and channel addresses name one channel each. -/
theorem pixelLayout : Obligations.PixelLayout :=
  ⟨fun p => ⟨p.extractLsb'_toWord .r, p.extractLsb'_toWord .g, p.extractLsb'_toWord .b, p.extractLsb'_toWord .a,
      p.ofWord_toWord⟩,
    Pixel.toWord_ofWord, fun _ _ _ => ⟨rfl, rfl, rfl, rfl⟩, fun _ _ _ _ _ _ _ => chanAddr_inj⟩

/-- Putting a running command aside leaves the host's side alone (log entry 4). -/
theorem readyForCommand_eq (s : State) :
    ∃ st p, readyForCommand s = { s with status := st, phase := p } := by
  unfold readyForCommand
  split <;> exact ⟨_, _, rfl⟩

/-- Settles O3: the table word is the command's byte, and the step takes the CMD write of it. -/
theorem offeredCommandRunsNext : Obligations.OfferedCommandRunsNext := by
  intro i s
  have hdecode : decode [tableByte (encodeByte i).toNat] = .ok (i, []) := by cases i <;> rfl
  have hwf : i.wf = true := by cases i <;> rfl
  obtain ⟨st, p, hready⟩ := readyForCommand_eq s
  refine ⟨by cases i <;> rfl, ?_⟩
  rw [(stepRunsDecodedCommand.2 (s.withFetchWord 8 (encodeByte i).toNat) _ s.script rfl).1 i hwf hdecode]
  simp only [State.withFetchWord, offerCommand, hready]

end Sys2Proof.Machine
end

section
/-! PROOFS. The command word (R60, R61, R65): the decoder reads exactly the encoder's bytes. -/

namespace Sys2Proof

/-- Every row of the opcode table compares the whole byte with its command's byte (R61, R73). -/
theorem opcodeTable_rows : ∀ row ∈ opcodeTable, row.mask = BitVec.allOnes 8 ∧ row.pattern = encodeByte row.instr := by
  decide

/-- A byte is a command exactly when it is that command's byte (R61). -/
theorem decodeByte_eq_some_iff {v : Byte} {i : Instr} : decodeByte v = some i ↔ v = encodeByte i := by
  constructor
  · intro h
    obtain ⟨row, hfind, rfl⟩ := Option.map_eq_some_iff.1 h
    obtain ⟨hmask, hpattern⟩ := opcodeTable_rows row (List.mem_of_find?_eq_some hfind)
    have hmatch : v &&& row.mask = row.pattern := by simpa using List.find?_some hfind
    rwa [hmask, hpattern, BitVec.and_allOnes] at hmatch
  · rintro rfl
    cases i <;> rfl

/-- The four command bytes are 1, 2, 3 and 4 (R61). -/
theorem encodeByte_mem (i : Instr) : encodeByte i ∈ [0x01#8, 0x02#8, 0x03#8, 0x04#8] := by
  cases i <;> decide

/-- Every other byte is no command (R65). -/
theorem decodeByte_eq_none {v : Byte} (hv : v ∉ [0x01#8, 0x02#8, 0x03#8, 0x04#8]) : decodeByte v = none := by
  refine Option.eq_none_iff_forall_ne_some.2 fun i hi => hv ?_
  rw [decodeByte_eq_some_iff.1 hi]
  exact encodeByte_mem i

theorem decode_cons_of_none {v : Byte} (h : decodeByte v = none) (rest : List Byte) :
    decode (v :: rest) = .error (.illegalCommand v) := by
  rw [decode, h]

/-- The decoder takes one byte, a command's, and leaves the rest (R60). -/
theorem decode_cons_eq_ok_iff {v : Byte} {tail rest : List Byte} {i : Instr} :
    decode (v :: tail) = .ok (i, rest) ↔ v = encodeByte i ∧ tail = rest := by
  rw [← decodeByte_eq_some_iff]
  cases h : decodeByte v with
  | none => simp [decode_cons_of_none h]
  | some j => simp [decode, h]

end Sys2Proof
end

section
/-! PROOFS. The sequencer's progress (R144): how many steps the running command has left, and that each step is one
of them. -/

namespace Sys2Proof.Machine

variable {s t : State}

/-- The pixels of a scan of IA's dimensions that are not processed yet: those from (X, Y) on (R24). -/
def pixelsLeft (s : State) : Nat :=
  s.ia.img.area - (s.y * s.ia.img.w + s.x)

/-- The sequencer steps the running command has left. A scan phase has one for each pixel left and one to leave; each
command's scans have IA's dimensions. ENCODE goes from P_DSCAN through P_RSZ and P_MUX, which scans once more. -/
def workLeft (s : State) : Nat :=
  match s.phase with
  | .none => 0
  | .dscan => pixelsLeft s + 2 + if s.op = .encode then s.ia.img.area + 2 else 0
  | .rsz => 2 + if s.op = .encode then s.ia.img.area + 1 else 0
  | .mux => pixelsLeft s + 2
  | .ext => pixelsLeft s + 2
  | .fin => 1

@[simp] theorem workLeft_noted (s : State) (m : TxMark) (a : Reply) : workLeft (s.noted m a) = workLeft s := rfl

theorem workLeft_pos_iff_phase : 0 < workLeft s ↔ s.phase ≠ .none := by
  cases hp : s.phase <;> simp [workLeft, hp]

/-- A running command has steps left, and a block that is not BUSY has none (R23). -/
theorem BlockInv.workLeft_pos_iff (h : BlockInv s) : 0 < workLeft s ↔ s.status = .busy :=
  workLeft_pos_iff_phase.trans h.running

/-- The running command scans `img`, which has IA's dimensions, and stands at a scan position of it (R24). -/
def scans (s : State) (img : Image) : Prop :=
  img.sameDims s.ia.img ∧ scanAt s.ia.img.w s.ia.img.h s.x s.y

/-- P_DSCAN scans DW, P_MUX and P_EXT scan IO (R89, R115, R128). -/
theorem BlockInv.scan_of_phase (h : BlockInv s) :
    (s.phase = .dscan → scans s s.dw.img) ∧ (s.phase = .mux → scans s s.io.img) ∧
      (s.phase = .ext → scans s s.io.img) := by
  have hwork := h.work
  refine ⟨fun hp => ?_, fun hp => ?_, fun hp => ?_⟩ <;> rw [workDone, hp] at hwork
  · obtain ⟨-, -, hdims, hat, -⟩ := hwork
    exact ⟨hdims, by rwa [← hdims.1, ← hdims.2]⟩
  · obtain ⟨-, -, -, hdwia, -, hiodw, hat, -⟩ := hwork
    have hdims := hiodw.trans hdwia
    exact ⟨hdims, by rwa [← hdims.1, ← hdims.2]⟩
  · obtain ⟨-, hdims, hat, -⟩ := hwork
    exact ⟨hdims, by rwa [← hdims.1, ← hdims.2]⟩

variable {img : Image}

/-- A scan that is done has no pixel left (R24). -/
theorem scans.pixelsLeft_of_done (h : scans s img) (hd : scanDone img.w img.h s.y) : pixelsLeft s = 0 := by
  obtain ⟨⟨hw, hh⟩, hat⟩ := h
  rw [hw, hh] at hd
  rcases hat.cases with ⟨hnd, -⟩ | ⟨-, -, hpos⟩
  · exact absurd hd hnd
  · rw [pixelsLeft, hpos, Image.area, Nat.sub_self]

/-- Advancing past a pixel leaves one pixel fewer (R24). -/
theorem scans.pixelsLeft_advance (h : scans s img) (hnd : ¬ scanDone img.w img.h s.y) :
    pixelsLeft (s.advance img.w) + 1 = pixelsLeft s := by
  obtain ⟨⟨hw, hh⟩, hat⟩ := h
  rw [hw, hh] at hnd
  rcases hat.cases with ⟨-, hx, hy⟩ | ⟨hd, -⟩
  · have hlt := rowMajor_lt hx hy
    rw [hw, pixelsLeft, pixelsLeft, State.advance_ia, (advance_position hx hy).2, Image.area]
    omega
  · exact absurd hd hnd

/-- In a scan phase, advancing past a pixel is one step of the work left. -/
theorem scans.workLeft_advance (h : scans s img) (hnd : ¬ scanDone img.w img.h s.y)
    (hp : s.phase = .dscan ∨ s.phase = .mux ∨ s.phase = .ext) : workLeft (s.advance img.w) + 1 = workLeft s := by
  have hleft := h.pixelsLeft_advance hnd
  rcases hp with hp | hp | hp <;> simp only [workLeft, hp, State.advance_phase, State.advance_op, State.advance_ia] <;>
    omega

/-- EACH STEP of the running command is one of those it had left. -/
theorem stepPhase_workLeft (h : BlockInv s) (hx : stepPhase s = .next t) : workLeft t + 1 = workLeft s := by
  obtain ⟨hdscan, hmux, hext⟩ := h.scan_of_phase
  rcases stepPhase_cases hx with ⟨hp, hd, ho, rfl⟩ | ⟨hp, hd, ho, rfl⟩ | ⟨hp, hnd, img, e, -, rfl⟩ | ⟨hp, ho, rfl⟩ |
    ⟨hp, ho, rfl⟩ | ⟨hp, hd, rfl⟩ | ⟨hp, hnd, img, -, rfl⟩ | ⟨hp, hd, rfl⟩ | ⟨hp, hnd, img, -, rfl⟩ | ⟨hp, ho, rfl⟩ |
    ⟨hp, ho, rfl⟩ | ⟨hp, ho, rfl⟩
  · simp [workLeft, hp, ho, (hdscan hp).pixelsLeft_of_done hd]
  · simp [workLeft, hp, ho, (hdscan hp).pixelsLeft_of_done hd]
    omega
  · exact scans.workLeft_advance (s := { s with dw := { s.dw with img := img }, e := e }) (hdscan hp) hnd (.inl hp)
  · simp [workLeft, hp, ho]
  · simp [workLeft, pixelsLeft, hp, ho]
    omega
  · simp [workLeft, hp, (hmux hp).pixelsLeft_of_done hd]
  · exact scans.workLeft_advance (s := { s with io := { s.io with img := img } }) (hmux hp) hnd (.inr (.inl hp))
  · simp [workLeft, hp, (hext hp).pixelsLeft_of_done hd]
  · exact scans.workLeft_advance (s := { s with io := { s.io with img := img } }) (hext hp) hnd (.inr (.inr hp))
  all_goals simp [workLeft, hp]

/-- The sequencer changes neither the command at work nor what the host still means to do (R25; log entry 4). -/
theorem stepPhase_op_script (h : stepPhase s = .next t) : t.op = s.op ∧ t.script = s.script := by
  rcases stepPhase_cases h with ⟨-, -, -, rfl⟩ | ⟨-, -, -, rfl⟩ | ⟨-, -, img, e, -, rfl⟩ | ⟨-, -, rfl⟩ | ⟨-, -, rfl⟩ |
    ⟨-, -, rfl⟩ | ⟨-, -, img, -, rfl⟩ | ⟨-, -, rfl⟩ | ⟨-, -, img, -, rfl⟩ | ⟨-, -, rfl⟩ | ⟨-, -, rfl⟩ | ⟨-, -, rfl⟩
  all_goals simp

/-! ## WAIT (R71) -/

variable {rest : List ScriptLine}

/-- While BUSY a WAIT line reads STATUS, gives the sequencer its step and stays (log entry 11). -/
theorem step_wait_busy (hs : s.script = .wait :: rest) (hb : s.status = .busy) :
    step s = stepPhase (s.noted .done (.word s.status.code.toNat)) := by
  simp only [step, advanceScript, hs, scriptLine, scriptWait, if_pos hb, runBlock]
  rw [← hs]
  exact if_pos hb

/-- A WAIT line that reads a STATUS other than BUSY is taken off the script. -/
theorem step_wait_not_busy (hs : s.script = .wait :: rest) (hb : s.status ≠ .busy) :
    step s = .next ({ s with script := rest }.noted .done (.word s.status.code.toNat)) := by
  simp only [step, advanceScript, hs, scriptLine, scriptWait, if_neg hb]
  rfl

/-- A WAIT ALWAYS ENDS: it gives the running command every step it has left, after which the command is DONE, and the
STATUS it read last is what the host knows. -/
theorem BlockInv.run_wait (h : BlockInv s) (hs : s.script = .wait :: rest) :
    ∃ t, core.run (workLeft s + 1) s = .next t ∧ t.script = rest ∧ t.op = s.op ∧
      t.reply = .word t.status.code.toNat ∧ t.status = if s.status = .busy then .done else s.status := by
  induction hk : workLeft s generalizing s with
  | zero =>
    have hb : s.status ≠ .busy := fun hb => by have := h.workLeft_pos_iff.2 hb; omega
    exact ⟨_, core_run_succ 0 (step_wait_not_busy hs hb), rfl, rfl, rfl, (if_neg hb).symm⟩
  | succ k ih =>
    have hb : s.status = .busy := h.workLeft_pos_iff.1 (by omega)
    have hnoted : BlockInv (s.noted .done (.word s.status.code.toNat)) := h.same ⟨_, _, _, _, rfl⟩
    obtain ⟨u, hu, hinv⟩ := stepPhase_keeps hnoted hb
    obtain ⟨hop, hscript⟩ := stepPhase_op_script hu
    have hleft := stepPhase_workLeft hnoted hu
    rw [workLeft_noted] at hleft
    obtain ⟨t, hrun, hrest, htop, hreply, hstatus⟩ := ih hinv (hscript.trans hs) (by omega)
    refine ⟨t, (core_run_succ _ ((step_wait_busy hs hb).trans hu)).trans hrun, hrest, htop.trans hop, hreply, ?_⟩
    obtain ⟨-, -, hst | ⟨hst, -⟩⟩ := stepPhase_frame hu
    · rwa [hst] at hstatus
    · rw [if_pos hb, hstatus, hst, if_neg (by decide)]

end Sys2Proof.Machine
end

section
/-! PROOFS. The pseudo-instruction MOVE (R72): its expansion is reads of the source, then one LOAD. -/

namespace Sys2Proof.Machine

variable {s : State} {r src : ImgName}

/-- Reads at the head of the script are taken one by one, and leave the block as it is (R54). -/
theorem run_reads {rest : List ScriptLine} {reads : List HostTx}
    (hreads : ∀ tx ∈ reads, tx.isRead = true ∧ tx.argsOk = true) (s : State) (m : TxMark) (a : Reply) :
    ∃ m' a', core.run reads.length (s.withHost (reads.map .tx ++ rest) m a) = .next (s.withHost rest m' a') := by
  induction reads generalizing m a with
  | nil => exact ⟨m, a, rfl⟩
  | cons tx reads ih =>
    obtain ⟨⟨hread, hargs⟩, htail⟩ := List.forall_mem_cons.1 hreads
    obtain ⟨m₁, a₁, halike⟩ := hostTx_read_alike hread s
    have hstep : step (s.withHost ((tx :: reads).map .tx ++ rest) m a) =
        .next (s.withHost (reads.map .tx ++ rest) m₁ a₁) := by
      rw [step_tx rfl hargs, if_pos hread]
      exact halike _ m a
    rw [List.length_cons, core_run_succ _ hstep]
    exact ih htail m₁ a₁

/-- The reads MOVE makes of an image register (R72): its dimensions, then every pixel in row-major order. -/
def moveReads (s : State) (src : ImgName) : List HostTx :=
  .dims src :: (Image.rowMajor (s.reg src).img.w (s.reg src).img.h).map fun p => .get src p.1 p.2

/-- They are reads whose coordinates fit (R71). -/
theorem moveReads_wf (hfits : (s.reg src).img.fits) :
    ∀ tx ∈ moveReads s src, tx.isRead = true ∧ tx.argsOk = true := by
  refine List.forall_mem_cons.2 ⟨⟨rfl, rfl⟩, List.forall_mem_map.2 fun p hp => ⟨rfl, ?_⟩⟩
  obtain ⟨hx, hy⟩ := Image.mem_rowMajor.1 hp
  exact coordsFit_iff.2 ⟨hx.trans hfits.1, hy.trans hfits.2⟩

/-- A LOAD line puts its pixels into the register (R8, R71). -/
theorem step_load {rest : List ScriptLine} {w h : Nat} {px : List Pixel} (hs : s.script = .tx (.load r w h px) :: rest)
    (hargs : (HostTx.load r w h px).argsOk = true) (hb : s.status ≠ .busy) :
    step s = .next ((State.setReg { s with script := rest, freeCtr := s.freeCtr + 1 } r
      { valid := true, img := Image.ofPixels w h px }).noted .done .none) := by
  obtain ⟨-, -, -, ho⟩ := HostTx.argsOk_load_iff.1 hargs
  exact (step_tx hs hargs).trans (hostTx_load (by exact hb) ho w h px)

/-- MOVE, where it may be used, is replaced by its expansion (R72; log entry 10). -/
theorem step_move {rest : List ScriptLine} {px : List Pixel} (hs : s.script = .move r src :: rest)
    (ho : r.hostOwned = true) (hb : s.status ≠ .busy) (hv : (s.reg src).valid = true)
    (hpx : (s.reg src).img.pixels = some px) :
    step s = .next { s with
      script := (moveReads s src).map .tx ++ .tx (.load r (s.reg src).img.w (s.reg src).img.h px) :: rest } := by
  have hexpand : expandMove r src { s with script := rest } = some ((moveReads s src).map .tx ++
      [.tx (.load r (s.reg src).img.w (s.reg src).img.h px)]) := by
    have hreg : State.reg { s with script := rest } src = s.reg src := by cases src <;> rfl
    rw [expandMove, hreg, if_neg (by simp [hb, hv]), hpx]
    simp [moveReads]
  simp only [step, advanceScript, hs, scriptLine, if_pos ho, hexpand, List.append_assoc, List.singleton_append]

end Sys2Proof.Machine
end

section
/-! PROOFS. The statements of 30_encoding.md: the command word, acceptance, the neighbour table, RUN and MOVE. -/

namespace Sys2Proof.Machine

/-! ## The command word -/

/-- Settles O1: the table's four bytes, and no other byte is a command's. -/
theorem opcodeMap : Obligations.OpcodeMap :=
  ⟨rfl, rfl, rfl, rfl, fun _ hv => decode_cons_of_none (decodeByte_eq_none hv) []⟩

/-- Settles O2: the decoder takes exactly a command's byte off the front. -/
theorem decodeAndEncodeAgree : Obligations.DecodeAndEncodeAgree := by
  refine ⟨fun i rest _ => decode_cons_eq_ok_iff.2 ⟨rfl, rfl⟩, fun bytes rest i h => ?_⟩
  cases bytes with
  | nil => cases h
  | cons v tail =>
    obtain ⟨rfl, rfl⟩ := decode_cons_eq_ok_iff.1 h
    rfl

/-! ## Acceptance of a command -/

/-- Settles O6: DITHER needs an image in IA. -/
theorem ditherAcceptance : Obligations.DitherAcceptance := by
  refine fun s hb => ⟨fun hv => ?_, fun hv => ?_⟩
  all_goals have hcheck := checkDither_none (s := s.beginCommand .dither)
  · rw [exec, execDither, acceptCommand_starts hb (hcheck.2 hv)]
    rfl
  · have hno : checkDither (s.beginCommand .dither) ≠ none := fun hc => by cases hv.symm.trans (hcheck.1 hc)
    rw [exec, execDither, acceptCommand_raises hb (check_not_none.1 hno)]
    rfl

/-- Settles O7: RESIZE needs an image in IA, one with pixels unless the target is empty. -/
theorem resizeAcceptance : Obligations.ResizeAcceptance := by
  refine fun s hb => ⟨fun hv => ?_, fun hv => ?_⟩
  all_goals have hcheck := checkResize_none (s := s.beginCommand .resize)
  · rw [exec, execResize, acceptCommand_starts hb (hcheck.2 hv)]
    rfl
  · have hno : checkResize (s.beginCommand .resize) ≠ none := by
      intro hc
      obtain ⟨hia, hsample⟩ := hcheck.1 hc
      rcases hv with hv | ⟨hempty, htarget⟩
      · cases hv.symm.trans hia
      · exact htarget (hsample hempty)
    rw [exec, execResize, acceptCommand_raises hb (check_not_none.2.1 hno)]
    rfl

/-- Settles O8: ENCODE needs images in IA and IB, and an empty carrier an empty secret. -/
theorem encodeAcceptance : Obligations.EncodeAcceptance := by
  refine fun s hb => ⟨fun hv => ?_, fun hv => ?_⟩
  all_goals have hcheck := checkEncode_none (s := s.beginCommand .encode)
  · rw [exec, execEncode, acceptCommand_starts hb (hcheck.2 hv)]
    rfl
  · have hno : checkEncode (s.beginCommand .encode) ≠ none := by
      intro hc
      obtain ⟨hia, hib, hsample⟩ := hcheck.1 hc
      rcases hv with hv | hv | ⟨hempty, hsecret⟩
      · cases hv.symm.trans hia
      · cases hv.symm.trans hib
      · exact hsecret (hsample hempty)
    rw [exec, execEncode, acceptCommand_raises hb (check_not_none.2.2.1 hno)]
    rfl

/-- Settles O9: DECODE needs an image in IA. -/
theorem decodeAcceptance : Obligations.DecodeAcceptance := by
  refine fun s hb => ⟨fun hv => ?_, fun hv => ?_⟩
  all_goals have hcheck := checkDecode_none (s := s.beginCommand .decode)
  · rw [exec, execDecode, acceptCommand_starts hb (hcheck.2 hv)]
    rfl
  · have hno : checkDecode (s.beginCommand .decode) ≠ none := fun hc => by cases hv.symm.trans (hcheck.1 hc)
    rw [exec, execDecode, acceptCommand_raises hb (check_not_none.2.2.2 hno)]
    rfl

/-- Settles O10: such a byte is no command's, and the illegal word's acceptance always raises. -/
theorem illegalCommandRaises : Obligations.IllegalCommandRaises := fun s _ hb hv =>
  (hostWriteCmd_of_none (decodeByte_eq_none hv) s).trans
    (acceptCommand_raises (s := s.noted .done .none) hb rfl)

/-! ## The neighbour table -/

/-- A neighbour is the pixel at its offset where a condition `P` says that this pixel is inside, and none elsewhere
(R85). -/
theorem neighbourAt_eq_ite {w h x y nx ny k : Nat} {dx dy : Int} {P : Prop} [Decidable P]
    (hinside : P ↔ 0 ≤ x + dx ∧ x + dx < w ∧ 0 ≤ y + dy ∧ y + dy < h)
    (hoffset : P → (nx : Int) = x + dx ∧ (ny : Int) = y + dy) :
    neighbourAt w h x y { dx := dx, dy := dy, weight := k } = if P then some (nx, ny) else none := by
  rw [neighbourAt, if_congr hinside.symm rfl rfl]
  split
  · rename_i hP
    obtain ⟨hx, hy⟩ := hoffset hP
    rw [← hx, ← hy, Int.toNat_natCast, Int.toNat_natCast]
  · rfl

/-- Settles O19: each offset of the table, and when the pixel there is inside. -/
theorem neighbourTable : Obligations.NeighbourTable := by
  refine ⟨rfl, fun w h x y hx hy => ?_⟩
  simp only [neighbours, List.map_cons, List.map_nil, List.cons.injEq, and_true]
  refine ⟨?_, ?_, ?_, ?_⟩ <;> exact neighbourAt_eq_ite (by omega) (by omega)

/-! ## Pseudo-instructions -/

/-- Settles O34: the CMD write is the command's acceptance, which starts it or raises, and the WAIT then ends. -/
theorem runScriptEnds : Obligations.RunScriptEnds := by
  intro i s h hb hs
  have hdecode : decode [encodeByte i] = .ok (i, []) := decode_cons_eq_ok_iff.2 ⟨rfl, rfl⟩
  obtain ⟨u, hu, hinv⟩ := invariantStepGoesOn s h
  have haccept := hu
  rw [(stepRunsDecodedCommand.2 s (encodeByte i) [.wait] hs).1 i rfl hdecode] at haccept
  obtain ⟨_, _, status, _, _, rfl, -, -, hstatus⟩ := exec_accepts (by exact hb) haccept
  obtain ⟨t, hrun, hscript, hop, hreply, hend⟩ := hinv.run_wait rfl
  refine ⟨_, t, (core_run_succ _ hu).trans hrun, hscript, ?_, hop, hreply⟩
  rcases hstatus with ⟨rfl, -⟩ | rfl
  · exact .inl hend
  · exact .inr hend

/-- Settles O60: the expansion's reads change nothing of the block, and its LOAD puts the source's pixels, in
row-major order, into the register. -/
theorem moveCopiesImage : Obligations.MoveCopiesImage := by
  intro s r src hb ho hv hfull hfits hs
  obtain ⟨px, hpx, hlen, himg⟩ := hfull.pixels
  obtain ⟨m, a, hreads⟩ := run_reads (rest := [.tx (.load r (s.reg src).img.w (s.reg src).img.h px)])
    (moveReads_wf hfits) s s.mark s.reply
  have hmove := step_move hs ho hb hv hpx
  have hload := step_load (s := s.withHost _ m a) (rest := []) rfl
    (HostTx.argsOk_load_iff.2 ⟨hlen, hfits.1, hfits.2, ho⟩) (by exact hb)
  have hrun := (core_run_succ _ hmove).trans ((core_run_add hreads).trans (core_run_succ 0 hload))
  rw [himg, ← hv] at hrun
  refine ⟨_, _, hrun, by simp, rfl, ?_⟩
  cases r <;> rfl

end Sys2Proof.Machine
end

section
/-! PROOFS. The neighbour update in its integer and in its exact form (R86, R87). -/

namespace Sys2Proof.Machine

variable {v : Byte} {w : Nat} {e : BitVec 9}

theorem diffuse_of_neg (h : diffuseSum v w e < 0) : diffuse v w e = 0 := if_pos h

theorem diffuse_of_ge (h : 4080 ≤ diffuseSum v w e) : diffuse v w e = 255 :=
  (if_neg (by omega)).trans (if_pos h)

/-- Between the two clamps the stored byte is the sum's sixteenth, rounded down (R87). -/
theorem toNat_diffuse (h : 0 ≤ diffuseSum v w e) (h' : diffuseSum v w e < 4080) :
    ((diffuse v w e).toNat : Int) = diffuseSum v w e / 16 := by
  have hshift : diffuse v w e = BitVec.ofInt 8 (diffuseSum v w e / 16) := by
    rw [diffuse, if_neg (by omega), if_neg (by omega), Int.shiftRight_eq_div_pow]
    rfl
  rw [hshift, BitVec.toNat_ofInt]
  omega

/-- A number of sixteenths, clamped to a byte's range and truncated (R9). -/
theorem truncRat_clampRat_sixteenths (t : Int) :
    truncRat (clampRat ((t : Rat) / 16) 0 255) = if t < 0 then 0 else if 4080 ≤ t then 255 else t / 16 := by
  have hneg : (t : Rat) / 16 < 0 ↔ t < 0 := by rw [div_neg_iff]; norm_num
  have hhigh : 255 < (t : Rat) / 16 ↔ 4080 < t := by
    rw [lt_div_iff₀ (by norm_num), ← Int.cast_lt (R := Rat)]
    norm_num
  have hfloor : ((t : Rat) / 16).floor = t / 16 := Rat.floor_intCast_div_natCast t 16
  simp only [clampRat, hneg, hhigh]
  rcases lt_or_ge t 0 with hlt | hge
  · rw [if_pos hlt, if_pos hlt]; rfl
  rw [if_neg hge.not_gt, if_neg hge.not_gt]
  rcases lt_or_ge 4080 t with hlt | hle
  · rw [if_pos hlt, if_pos hlt.le]; rfl
  · rw [if_neg hle.not_gt, truncRat, if_neg (hneg.not.2 hge.not_gt), hfloor]
    split <;> omega

/-- The exact update truncates the same sum's sixteenth (R86, R87). -/
theorem diffuseExact_eq (v : Byte) (w : Nat) (e : BitVec 9) :
    diffuseExact v w e =
      if diffuseSum v w e < 0 then 0 else if 4080 ≤ diffuseSum v w e then 255 else diffuseSum v w e / 16 := by
  have hsum : (v.toNat : Rat) + (e.toInt : Rat) * (w : Rat) / 16 = (diffuseSum v w e : Rat) / 16 := by
    rw [diffuseSum]
    push_cast
    ring
  rw [diffuseExact, hsum, truncRat_clampRat_sixteenths]

/-- Settles O16: both forms clamp and round down the same sum of sixteenths. -/
theorem integerUpdateIsExact : Obligations.IntegerUpdateIsExact := by
  refine fun v w e => ⟨diffuse_of_neg, diffuse_of_ge, toNat_diffuse, ?_, fun hw hlo hhi => ?_⟩
  · rw [diffuseExact_eq]
    split_ifs with hneg hhigh
    · rw [diffuse_of_neg hneg]; rfl
    · rw [diffuse_of_ge hhigh]; rfl
    · exact toNat_diffuse (by omega) (by omega)
  · have hv := v.isLt
    have hlow : -(127 * (w : Int)) ≤ w * e.toInt := by nlinarith
    have hhigh : (w : Int) * e.toInt ≤ 127 * w := by nlinarith
    rw [diffuseSum]
    omega

end Sys2Proof.Machine
end

section
/-! PROOFS. Colour channels and planes, forced alpha, and scans of no pixels (R24, R41, R84, R85, R105). -/

namespace Sys2Proof

namespace Image

/-- Forcing alpha in the store changes the alpha channels and no other (R41, R105). -/
theorem readChan_alphaTo255 (img : Image) (x y : Nat) (c : Chan) :
    ({ img with px := img.px.alphaTo255 } : Image).readChan x y c
      = (img.readChan x y c).map fun v => if c = .a then 255 else v := by
  have haddr : chanAddr img.w x y c % 4 = 3 ↔ c = .a := by
    rw [chanAddr, Nat.mul_add_mod]
    cases c <;> decide
  simp only [readChan, inside, Memory.read_alphaTo255, haddr]
  split <;> rfl

/-- A full image of area 0 holds no byte (R11, R97). -/
theorem full.eq_blank {img : Image} (hf : img.full) (hz : img.area = 0) : img = blank img.w img.h := by
  have hnil : img.px = [] := by
    rw [full, hz] at hf
    exact List.map_eq_nil_iff.1 hf
  obtain ⟨w, h, px⟩ := img
  cases hnil
  rfl

end Image

namespace Machine

variable {img : Image} {P : Planes} {x y : Nat} {c : Chan}

theorem colour_or_alpha (c : Chan) : c ∈ colours ∨ c = .a := by cases c <;> decide

theorem colour_ne_alpha (hc : c ∈ colours) : c ≠ .a := by
  rcases colours_cases hc with rfl | rfl | rfl <;> decide

theorem mapPlanes_colour {f : Chan → Plane → Plane} {fa : Plane → Plane} (hc : c ∈ colours) :
    mapPlanes f fa P c = f c (P c) := by
  rcases colours_cases hc with rfl | rfl | rfl <;> rfl

/-- The latch of a colour holds that colour's own error (R84). -/
theorem visitLatch_get (hc : c ∈ colours) :
    (visitLatch P x y).get c = some (quantError (P c x y) (threshold (P c x y))) := by
  rcases colours_cases hc with rfl | rfl | rfl <;> rfl

/-- A neighbour of a pixel is inside the image (R85). -/
theorem inside_of_neighbourAt {n : Neighbour} {nx ny : Nat} (h : neighbourAt img.w img.h x y n = some (nx, ny)) :
    img.inside nx ny := by
  obtain ⟨-, -, hx, hy⟩ := neighbourAt_some h
  exact ⟨hx, hy⟩

/-- A scan of no pixels is done at once (R24). -/
theorem scanAll_of_area_zero {α : Type} {w h : Nat} (hz : w * h = 0) (f : Nat → Nat → α → Option α) (a : α) :
    scanAll w h f a = some a := by
  have hnil : Image.rowMajor w h = [] := List.length_eq_zero_iff.1 ((Image.length_rowMajor w h).trans hz)
  rw [scanAll, hnil]
  rfl

theorem ditherImage_of_area_zero {img : Image} (hz : img.area = 0) : ditherImage img = some img := by
  rw [ditherImage, scanAll_of_area_zero hz]
  rfl

theorem decodeImage_of_area_zero {img : Image} (hz : img.area = 0) :
    decodeImage img = some (Image.blank img.w img.h) := scanAll_of_area_zero hz _ _

/-- An empty target is resized to without the resampler (R104). -/
theorem resizeImage_of_target_zero {tw th : Nat} (hz : tw * th = 0) (img : Image) :
    resizeImage img tw th = .ok (Image.blank tw th) := by
  rw [resizeImage, if_neg fun h => h.2 hz, resampled, if_pos hz]
  rfl

theorem packImages_of_area_zero {d rc : Image} (hz : d.area = 0) (hs : d.sameDims rc) :
    packImages d rc = some (.ok (Image.blank d.w d.h)) := by
  rw [packImages, if_neg (by simp [hs.1, hs.2]), scanAll_of_area_zero hz]
  rfl

/-- The single-channel dither depends on the values inside the image only (R85). -/
theorem ditherPlane_congr {w h : Nat} {p q : Plane} (hpq : ∀ x y, x < w → y < h → p x y = q x y) {x y : Nat}
    (hx : x < w) (hy : y < h) : ditherPlane w h p x y = ditherPlane w h q x y :=
  foldVisit_congr _ (fun _ hq => Image.mem_rowMajor.1 hq) hpq x y hx hy

end Machine

end Sys2Proof
end

section
/-! PROOFS. The dither of black and white images (R94), and DITHER run to its end (R89, R91). -/

namespace Sys2Proof.Machine

/-- Dithering an image whose colour channels are all 0 or 255 keeps them, and makes every alpha 255 (R94). -/
theorem ditherImage_fixes {img : Image} (hf : img.full)
    (hbw : ∀ x y, img.inside x y → ∀ c ∈ colours, img.readChan x y c = some 0 ∨ img.readChan x y c = some 255) :
    ∃ out, ditherImage img = some out ∧ out.full ∧ out.sameDims img ∧ out.opaqueAlpha ∧
      ∀ x y, img.inside x y → ∀ c ∈ colours, out.readChan x y c = img.readChan x y c := by
  obtain ⟨P, hP⟩ := hf.exists_holds
  have hbwP : ∀ x y, img.inside x y → ∀ c ∈ colours, P c x y = 0 ∨ P c x y = 255 := fun x y hin c hc => by
    simpa [hP.2 x y c hin] using hbw x y hin c hc
  obtain ⟨out, hdither, hdims, hout⟩ := ditherImage_blackWhite hP hbwP
  refine ⟨out, hdither, hout.1, hdims, hout.opaqueAlpha fun _ _ => rfl, fun x y hin c hc => ?_⟩
  rw [hout.2 x y c (hdims.inside.2 hin), hP.2 x y c hin, mapPlanes_colour hc]

/-- A Dithered image is its own dither (R94, R95). -/
theorem ditherImage_of_dithered {img : Image} (hf : img.full) (hd : img.Dithered) : ditherImage img = some img := by
  obtain ⟨out, hdither, hfull, hdims, halpha, hcol⟩ := ditherImage_fixes hf fun x y hin => (hd x y hin).1
  rw [hdither, Image.ext_of_full hfull hf hdims fun x y c hin => ?_]
  have hin' := hdims.inside.1 hin
  rcases colour_or_alpha c with hc | rfl
  · exact hcol x y hin' c hc
  · rw [halpha x y hin, (hd x y hin').2]

/-- The dither of a uniform black or white image has that one colour (R94). -/
theorem ditherImage_uniform_colour {img d : Image} {v a : Byte} (hf : img.full) (hv : v = 0 ∨ v = 255)
    (hu : img.Uniform ⟨v, v, v, a⟩) (hd : ditherImage img = some d) :
    ∀ x y, d.inside x y → ∀ c ∈ colours, d.readChan x y c = some v := by
  have hread : ∀ x y, img.inside x y → ∀ c ∈ colours, img.readChan x y c = some v := fun x y hin c hc => by
    rw [hu x y hin c]
    rcases colours_cases hc with rfl | rfl | rfl <;> rfl
  obtain ⟨_, hout, -, hdims, -, hcol⟩ := ditherImage_fixes hf fun x y hin c hc => by simpa [hread x y hin c hc] using hv
  cases hd.symm.trans hout
  intro x y hin c hc
  have hin' := hdims.inside.1 hin
  rw [hcol x y hin' c hc, hread x y hin' c hc]

/-- DITHER run from its first pixel: the scan, then the finish step, which publishes DW (R89, R91). -/
theorem run_dither {s : State} (hs : s.script = []) (hb : s.status = .busy) (hp : s.phase = .dscan)
    (ho : s.op = .dither) (hx : s.x = 0) (hy : s.y = 0) (hf : s.dw.img.full) {out : Image} {e : ErrLatch}
    (h : scanAll s.dw.img.w s.dw.img.h visit (s.dw.img, s.e) = some (out, e)) :
    core.run (s.dw.img.area + 2) s = .next ({ s with dw := { s.dw with img := out }, e := e }.publish out) := by
  have hscan := run_dscan_whole hs hb hp (.inl ho) hx hy hf h
  rw [if_pos ho] at hscan
  exact (core_run_add (k := 1) hscan).trans (run_fin hs hb rfl (stepFin_dither ho))

end Sys2Proof.Machine
end

section
/-! PROOFS. The statements of 40_dither.md: the visit, the finish steps, DITHER as a whole, and the laws of dither. -/

namespace Sys2Proof.Machine

/-! ## One pixel -/

/-- Settles O20: the visited pixel, its neighbours and every other place of each plane after the visit. -/
theorem visitPixel : Obligations.VisitPixel := by
  intro img e x y hf hin
  obtain ⟨P, hP⟩ := hf.exists_holds
  obtain ⟨img', hvisit, hdims, hP'⟩ := visit_holds hP hin e
  have hcolour : ∀ {x' y' c}, img.inside x' y' → c ∈ colours →
      img'.readChan x' y' c = some (planeVisit img.w img.h x y (P c) x' y') := fun hin' hc => by
    rw [hP'.2 _ _ _ (hdims.inside.2 hin'), mapPlanes_colour hc]
  have halpha : ∀ {x' y'}, img.inside x' y' → img'.readChan x' y' .a = some ((P .a).set x y 255 x' y') :=
    fun hin' => hP'.2 _ _ _ (hdims.inside.2 hin')
  refine ⟨img', visitLatch P x y, hvisit, hP'.1, hdims, fun c hc => ?_, ?_, fun n hn nx ny hat c hc => ?_,
    fun x' y' c hne hkept => ?_⟩
  · exact ⟨P c x y, hP.2 x y c hin, by rw [hcolour hin hc, planeVisit_self], visitLatch_get hc⟩
  · rw [halpha hin, Plane.set_apply, if_pos ⟨rfl, rfl⟩]
  · have hin' := inside_of_neighbourAt hat
    exact ⟨_, _, hP.2 nx ny c hin', visitLatch_get hc, by rw [hcolour hin' hc, planeVisit_neighbour hn hat]⟩
  · have hne' : ¬ (x' = x ∧ y' = y) := by simpa using hne
    by_cases hin' : img.inside x' y'
    · rw [hP.2 x' y' c hin']
      rcases colour_or_alpha c with hc | rfl
      · have hother := hkept.resolve_left (colour_ne_alpha hc)
        rw [hcolour hin' hc, planeVisit_other hne' hother]
      · rw [halpha hin', Plane.set_apply, if_neg hne']
    · rw [Image.readChan_outside hin', Image.readChan_outside (hdims.inside.not.2 hin')]

/-- Settles O21: neighbour updates commute on every plane, so that both orders give the same planes. -/
theorem neighbourOrderIrrelevant : Obligations.NeighbourOrderIrrelevant := by
  intro img e x y ns hf _ hperm
  obtain ⟨P, hP⟩ := hf.exists_holds
  obtain ⟨out, hout, hdims, hH⟩ := diffuseAll_holds (x := x) (y := y) e ns hP
  obtain ⟨out', hout', hdims', hH'⟩ := diffuseAll_holds (x := x) (y := y) e neighbours hP
  have hfold : ∀ (ec : BitVec 9) (p : Plane),
      ns.foldl (planeDiffuse img.w img.h x y ec) p = neighbours.foldl (planeDiffuse img.w img.h x y ec) p :=
    fun ec p => (hperm.symm.foldl_eq' (fun _ hn _ hm q => planeDiffuse_comm hn hm q) p).symm
  simp only [hfold] at hH
  rw [hout, hout', hH.eq hH' ⟨hdims.1.trans hdims'.1.symm, hdims.2.trans hdims'.2.symm⟩ fun _ _ _ _ => rfl]

/-! ## Finish and completion -/

/-- Settles O25: the four finish steps, and the forced alpha of RESIZE. -/
theorem finishStep : Obligations.FinishStep := by
  intro s hs hb hp
  have hstep : step s = stepFin s := (step_busy hs hb).trans (stepPhase_fin hp)
  refine ⟨fun ho => hstep.trans (stepFin_dither ho), fun ho => hstep.trans (stepFin_encode ho),
    fun ho => hstep.trans (stepFin_decode ho), fun ho => ?_⟩
  refine ⟨_, hstep.trans (stepFin_resize ho), ⟨rfl, rfl⟩, fun x y c hc => ?_, fun x y => ?_⟩
  · simp [Image.readChan_alphaTo255, colour_ne_alpha hc]
  · exact Image.readChan_alphaTo255 _ _ _ _

/-- Settles O29: acceptance copies IA to DW and starts the run that computes the dither there. -/
theorem ditherCompletes : Obligations.DitherCompletes := by
  intro s hb hs hv hf
  obtain ⟨out, e, hscan, -⟩ := ditherScan_dithered hf ErrLatch.zero
  refine ⟨_, out, e, (ditherAcceptance s hb).1 hv, ditherImage_of_scan hscan, ?_⟩
  refine (run_dither (out := out) (e := e) (by exact hs) rfl rfl rfl rfl rfl (by exact hf) (by exact hscan)).trans ?_
  simp only [State.publish, State.setPc, hv]

/-! ## The stage function -/

/-- Settles O36: a black or white channel has no error, no error changes nothing, and a dither leaves only black and
white channels. -/
theorem ditherIsIdempotent : Obligations.DitherIsIdempotent := by
  refine ⟨?_, fun v w => ⟨by simp [diffuseSum], diffuse_zero v w⟩, fun img hf hbw => ?_, fun img out hf hdither => ?_⟩
  · rintro cur (rfl | rfl) <;> decide
  · obtain ⟨out, hdither, -, hdims, halpha, hcol⟩ := ditherImage_fixes hf hbw
    exact ⟨out, hdither, hdims, halpha, hcol⟩
  · obtain ⟨_, hout, hfull, -, hdithered⟩ := ditherResultIsDithered img hf
    cases hdither.symm.trans hout
    exact ditherImage_of_dithered hfull hdithered

/-- Settles O37: the dither's planes are the lanes of the image's, and a lane does not look outside the image. -/
theorem ditherIsThreeLanes : Obligations.DitherIsThreeLanes := by
  intro img out c p hf hdither hc hp x y hin
  obtain ⟨P, hP⟩ := hf.exists_holds
  obtain ⟨_, hout, hdims, hH⟩ := ditherImage_lanes hP
  cases hdither.symm.trans hout
  have hPp : ∀ x y, x < img.w → y < img.h → P c x y = p x y := fun x y hx hy =>
    Option.some.inj ((hP.2 x y c ⟨hx, hy⟩).symm.trans (hp x y ⟨hx, hy⟩))
  rw [hH.2 x y c (hdims.inside.2 hin), mapPlanes_colour hc, ditherPlane_congr hPp hin.1 hin.2]

/-- Settles O43: a uniform secret dithers to itself, and the round trip gives back the high nibble of the dither. -/
theorem uniformRoundTrips : Obligations.UniformRoundTrips := by
  intro secret carrier hf hc
  obtain ⟨d, out, rec, hdither, hencode, hdecode, -, hdims, ⟨halpha, -⟩, hrec⟩ := roundTrip secret carrier hf hc
  obtain ⟨_, hd, -, hds, -⟩ := ditherResultIsDithered secret hf
  cases hdither.symm.trans hd
  have huniform : ∀ v : Byte, v = 0 ∨ v = 255 → secret.Uniform ⟨v, v, v, 255⟩ →
      rec.Uniform ⟨v &&& 0xF0#8, v &&& 0xF0#8, v &&& 0xF0#8, 255⟩ := by
    intro v hv hu x y hin c
    rcases colour_or_alpha c with hcol | rfl
    · obtain ⟨vd, hvd, hread, -⟩ := hrec x y hin c hcol
      have hd := ditherImage_uniform_colour hf hv hu hdither x y (hds.inside.2 (hdims.inside.1 hin)) c hcol
      cases hvd.symm.trans hd
      rw [hread]
      rcases colours_cases hcol with rfl | rfl | rfl <;> rfl
    · exact halpha x y hin
  exact ⟨out, rec, hencode, hdecode, huniform 255 (.inr rfl), huniform 0 (.inl rfl)⟩

/-- Settles O45: no stage has a pixel to visit. -/
theorem zeroAreaImages : Obligations.ZeroAreaImages := by
  refine ⟨fun img hf hz => ⟨ditherImage_of_area_zero hz, ?_⟩, fun img tw th hz => resizeImage_of_target_zero hz img,
    fun secret carrier _ hz => ?_⟩
  · rw [decodeImage_of_area_zero hz, ← hf.eq_blank hz]
  · rw [encodeImages, if_neg fun h => h.2 hz, ditherImage_of_area_zero hz]
    simp only [resizeImage_of_target_zero hz carrier]
    exact packImages_of_area_zero hz ⟨rfl, rfl⟩

end Sys2Proof.Machine
end

section
/-! PROOFS. Forcing alpha on a full image (R105), what resize returns (R106), and RESIZE run to its end (R103, R105). -/

namespace Sys2Proof

namespace Image

variable {img : Image}

/-- Forcing alpha adds no byte and drops none (R105). -/
theorem full.alphaTo255 (hf : img.full) : ({ img with px := img.px.alphaTo255 } : Image).full :=
  (Memory.keys_alphaTo255 img.px).trans hf

/-- Forcing alpha on a full image makes every pixel opaque (R13, R105). -/
theorem full.opaqueAlpha_alphaTo255 (hf : img.full) :
    ({ img with px := img.px.alphaTo255 } : Image).opaqueAlpha := by
  intro x y hin
  obtain ⟨v, hv⟩ := hf.readChan (x := x) (y := y) hin .a
  rw [readChan_alphaTo255, hv]
  rfl

end Image

namespace Machine

theorem resampledImage_of_target_zero {tw th : Nat} (hz : tw * th = 0) (src : Image) :
    resampledImage src tw th = Image.blank tw th := by
  rw [resampledImage, resampled, if_pos hz]
  rfl

theorem resampledImage_of_target_pos {tw th : Nat} (hpos : tw * th ≠ 0) (src : Image) :
    resampledImage src tw th = Image.ofPixels tw th (Config.resample src tw th).toList := by
  rw [resampledImage, resampled, if_neg hpos]

theorem resizeImage_raises {img : Image} {tw th : Nat} (h : img.area = 0 ∧ tw * th ≠ 0) :
    resizeImage img tw th = .error .invalidImage := if_pos h

/-- Where it does not raise, resize is the resampler's image with its alpha forced in the store, which is what the
finish step of RESIZE publishes (R105, R106). -/
theorem resizeImage_eq_alphaTo255 {img : Image} {tw th : Nat} (h : ¬ (img.area = 0 ∧ tw * th ≠ 0)) :
    resizeImage img tw th
      = .ok { resampledImage img tw th with px := (resampledImage img tw th).px.alphaTo255 } := by
  rw [resizeImage, if_neg h, resampledImage, alphaTo255_ofPixels]

/-- RESIZE run from its resampler step: RC gets the raw result, and the finish step publishes it with forced alpha
(R103, R105). -/
theorem run_resize {s : State} (hs : s.script = []) (hb : s.status = .busy) (hp : s.phase = .rsz)
    (ho : s.op = .resize) :
    core.run 2 s = .next ({ s with rc := { valid := true, img := resampledImage s.ia.img s.tw s.th } }.publish
      { resampledImage s.ia.img s.tw s.th with px := (resampledImage s.ia.img s.tw s.th).px.alphaTo255 }) := by
  have hstep : step s = _ := (step_busy hs hb).trans ((stepPhase_rsz hp).trans (stepRsz_resize ho))
  exact (core_run_succ 1 hstep).trans (run_fin hs hb rfl (stepFin_resize ho))

end Machine

end Sys2Proof
end

section
/-! PROOFS. The statements of 41_resize.md: the resampler step, the contract of resize, and RESIZE as a whole. -/

namespace Sys2Proof.Machine

/-- Settles O23: the step of P_RSZ by the command in OP, and its image for an empty target and for another. -/
theorem resamplerStep : Obligations.ResamplerStep := by
  refine ⟨fun src tw th => ⟨fun hz => resampledImage_of_target_zero hz src,
    fun hpos => resampledImage_of_target_pos hpos src⟩, fun s hs hb hp => ?_⟩
  have hstep : step s = stepRsz s := (step_busy hs hb).trans (stepPhase_rsz hp)
  exact ⟨fun ho => hstep.trans (stepRsz_resize ho), fun ho => hstep.trans (stepRsz_encode ho)⟩

/-- Settles O38: the resampler's image is full whatever the resampler answers, and forcing alpha keeps it so. -/
theorem resizeContract : Obligations.ResizeContract := by
  refine fun img tw th => ⟨resizeImage_raises, fun h => ?_⟩
  have hfull := full_resampledImage img tw th
  exact ⟨_, resizeImage_eq_alphaTo255 h, rfl, rfl, hfull.alphaTo255, hfull.opaqueAlpha_alphaTo255⟩

/-- Settles O30: acceptance starts the two steps, and what they publish is the result of resize. -/
theorem resizeCompletes : Obligations.ResizeCompletes := by
  intro s hb hs hv hsample
  have hok : ¬ (s.ia.img.area = 0 ∧ s.tw * s.th ≠ 0) := fun h => h.2 (hsample h.1)
  obtain ⟨out, hout, hw, hh, hfull, halpha⟩ := (resizeContract s.ia.img s.tw s.th).2 hok
  refine ⟨_, out, (resizeAcceptance s hb).1 ⟨hv, hsample⟩, hout, hw, hh, hfull, halpha, ?_⟩
  cases hout.symm.trans (resizeImage_eq_alphaTo255 hok)
  exact run_resize (by exact hs) rfl rfl rfl

end Sys2Proof.Machine
end

section
/-! PROOFS. MUXNIB by nibbles and by number (R114), and the planes of a combined image (R115). -/

namespace Sys2Proof.Machine

/-- A byte is its two nibbles. -/
theorem toNat_nibbles (v : Byte) : v.toNat = 16 * (v.extractLsb' 4 4).toNat + (v.extractLsb' 0 4).toNat := by
  rw [BitVec.extractLsb'_toNat, BitVec.extractLsb'_toNat, Nat.shiftRight_zero, Nat.shiftRight_eq_div_pow]
  have := v.isLt
  omega

/-- The high nibble as a number. -/
theorem toNat_highNibble (v : Byte) : (v.extractLsb' 4 4).toNat = v.toNat / 16 := by
  have hlow := (v.extractLsb' 0 4).isLt
  have hv := toNat_nibbles v
  omega

/-- MUXNIB keeps the carrier under the mask 0xF0 (R114). -/
theorem muxNib_and_high (rc d : Byte) : muxNib rc d &&& 0xF0#8 = rc &&& 0xF0#8 := by
  ext i hi
  interval_cases i <;> simp [muxNib]

/-- Under the mask 0x0F, MUXNIB is the dithered value's high nibble (R114). -/
theorem muxNib_and_low (rc d : Byte) : muxNib rc d &&& 0x0F#8 = d >>> 4 := by
  ext i hi
  interval_cases i <;> simp [muxNib]

/-- As a number, MUXNIB is the two high nibbles (R114). -/
theorem toNat_muxNib (rc d : Byte) : (muxNib rc d).toNat = 16 * (rc.toNat / 16) + d.toNat / 16 := by
  rw [toNat_nibbles, muxNib_high, muxNib_low, toNat_highNibble, toNat_highNibble]

/-- The colour planes of a combined image (R115). -/
theorem packPlanes_colour {D R : Planes} {c : Chan} (hc : c ∈ colours) (x y : Nat) :
    packPlanes D R c x y = muxNib (R c x y) (D c x y) := by
  rcases colours_cases hc with rfl | rfl | rfl <;> rfl

end Sys2Proof.Machine
end

section
/-! PROOFS. What a step does to ERR (R22): ENCODE's dimension check never fails (R120), so that INVALID_INPUT is
never raised (R138). -/

namespace Sys2Proof.Machine

variable {s t : State}

/-- The sequencer keeps ERR: its only check, in the resampler step of ENCODE, never fails (R113, R120). -/
theorem stepPhase_err (h : stepPhase s = .next t) : t.err = s.err := by
  rcases stepPhase_cases h with ⟨-, -, -, rfl⟩ | ⟨-, -, -, rfl⟩ | ⟨-, -, img, e, -, rfl⟩ | ⟨-, -, rfl⟩ | ⟨-, -, rfl⟩ |
    ⟨-, -, rfl⟩ | ⟨-, -, img, -, rfl⟩ | ⟨-, -, rfl⟩ | ⟨-, -, img, -, rfl⟩ | ⟨-, -, rfl⟩ | ⟨-, -, rfl⟩ | ⟨-, -, rfl⟩
  all_goals simp

/-- Acceptance of a command keeps ERR while BUSY, clears it, or raises INVALID_IMAGE (R62, R136). -/
theorem exec_err {i : Instr} (h : exec i s = .next t) :
    t.err = s.err ∨ t.err = .none ∨ t.err = .invalidImage := by
  rcases exec_cases h with ⟨-, rfl⟩ | ⟨-, rfl⟩ | ⟨-, -, -, rfl⟩ | ⟨-, -, -, -, rfl⟩ | ⟨-, -, -, -, -, rfl⟩ |
    ⟨-, -, -, rfl⟩
  · exact .inl rfl
  · exact .inr (.inr rfl)
  all_goals exact .inr (.inl rfl)

/-- A CMD write keeps ERR while BUSY, clears it, or raises one of the two acceptance errors (R62, R65, R136). -/
theorem hostWriteCmd_err {v : Byte} (h : hostWriteCmd v s = .next t) :
    t.err = s.err ∨ t.err = .none ∨ t.err = .invalidImage ∨ t.err = .illegalCommand := by
  rcases hostWriteCmd_cases h with ⟨i, -, hx⟩ | ⟨-, hx⟩
  · exact (exec_err hx).imp_right fun h => h.imp_right .inl
  · rcases illegalCommand_cases hx with ⟨-, rfl⟩ | ⟨-, rfl⟩
    · exact .inl rfl
    · exact .inr (.inr (.inr rfl))

/-- Among the transactions only a CMD write moves ERR (R22, R62). -/
theorem hostTx_err {tx : HostTx} (h : hostTx tx s = .next t) :
    t.err = s.err ∨ t.err = .none ∨ t.err = .invalidImage ∨ t.err = .illegalCommand := by
  rcases hostTx_cases h with hsame | ⟨-, r, w, hh, px, -, -, rfl⟩ | ⟨-, r, -, -, rfl⟩ |
    ⟨-, r, x, y, p, img, -, -, -, -, rfl⟩ | ⟨-, v, -, rfl | rfl⟩ | ⟨-, v, hw⟩
  · exact .inl hsame.err
  · exact .inl (by simp)
  · exact .inl (by simp)
  · exact .inl (by simp)
  · exact .inl rfl
  · exact .inl rfl
  · exact hostWriteCmd_err hw

end Sys2Proof.Machine
end

section
/-! PROOFS. Encode as a scan of the raw resampled carrier (R115, R118), and ENCODE run to its end (R112, R113, R115,
R117). -/

namespace Sys2Proof.Machine

/-- Packing reads no alpha, so encode is the pack of the dithered secret with the raw resampled carrier, which is what
RC holds, though resize forces its alpha to 255 (R106, R113, R118). -/
theorem encodeImages_eq_packScan {S C : Image} (hf : S.full) (hc : C.area = 0 → S.area = 0) :
    ∃ d e out, scanAll S.w S.h visit (S, ErrLatch.zero) = some (d, e) ∧ d.full ∧ d.sameDims S ∧
      scanAll d.w d.h (packPixel d (resampledImage C S.w S.h)) (Image.blank d.w d.h) = some out ∧
      encodeImages S C = some (.ok out) := by
  obtain ⟨d, out, D, R, hdither, -, hds, hD, hR, hencode, hod, hout⟩ := encodeImages_holds hf hc
  obtain ⟨d', e, hscan, -⟩ := ditherScan_dithered hf ErrLatch.zero
  cases hdither.symm.trans (ditherImage_of_scan hscan)
  obtain ⟨out', hpack, hod', hout'⟩ := packScan_holds hD hR hds
  obtain rfl : out' = out :=
    hout'.eq hout ⟨hod'.1.trans hod.1.symm, hod'.2.trans hod.2.symm⟩ fun _ _ _ _ => rfl
  exact ⟨d, e, out', hscan, hD.1, hds, hpack, hencode⟩

variable {s : State}

/-- ENCODE run from its resampler step: RC gets the raw result, IO is packed, and the finish step publishes it (R113,
R115, R117). -/
theorem run_encode_from_rsz (hs : s.script = []) (hb : s.status = .busy) (hp : s.phase = .rsz) (ho : s.op = .encode)
    (hf : s.dw.img.full) {rc out : Image} (hrc : resampledImage s.ib.img s.dw.img.w s.dw.img.h = rc)
    (h : scanAll s.dw.img.w s.dw.img.h (packPixel s.dw.img rc) (Image.blank s.dw.img.w s.dw.img.h) = some out) :
    core.run (s.dw.img.area + 3) s = .next ({ s with rc := { valid := true, img := rc } }.publish out) := by
  subst hrc
  have hstep : step s = _ := (step_busy hs hb).trans ((stepPhase_rsz hp).trans (stepRsz_encode ho))
  refine (core_run_succ _ hstep).trans ?_
  have hmux := run_mux_whole (s := State.setPc { s with
      rc := { valid := true, img := resampledImage s.ib.img s.dw.img.w s.dw.img.h },
      io := { valid := false, img := Image.blank s.dw.img.w s.dw.img.h } } .mux 0 0)
    hs hb rfl hf (full_resampledImage _ _ _) ⟨rfl, rfl⟩ ⟨rfl, rfl⟩ rfl rfl rfl h
  exact (core_run_add (k := 1) hmux).trans (run_fin hs hb rfl (stepFin_encode ho))

/-- ENCODE run from its first pixel: the dither scan on DW, then the rest (R112). -/
theorem run_encode (hs : s.script = []) (hb : s.status = .busy) (hp : s.phase = .dscan) (ho : s.op = .encode)
    (hx : s.x = 0) (hy : s.y = 0) (hf : s.dw.img.full) {d rc out : Image} {e : ErrLatch}
    (hscan : scanAll s.dw.img.w s.dw.img.h visit (s.dw.img, s.e) = some (d, e)) (hd : d.full)
    (hds : d.sameDims s.dw.img) (hrc : resampledImage s.ib.img s.dw.img.w s.dw.img.h = rc)
    (hpack : scanAll d.w d.h (packPixel d rc) (Image.blank d.w d.h) = some out) :
    core.run (2 * s.dw.img.area + 4) s = .next ({ s with
      dw := { s.dw with img := d }, e := e, rc := { valid := true, img := rc } }.publish out) := by
  have hdither := run_dscan_whole hs hb hp (.inr ho) hx hy hf hscan
  rw [if_neg (by rw [ho]; decide)] at hdither
  have harea : d.area = s.dw.img.area := by rw [Image.area, Image.area, hds.1, hds.2]
  have hrest := run_encode_from_rsz (s := State.setPc { s with dw := { s.dw with img := d }, e := e } .rsz 0 0)
    hs hb rfl ho hd (rc := rc) (by rw [← hrc, ← hds.1, ← hds.2]; rfl) hpack
  rw [show 2 * s.dw.img.area + 4 = s.dw.img.area + 1 + (d.area + 3) by omega]
  exact (core_run_add hdither).trans hrest

end Sys2Proof.Machine
end

section
/-! PROOFS. The statements of 42_encode.md: MUXNIB, INVALID_INPUT, ENCODE as a whole, and the properties of encode. -/

namespace Sys2Proof.Machine

/-- Settles O17: the result's two nibbles, and what they are as a number. -/
theorem muxNibble : Obligations.MuxNibble := by
  intro rc d
  have hzero : muxNib rc 0 = rc &&& 0xF0#8 := BitVec.or_zero
  exact ⟨rfl, muxNib_high rc d, muxNib_low rc d, toNat_muxNib rc d, hzero, rfl⟩

/-- Settles O26: a step keeps ERR, clears it, or raises one of the two errors of acceptance. -/
theorem invalidInputNeverRaised : Obligations.InvalidInputNeverRaised := by
  intro s t hs hne
  rcases step_cases hs with ⟨_, _, _, rfl⟩ | ⟨_, -, rfl⟩ | ⟨_, _, -, -, hx⟩ | ⟨-, _, _, _, hx⟩
  · exact hne
  · exact fun h => by cases h
  · rcases hostTx_err hx with h | h | h | h <;> rw [h]
    · exact hne
    all_goals decide
  · rw [stepPhase_err hx]
    exact hne

/-- Settles O31: acceptance copies IA to DW and starts the run, which packs what encode packs. -/
theorem encodeCompletes : Obligations.EncodeCompletes := by
  intro s hb hs hia hib hf hc
  obtain ⟨d, e, out, hscan, hd, hds, hpack, hencode⟩ := encodeImages_eq_packScan hf hc
  refine ⟨_, d, out, e, (encodeAcceptance s hb).1 ⟨hia, hib, hc⟩, ditherImage_of_scan hscan, hencode, ?_⟩
  refine (run_encode (by exact hs) rfl rfl rfl rfl rfl (by exact hf) (by exact hscan) hd (by exact hds) rfl
    hpack).trans ?_
  simp only [State.publish, State.setPc, hia]

/-- Settles O40: each colour channel is the mux of the resized carrier's and the dithered secret's, which is 0 or
255. -/
theorem encodeKeepsNibbles : Obligations.EncodeKeepsNibbles := by
  intro secret carrier hf hc
  obtain ⟨d, out, D, R, hdither, hdithered, hds, hD, hR, hencode, hod, hout⟩ := encodeImages_holds hf hc
  refine ⟨d, out, hdither, hencode, hout.1, hod.trans hds, hout.opaqueAlpha fun _ _ => rfl, fun x y hin c hcol => ?_⟩
  have hin' := hod.inside.1 hin
  have hread : out.readChan x y c = some (muxNib (R c x y) (D c x y)) := by
    rw [hout.2 x y c hin, packPlanes_colour hcol]
  refine ⟨_, R c x y, D c x y, hread, hD.2 x y c hin', hR.2 x y c (hds.inside.1 hin'), muxNib_and_high _ _, ?_⟩
  rw [muxNib_and_low]
  rcases hdithered.value hD hin' hcol with hv | hv <;> rw [hv]
  · exact .inl ⟨rfl, rfl⟩
  · exact .inr ⟨rfl, rfl⟩

end Sys2Proof.Machine
end

section
/-! PROOFS. EXTNIB by nibbles and by number (R127), the planes of a reconstructed image (R128, R131), carriers for which
encode answers (R121), and DECODE run to its end (R128, R129). -/

namespace Sys2Proof.Machine

/-! ## EXTNIB -/

/-- EXTNIB moves the low nibble up and puts zero below it (R127). -/
theorem extNib_eq_append (v : Byte) : extNib v = v.extractLsb' 0 4 ++ 0#4 := by
  refine BitVec.eq_of_getLsbD_eq fun i hi => ?_
  rw [BitVec.getLsbD_append]
  interval_cases i <;> simp [extNib]

/-- The high nibble of EXTNIB is the low nibble of the value (R127). -/
theorem extNib_high (v : Byte) : (extNib v).extractLsb' 4 4 = v.extractLsb' 0 4 := by
  rw [extNib_eq_append, BitVec.extractLsb'_append_eq_left]

/-- The low nibble of EXTNIB is zero (R127). -/
theorem extNib_low (v : Byte) : (extNib v).extractLsb' 0 4 = 0 := by
  rw [extNib_eq_append, BitVec.extractLsb'_append_eq_right]
  rfl

/-- The low nibble as a number. -/
theorem toNat_lowNibble (v : Byte) : (v.extractLsb' 0 4).toNat = v.toNat % 16 := by
  rw [BitVec.extractLsb'_toNat, Nat.shiftRight_zero]

/-- As a number, EXTNIB is 16 times the low nibble (R127). -/
theorem toNat_extNib (v : Byte) : (extNib v).toNat = 16 * (v.toNat % 16) := by
  rw [toNat_nibbles, extNib_high, extNib_low, toNat_lowNibble]
  rfl

/-- Nothing is left to extract from an extracted nibble (R127, R131). -/
theorem extNib_extNib (v : Byte) : extNib (extNib v) = 0 := by
  rw [extNib_eq_append, extNib_low]
  rfl

/-- The colour planes of a reconstructed image (R128). -/
theorem extractPlanes_colour {P : Planes} {c : Chan} (hc : c ∈ colours) (x y : Nat) :
    extractPlanes P c x y = extNib (P c x y) := by
  rcases colours_cases hc with rfl | rfl | rfl <;> rfl

/-- The planes of an image decoded twice are those of a black one (R131). -/
theorem extractPlanes_extractPlanes (P : Planes) (c : Chan) (x y : Nat) :
    extractPlanes (extractPlanes P) c x y = (⟨0, 0, 0, 255⟩ : Pixel).chan c := by
  rcases colour_or_alpha c with hc | rfl
  · rw [extractPlanes_colour hc, extractPlanes_colour hc, extNib_extNib]
    rcases colours_cases hc with rfl | rfl | rfl <;> rfl
  · rfl

/-! ## Encode and decode as a whole -/

/-- Where encode answers an image, the carrier has pixels or the secret has none (R121). -/
theorem encodeImages_carrier {S C out : Image} (h : encodeImages S C = some (.ok out)) : C.area = 0 → S.area = 0 := by
  intro hC
  by_contra hS
  rw [encodeImages, if_pos ⟨hC, hS⟩] at h
  cases h

/-- Two full opaque images with the same colours are the same. -/
theorem eq_of_opaque_of_colours {r1 r2 : Image} (h1 : r1.full) (h2 : r2.full) (hd : r1.sameDims r2)
    (ho1 : r1.opaqueAlpha) (ho2 : r2.opaqueAlpha)
    (hcol : ∀ x y, r1.inside x y → ∀ c ∈ colours, r1.readChan x y c = r2.readChan x y c) : r1 = r2 := by
  refine Image.ext_of_full h1 h2 hd fun x y c hin => ?_
  rcases colour_or_alpha c with hc | rfl
  · exact hcol x y hin c hc
  · rw [ho1 x y hin, ho2 x y (hd.inside.1 hin)]

/-- DECODE run from its first pixel: the scan of IA into IO, then the finish step, which publishes IO (R128, R129). -/
theorem run_decode {s : State} (hs : s.script = []) (hb : s.status = .busy) (hp : s.phase = .ext)
    (ho : s.op = .decode) (hx : s.x = 0) (hy : s.y = 0) (hf : s.ia.img.full)
    (hio : s.io.img = Image.blank s.ia.img.w s.ia.img.h) {out : Image} (h : decodeImage s.ia.img = some out) :
    core.run (s.ia.img.area + 2) s = .next ({ s with io := { s.io with img := out } }.publish out) := by
  have hext := run_ext_whole (out := out) hs hb hp hf (by rw [hio]; exact ⟨rfl, rfl⟩) hx hy (by rw [hio]; rfl)
    (by rw [hio]; exact h)
  have harea : s.io.img.area = s.ia.img.area := by rw [hio]; rfl
  rw [harea] at hext
  exact (core_run_add (k := 1) hext).trans (run_fin hs hb rfl (stepFin_decode ho))

end Sys2Proof.Machine
end

section
/-! PROOFS. The statements of 43_decode.md: EXTNIB, DECODE as a whole, decode of any image, and the carrier's trace. -/

namespace Sys2Proof.Machine

/-- Settles O18: the result is the low nibble over a zero nibble. -/
theorem extractNibble : Obligations.ExtractNibble := by
  intro v
  refine ⟨rfl, extNib_high v, extNib_low v, toNat_extNib v, fun h => ?_, fun h => ?_⟩
  all_goals
    rw [extNib_eq_append, h]
    rfl

/-- Settles O32: acceptance gives IO the dimensions of IA and starts the run, which extracts what decode does. -/
theorem decodeCompletes : Obligations.DecodeCompletes := by
  intro s hb hs hv hf
  obtain ⟨P, hP⟩ := hf.exists_holds
  obtain ⟨out, hdecode, -⟩ := decodeImage_holds hP
  refine ⟨_, out, (decodeAcceptance s hb).1 hv, hdecode, ?_⟩
  exact run_decode (by exact hs) rfl rfl rfl rfl rfl (by exact hf) rfl (by exact hdecode)

/-- Settles O42: with either carrier the colours come back as the high nibble of the dithered secret. -/
theorem carrierLeavesNoTrace : Obligations.CarrierLeavesNoTrace := by
  intro secret c1 c2 out1 out2 hf h1 h2
  obtain ⟨d, _, r1, hd, he1, hr1, hfull1, hdims1, ⟨halpha1, -⟩, hcol1⟩ :=
    roundTrip secret c1 hf (encodeImages_carrier h1)
  obtain ⟨_, _, r2, hd', he2, hr2, hfull2, hdims2, ⟨halpha2, -⟩, hcol2⟩ :=
    roundTrip secret c2 hf (encodeImages_carrier h2)
  cases h1.symm.trans he1
  cases h2.symm.trans he2
  cases hd.symm.trans hd'
  have hdims : r1.sameDims r2 := ⟨hdims1.1.trans hdims2.1.symm, hdims1.2.trans hdims2.2.symm⟩
  have hsame : r1 = r2 := eq_of_opaque_of_colours hfull1 hfull2 hdims halpha1 halpha2 fun x y hin c hc => by
    obtain ⟨v1, hv1, hread1, -⟩ := hcol1 x y hin c hc
    obtain ⟨v2, hv2, hread2, -⟩ := hcol2 x y (hdims.inside.1 hin) c hc
    cases hv1.symm.trans hv2
    rw [hread1, hread2]
  rw [hr1, hr2, hsame]

/-- Settles O44: each decode extracts the colour channels, and the second finds zero low nibbles. -/
theorem decodeOfAnyImage : Obligations.DecodeOfAnyImage := by
  intro img hf
  obtain ⟨P, hP⟩ := hf.exists_holds
  obtain ⟨out, hdecode, hdims, hout⟩ := decodeImage_holds hP
  obtain ⟨out2, hdecode2, hdims2, hout2⟩ := decodeImage_holds hout
  refine ⟨out, hdecode, hout.1, hdims, hout.opaqueAlpha fun _ _ => rfl, fun x y hin c hc => ?_,
    out2, hdecode2, hdims2.trans hdims, fun x y hin c => ?_⟩
  · refine ⟨P c x y, _, hP.2 x y c hin, hout.2 x y c (hdims.inside.2 hin), ?_⟩
    rw [extractPlanes_colour hc, toNat_extNib]
  · rw [hout2.2 x y c hin, extractPlanes_extractPlanes]

end Sys2Proof.Machine
end

section
/-! PROOFS. The running command ends (R144): the sequencer's steps alone, with no host move pending, take it to DONE in
the steps it has left. -/

namespace Sys2Proof.Machine

variable {s t : State}

/-- The longest command, ENCODE, has 2·area(IA) + 4 steps (R144), so no running command has more left. -/
theorem workLeft_le (s : State) : workLeft s ≤ 2 * s.ia.img.area + 4 := by
  have hleft : pixelsLeft s ≤ s.ia.img.area := Nat.sub_le _ _
  cases hp : s.phase <;> simp only [workLeft, hp]
  case dscan => split <;> omega
  case rsz => split <;> omega
  all_goals omega

/-- The sequencer writes neither TW nor TH (R27). -/
theorem stepPhase_target (h : stepPhase s = .next t) : t.tw = s.tw ∧ t.th = s.th := by
  rcases stepPhase_cases h with ⟨-, -, -, rfl⟩ | ⟨-, -, -, rfl⟩ | ⟨-, -, img, e, -, rfl⟩ | ⟨-, -, rfl⟩ | ⟨-, -, rfl⟩ |
    ⟨-, -, rfl⟩ | ⟨-, -, img, -, rfl⟩ | ⟨-, -, rfl⟩ | ⟨-, -, img, -, rfl⟩ | ⟨-, -, rfl⟩ | ⟨-, -, rfl⟩ | ⟨-, -, rfl⟩
  all_goals simp

/-- Under the invariant ERR is NONE whenever the block is DONE (R22). -/
theorem BlockInv.err_of_done (h : BlockInv s) (hd : s.status = .done) : s.err = .none := by
  by_contra herr
  cases hd.symm.trans (h.errCode.1 herr)

/-- A RUNNING COMMAND ENDS: after exactly the steps it has left it is DONE, its operands as they were. -/
theorem BlockInv.run_workLeft (h : BlockInv s) (hb : s.status = .busy) (hs : s.script = []) :
    ∃ t, core.run (workLeft s) s = .next t ∧ BlockInv t ∧ t.status = .done ∧
      t.ia = s.ia ∧ t.ib = s.ib ∧ t.tw = s.tw ∧ t.th = s.th := by
  induction hk : workLeft s generalizing s with
  | zero => exact absurd (h.workLeft_pos_iff.2 hb) (by omega)
  | succ k ih =>
    obtain ⟨u, hu, hinv⟩ := stepPhase_keeps h hb
    have hleft := stepPhase_workLeft h hu
    have hstep : step s = .next u := (step_busy hs hb).trans hu
    obtain ⟨htw, hth⟩ := stepPhase_target hu
    obtain ⟨hia, hib, hst | ⟨hdone, -⟩⟩ := stepPhase_frame hu
    · obtain ⟨t, hrun, htinv, hdone, tia, tib, ttw, tth⟩ :=
        ih hinv (hst.trans hb) ((stepPhase_op_script hu).2.trans hs) (by omega)
      exact ⟨t, (core_run_succ k hstep).trans hrun, htinv, hdone, tia.trans hia, tib.trans hib, ttw.trans htw,
        tth.trans hth⟩
    · have hnone : ¬ 0 < workLeft u := fun hpos => by cases hdone.symm.trans (hinv.workLeft_pos_iff.1 hpos)
      obtain rfl : k = 0 := by omega
      exact ⟨u, core_run_succ 0 hstep, hinv, hdone, hia, hib, htw, hth⟩

end Sys2Proof.Machine
end

section
/-! PROOFS. The statements of 60_exceptions.md: the running command's end (R144) and error entry (R141). -/

namespace Sys2Proof.Machine

/-- Settles O33: the command runs the steps it has left, at most those of a whole ENCODE, and ends DONE. -/
theorem runningCommandEnds : Obligations.RunningCommandEnds := by
  intro s h hb hs
  obtain ⟨t, hrun, hinv, hdone, hkept⟩ := h.run_workLeft hb hs
  exact ⟨workLeft s, t, workLeft_le s, hrun, hdone, hinv.err_of_done hdone, hkept⟩

/-- Settles O14: raise drops the results, idles the sequencer and sets ERR and STATUS, each a single field write. -/
theorem errorEntry : Obligations.ErrorEntry := fun _ _ => rfl

end Sys2Proof.Machine
end
